-- ==== Sys2Proof/Word.lean ====
section
/-! DEFINITION. The word types of the core (00_scope.md rules R4 and R5). -/

namespace Sys2Proof

/-- A 32-bit register, buffer cell or command word. `UInt32` and `Int32` of rule R5 are two readings of it:
`toNat` and `toInt`. Sums, differences and products of `Word` are `wrap32` of the exact ones. -/
abbrev Word := BitVec 32

/-- One byte of the source or destination space. -/
abbrev Byte := BitVec 8

/-- A buffer of `n` cells; `none` is the spec's "no value" (00_scope.md rule R8). -/
abbrev Cells (n : Nat) := Vector (Option Word) n

end Sys2Proof
end

