-- ==== Sys2Proof/Config.lean ====
section
/-! DEFINITION. The configuration record `Cfg` of 00_scope.md rule R1 as plain data, well-formed by construction
(rules R2 and R83), and the free values of the model: constants without a body.

The functions of rule R1 are written as terms: `Fn` for `Int32 -> Int32`, `KernelTerm` for one output of the 8-point
kernel, `CtTable` for a sub-table. Every function of those types is the meaning of some term (`Fn.complete`,
`KernelTerm.complete` and `CtTable.complete` in Sys2Proof/Laws/Tables.lean), so this is no restriction (log entry 2). -/

namespace Sys2Proof

/-- A function `Int32 -> Int32` of the configuration, as a term over its argument. -/
inductive Fn where
  | arg
  | lit (c : Word)
  | add (a b : Fn)
  | sub (a b : Fn)
  | mul (a b : Fn)
  /-- arithmetic right shift -/
  | sar (a : Fn) (n : Nat)
  /-- `c` where `a` equals `b`, else `d` -/
  | ifEq (a b c d : Fn)
deriving DecidableEq, Repr, Inhabited

/-- One output of the kernel `T8` as a term over its eight inputs, with a constructor for each stage the source names
(44_transform.md rule R161). -/
inductive KernelTerm where
  | input (i : Fin 8)
  | lit (c : Word)
  | add (a b : KernelTerm)
  | sub (a b : KernelTerm)
  /-- the multiply of rule R162 -/
  | mulSqrtHalf (a : KernelTerm)
  | mulC541 (a : KernelTerm)
  | mulC1307 (a : KernelTerm)
  | mulC383 (a : KernelTerm)
  | apply (f : Fn) (a : KernelTerm)
  | ifEq (a b c d : KernelTerm)
deriving DecidableEq, Repr, Inhabited

/-- An entry `(skip, extra)` of `DC_JUMP`: `skip ≤ 8` and `extra ≤ 24` (rule R1). -/
structure DcEntry where
  skip : Fin 9
  extra : Fin 25
deriving DecidableEq, Repr, Inhabited

/-- A control word (30_encoding.md rule R82) within the bounds of rule R83: a table code has `len = lenPred + 1` in
1..16 and `mag < 2^31`, an escape has `extra = extraOver8 + 8` in 8..14, and `run = runPred + 1` is at least 1. -/
inductive ControlWord where
  | terminal (len : Fin 18)
  | table (lenPred : Fin 16) (mag : BitVec 31) (runPred : Nat)
  | escape (len : Fin 18) (extraOver8 : Fin 7) (runPred : Nat)
deriving DecidableEq, Repr, Inhabited

/-- A sub-table `CT[t]`, a function of the whole 17-bit value (30_encoding.md rule R84): the control word of the first
row whose bound the value reaches, or `last`. -/
structure CtTable where
  rows : List (BitVec 17 × ControlWord)
  last : ControlWord
deriving DecidableEq, Repr, Inhabited

/-- When the position counter moves (42_entropy.md rule R122). -/
inductive RunOrder where
  | before
  | after
deriving DecidableEq, Repr, Inhabited

/-- `ROW_OUT_STRIDE`, 9 or 8 (44_transform.md rule R163). -/
inductive RowStride where
  | nine
  | eight
deriving DecidableEq, Repr, Inhabited

/-- The configuration record (00_scope.md rule R1). A value of this type is a well-formed configuration of rule R2:
an ill-formed one cannot be written. -/
structure Cfg where
  /-- `DC_JUMP`, 256 entries (43_plane.md rule R141) -/
  dcJump : Vector DcEntry 256
  /-- `CT[0..7]` (42_entropy.md rule R118) -/
  ct : Vector CtTable 8
  /-- `SCALE` (rules R117 and R123) -/
  scale : Vector Word 64
  /-- `IDX`, every entry in 0..63 (rule R122) -/
  idx : Vector (Fin 64) 64
  /-- `SIGN_NEG` (rule R120) -/
  signNeg : Bool
  /-- `ESC_VAL(v, n)` for n = 8..14, at index `n - 8` (rule R121) -/
  escVal : Vector Fn 7
  /-- `RUN_ORDER` (rule R122) -/
  runOrder : RunOrder
  /-- `T8`, one term for each output (44_transform.md rule R160) -/
  t8 : Vector KernelTerm 8
  /-- `K_SQRT_HALF` (rule R162) -/
  kSqrtHalf : BitVec 32
  /-- `MUL_C541` (rule R161) -/
  mulC541 : Fn
  /-- `MUL_C1307` (rule R161) -/
  mulC1307 : Fn
  /-- `MUL_C383` (rule R161) -/
  mulC383 : Fn
  /-- `ROW_OUT_STRIDE` (rule R163) -/
  rowOutStride : RowStride
  /-- `CC_MUL[c][j]`, rows R, G, B (45_block.md rule R176) -/
  ccMul : Vector (Vector Fn 3) 3
  /-- `CC_BIAS` (rule R176) -/
  ccBias : Word
  /-- `ALPHA_CONV` (rule R177) -/
  alphaConv : Fn
deriving DecidableEq, Repr, Inhabited

/-- The configuration of the chip: OPEN in the spec, so it has no body (log entry 1). -/
opaque Config.cfg : Cfg

/-- `REG_BASE`, where the platform places the register port: OPEN (20_memory.md rule R68). That a host address has 32 bits
and that REG_BASE may have any alignment is the model's choice (DESIGN CHOICE, log entry 24). -/
opaque Config.regBase : BitVec 32

/-- `N_CORES - 1`, the number of the platform's other instances: OPEN (00_scope.md rule R3; log entry 24). -/
opaque Config.otherCores : Nat

/-- The free 32-bit value of draw number `n` (60_exceptions.md rule R210, 10_state.md rule R37,
70_reset_and_hazards.md rule R243): nothing is known of it (log entry 29). -/
opaque Config.freeWord : Nat → BitVec 32

/-- In draw `n`, which of its possible values window byte `i` reads as, once it has changed during a session
(20_memory.md rule R60; log entry 13). -/
opaque Config.racePick : Nat → Nat → Nat

/-- In draw `n`, whether destination address `a` got the value of a command cut short by reset
(70_reset_and_hazards.md rule R227; log entry 16). -/
opaque Config.cutPick : Nat → Nat → Bool

end Sys2Proof
end

