-- ==== Sys2Proof/Syntax.lean ====
section
/-! DEFINITION. The command set CMD-1: one constructor for each row of spec/opcode_table.json
(30_encoding.md rule R73). -/

namespace Sys2Proof

/-- A plane index: 0 Luma, 1 Chroma1, 2 Chroma2, 3 Alpha (30_encoding.md rule R72). -/
abbrev Plane := Fin 4

/-- The commands. `n` is field N of BREAD (rule R71), `p` is field P (rule R72). -/
inductive Instr where
  /-- 40_control.md rule R90 -/
  | nop
  /-- 40_control.md rule R91 -/
  | srst
  /-- 41_bitreader.md rule R103 -/
  | bread (n : Nat)
  /-- 43_plane.md rule R140 -/
  | dcdec (p : Plane)
  /-- 43_plane.md rule R145 -/
  | fill (p : Plane)
  /-- 42_entropy.md rule R115 -/
  | entdec (p : Plane)
  /-- 44_transform.md rule R163 -/
  | idctr
  /-- 44_transform.md rule R164 -/
  | idctc (p : Plane)
  /-- 43_plane.md rule R146 -/
  | plane (p : Plane)
  /-- 45_block.md rule R175 -/
  | cconv
  /-- 45_block.md rule R179 -/
  | wrblk
  /-- 45_block.md rule R182 -/
  | block
  /-- 45_block.md rule R183 -/
  | image
deriving DecidableEq, Repr

/-- The assembler's mnemonic (30_encoding.md rule R78). -/
def Instr.mnemonic : Instr → String
  | .nop => "NOP"
  | .srst => "SRST"
  | .bread _ => "BREAD"
  | .dcdec _ => "DCDEC"
  | .fill _ => "FILL"
  | .entdec _ => "ENTDEC"
  | .idctr => "IDCTR"
  | .idctc _ => "IDCTC"
  | .plane _ => "PLANE"
  | .cconv => "CCONV"
  | .wrblk => "WRBLK"
  | .block => "BLOCK"
  | .image => "IMAGE"

/-- The operand of the assembler line, where the command has one (30_encoding.md rule R78). -/
def Instr.operand : Instr → Option Nat
  | .bread n => some n
  | .dcdec p => some p.val
  | .fill p => some p.val
  | .entdec p => some p.val
  | .idctc p => some p.val
  | .plane p => some p.val
  | .nop => none
  | .srst => none
  | .idctr => none
  | .cconv => none
  | .wrblk => none
  | .block => none
  | .image => none

end Sys2Proof
end

