-- ==== Sys2Proof/WellFormed.lean ====
section
/-! DEFINITION. Which commands a command word can hold (30_encoding.md rules R70 to R72, R75). -/

namespace Sys2Proof

/-- The operands fit their fields: N is a 5-bit count (rule R71). P is a 2-bit index by its type (rule R72).
A BREAD with N outside 1..24 is well-formed; it raises BAD_FIELD when it runs (rule R75). -/
def Instr.wellFormed : Instr → Bool
  | .bread n => decide (n < 32)
  | .nop => true
  | .srst => true
  | .dcdec _ => true
  | .fill _ => true
  | .entdec _ => true
  | .idctr => true
  | .idctc _ => true
  | .plane _ => true
  | .cconv => true
  | .wrblk => true
  | .block => true
  | .image => true

/-- The assembler takes the command: `BREAD n` needs `n` in 1..24 (30_encoding.md rule R78). -/
def Instr.assemblerLegal : Instr → Bool
  | .bread n => decide (1 ≤ n ∧ n ≤ 24)
  | .nop => true
  | .srst => true
  | .dcdec _ => true
  | .fill _ => true
  | .entdec _ => true
  | .idctr => true
  | .idctc _ => true
  | .plane _ => true
  | .cconv => true
  | .wrblk => true
  | .block => true
  | .image => true

end Sys2Proof
end

