-- ==== Sys2Proof/Decode.lean ====
section
/-! DEFINITION. Decoding of a command word, total, and the encoder (30_encoding.md rules R70 to R75). -/

namespace Sys2Proof

/-- Why a command word is illegal (30_encoding.md rule R74). Both raise ILLEGAL_CMD. -/
inductive DecodeError where
  /-- OP is in 0x0D..0xFF. -/
  | illegalOp
  /-- A bit outside OP and the row's own fields is 1. -/
  | reservedBits
deriving DecidableEq, Repr

/-- OP, bits [7:0] (rule R70). -/
def fieldOp (c : Word) : Nat := (c.extractLsb' 0 8).toNat

/-- N, bits [12:8] (rule R71). -/
def fieldN (c : Word) : Nat := (c.extractLsb' 8 5).toNat

/-- P, bits [17:16] (rule R72). -/
def fieldP (c : Word) : Plane := (c.extractLsb' 16 2).toFin

/-- A row without operands, mask 0xFFFFFFFF (rule R73). -/
def decodePlain (c : Word) (i : Instr) : Except DecodeError Instr :=
  if c &&& 0xFFFFFF00#32 = 0#32 then .ok i else .error .reservedBits

/-- The row of BREAD, mask 0xFFFFE0FF (rule R73). -/
def decodeN (c : Word) (f : Nat → Instr) : Except DecodeError Instr :=
  if c &&& 0xFFFFE000#32 = 0#32 then .ok (f (fieldN c)) else .error .reservedBits

/-- A row with field P, mask 0xFFFCFFFF (rule R73). -/
def decodeP (c : Word) (f : Plane → Instr) : Except DecodeError Instr :=
  if c &&& 0xFFFCFF00#32 = 0#32 then .ok (f (fieldP c)) else .error .reservedBits

/-- The decoder: the row is selected by OP alone, then its reserved bits are checked (rules R73 and R74). -/
def decode (c : Word) : Except DecodeError Instr :=
  match fieldOp c with
  | 0x00 => decodePlain c .nop
  | 0x01 => decodePlain c .srst
  | 0x02 => decodeN c .bread
  | 0x03 => decodeP c .dcdec
  | 0x04 => decodeP c .fill
  | 0x05 => decodeP c .entdec
  | 0x06 => decodePlain c .idctr
  | 0x07 => decodeP c .idctc
  | 0x08 => decodeP c .plane
  | 0x09 => decodePlain c .cconv
  | 0x0A => decodePlain c .wrblk
  | 0x0B => decodePlain c .block
  | 0x0C => decodePlain c .image
  | _ => .error .illegalOp

/-- The instruction read from `nbits` table bits `w`. A command is exactly one 32-bit word (rule R76), so a longer
row does not exist. -/
def decodeTableWord (nbits w : Nat) : Option Instr :=
  if nbits ≤ 32 then (decode (BitVec.ofNat 32 (w % 2 ^ nbits))).toOption else none

/-- `OP | N << 8 | P << 16` (30_encoding.md rule R78). -/
def commandWord (op n : Nat) (p : Plane) : Word :=
  BitVec.ofNat 32 op ||| BitVec.ofNat 32 n <<< 8 ||| BitVec.ofNat 32 p.val <<< 16

/-- The encoder (rules R70, R73 and R78). -/
def encode : Instr → Word
  | .nop => commandWord 0x00 0 0
  | .srst => commandWord 0x01 0 0
  | .bread n => commandWord 0x02 n 0
  | .dcdec p => commandWord 0x03 0 p
  | .fill p => commandWord 0x04 0 p
  | .entdec p => commandWord 0x05 0 p
  | .idctr => commandWord 0x06 0 0
  | .idctc p => commandWord 0x07 0 p
  | .plane p => commandWord 0x08 0 p
  | .cconv => commandWord 0x09 0 0
  | .wrblk => commandWord 0x0A 0 0
  | .block => commandWord 0x0B 0 0
  | .image => commandWord 0x0C 0 0

end Sys2Proof
end

