-- ==== Sys2Proof/Machine/State.lean ====
section
/-! DEFINITION. The state of the core (10_state.md), the outcomes a command can have, the model's faults and refusals,
and the state after reset (10_state.md rule R41). -/

namespace Sys2Proof.Machine

/-- Why the machine stops with a fault: a command reads a buffer cell that holds no value (60_exceptions.md rule R212,
00_scope.md rule R8). All four are safe: the hardware would go on with unknown bits. -/
inductive Fault where
  /-- IDCTR, PLANE, BLOCK or IMAGE reads COEF. Safe. -/
  | coefNoValue
  /-- IDCTC, PLANE, BLOCK or IMAGE reads TMP, under `ROW_OUT_STRIDE = 8` after IDCTR too (rule R166). Safe. -/
  | tmpNoValue
  /-- CCONV, BLOCK or IMAGE reads PLANE. Safe. -/
  | planeNoValue
  /-- WRBLK, BLOCK or IMAGE reads PIX. Safe. -/
  | pixNoValue
deriving DecidableEq, Repr

/-- Why the machine has no step. -/
inductive Refusal where
  /-- exec's arm of an instruction without a meaning. No arm raises it. Safe. -/
  | notModelled (mnemonic : String)
  /-- A port access of another width than 32 bits, or at an offset that is no multiple of 4
  (20_memory.md rule R69). Safe. -/
  | portAccess
deriving DecidableEq, Repr

/-- The error codes 0 to 5 (60_exceptions.md rule R201). Codes 6 to 15 are never raised, so they have no name. -/
inductive ErrCode where
  | none
  | illegalCmd
  | badField
  | noCode
  | posUnderflow
  | imgGeom
deriving DecidableEq, Repr

/-- CTRL (10_state.md rule R22). -/
structure Ctrl where
  ie : Bool
  alpha : Bool
deriving DecidableEq, Repr

/-- STATUS (10_state.md rule R23). -/
structure Status where
  busy : Bool
  done : Bool
  err : Bool
  pastEnd : Bool
  fill : Bool
  ovr : Bool
  code : ErrCode
deriving DecidableEq, Repr

/-- A byte-addressed space (20_memory.md rules R50 and R62): strictly rising addresses, no cell that holds the byte an
unlisted address reads as. `Memory.wf` says so. -/
abbrev Memory := List Host.Cell

/-- What the host or the platform does to the core. -/
inductive HostOp where
  /-- a write of `bytes` bytes of `v` at port offset `off` (20_memory.md rule R69) -/
  | write (off : BitVec 12) (bytes : Nat) (v : Word)
  /-- a read of `bytes` bytes at port offset `off` -/
  | read (off : BitVec 12) (bytes : Nat)
  /-- the source byte at address `a` changes to `v` (20_memory.md rule R60) -/
  | srcWrite (a : Word) (v : Byte)
  /-- the reset input is asserted or released (70_reset_and_hazards.md rule R225) -/
  | reset (asserted : Bool)
deriving DecidableEq, Repr

/-- A host action still to come. `early` says that, if a command is running, the action lands before the command ends
(log entry 4). -/
structure Input where
  op : HostOp
  early : Bool
deriving DecidableEq, Repr

/-- The state of the core. -/
@[ext]
structure State where
  /-- CTRL (R22) -/
  ctrl : Ctrl
  /-- STATUS (R23) -/
  status : Status
  /-- CMD, the last command word accepted (R24) -/
  cmd : Word
  /-- ARG0 (R25) -/
  arg0 : Word
  /-- RESULT (R26) -/
  result : Word
  /-- POS (R28) -/
  pos : Word
  /-- WIN_ORG (R29) -/
  winOrg : Word
  /-- WIN_LEN (R29) -/
  winLen : Word
  /-- IMG_W (R30) -/
  imgW : BitVec 16
  /-- IMG_H (R30) -/
  imgH : BitVec 16
  /-- DST_BASE (R30) -/
  dstBase : Word
  /-- BLK_X (R30) -/
  blkX : BitVec 13
  /-- BLK_Y (R30) -/
  blkY : BitVec 13
  /-- ERRINFO (R32) -/
  errinfo : Word
  /-- DC0..DC3 (R27) -/
  dc : Vector Word 4
  /-- COEF (R33) -/
  coef : Cells 64
  /-- TMP (R34) -/
  tmp : Cells 72
  /-- PLANE[p] (R35) -/
  plane : Vector (Cells 64) 4
  /-- PIX (R36) -/
  pix : Cells 64
  /-- PAGE_VALID (R38) -/
  pageValid : Bool
  /-- PAGE_BASE, a word index relative to the window origin (R38) -/
  pageBase : Nat
  /-- PAGE (R38) -/
  page : Vector Word 256
  /-- Cfg, which behaves as ROM (R1, R40; log entry 1) -/
  rom : Cfg
  /-- the source space (20_memory.md rule R50) -/
  src : Memory
  /-- the destination space (20_memory.md rule R62) -/
  dst : Memory
  /-- the reset input is asserted (70_reset_and_hazards.md rule R225) -/
  inReset : Bool
  /-- the model's own: the host actions still to come (log entry 4) -/
  inputs : List Input
  /-- the model's own: the word the last port read returned (log entry 21) -/
  portData : Word
  /-- the model's own: STATUS bits that a write made while BUSY clears after the engine's update (R95, log entry 20) -/
  lateW1C : Word
  /-- the model's own: a write discarded while BUSY sets OVR after the engine's update too (R95, log entry 20) -/
  lateOvr : Bool
  /-- the model's own: how many free values were drawn (log entry 29) -/
  draws : Nat
  /-- the model's own: how many source bytes were read by refills (20_memory.md rule R61, log entry 22) -/
  memReads : Nat
  /-- the model's own: source bytes that changed during the session, each with another value it may read as
  (20_memory.md rule R60, log entry 13) -/
  raced : List Host.Cell
  /-- the model's own: a command was accepted since the window was set or SRST ran (R60, R241, log entry 15) -/
  session : Bool
deriving DecidableEq, Repr

/-- How the work of a command ends, with the state it has reached: it is done, it raises an error with its ERRINFO
(60_exceptions.md rule R202), or it reads a cell without a value (rule R212). -/
inductive Res where
  | ok (s : State)
  | err (code : ErrCode) (info : Word) (s : State)
  | fault (f : Fault) (s : State)
deriving DecidableEq, Repr

/-- Which registers and buffers a command could write besides POS, RESULT, PAST_END and COEF, which every command that
can raise a data error could write (60_exceptions.md rule R210; log entry 11). -/
structure Writes where
  /-- DCp -/
  dc : Plane → Bool
  /-- STATUS.FILL -/
  fill : Bool
  /-- BLK_X and BLK_Y -/
  blk : Bool
  /-- TMP -/
  tmp : Bool
  /-- PLANE[p] -/
  plane : Plane → Bool
  /-- PIX -/
  pix : Bool

/-- The core right after reset (10_state.md rule R41): every register 0, the page invalid, the buffers without values,
nothing listed in the memories. The configuration is the chip's (rule R40). -/
def State.reset : State where
  ctrl := { ie := false, alpha := false }
  status := { busy := false, done := false, err := false, pastEnd := false, fill := false, ovr := false,
              code := .none }
  cmd := 0
  arg0 := 0
  result := 0
  pos := 0
  winOrg := 0
  winLen := 0
  imgW := 0
  imgH := 0
  dstBase := 0
  blkX := 0
  blkY := 0
  errinfo := 0
  dc := Vector.replicate 4 0
  coef := Vector.replicate 64 none
  tmp := Vector.replicate 72 none
  plane := Vector.replicate 4 (Vector.replicate 64 none)
  pix := Vector.replicate 64 none
  pageValid := false
  pageBase := 0
  page := Vector.replicate 256 0
  rom := Config.cfg
  src := []
  dst := []
  inReset := false
  inputs := []
  portData := 0
  lateW1C := 0
  lateOvr := false
  draws := 0
  memReads := 0
  raced := []
  session := false

end Sys2Proof.Machine
end

