-- ==== Sys2Proof/Machine/Flags.lean ====
section
/-! DEFINITION. STATUS and CTRL: their words, the write-1-to-clear bits, PAST_END, completion, raising an error, the
interrupt output (10_state.md rules R22 and R23, 60_exceptions.md rules R202 and R211). -/

namespace Sys2Proof.Machine

/-- ERRCODE, bits [11:8] of STATUS (60_exceptions.md rule R201). -/
def ErrCode.toBits : ErrCode → BitVec 4
  | .none => 0
  | .illegalCmd => 1
  | .badField => 2
  | .noCode => 3
  | .posUnderflow => 4
  | .imgGeom => 5

/-- The error is raised by the stream data, after the command has changed state (60_exceptions.md rule R210). -/
def ErrCode.isData : ErrCode → Bool
  | .noCode => true
  | .posUnderflow => true
  | .none => false
  | .illegalCmd => false
  | .badField => false
  | .imgGeom => false

/-- One bit at place `n` of a register word. -/
def bitAt (b : Bool) (n : Nat) : Word := if b then 1#32 <<< n else 0#32

/-- STATUS as a word; the reserved bits [7:6] and [31:12] read 0 (10_state.md rule R23). -/
def Status.word (t : Status) : Word :=
  bitAt t.busy 0 ||| bitAt t.done 1 ||| bitAt t.err 2 ||| bitAt t.pastEnd 3 ||| bitAt t.fill 4 ||| bitAt t.ovr 5
    ||| t.code.toBits.setWidth 32 <<< 8

/-- CTRL as a word (10_state.md rule R22). -/
def Ctrl.word (c : Ctrl) : Word := bitAt c.ie 0 ||| bitAt c.alpha 1

/-- A write of CTRL stores its defined bits only (10_state.md rules R21 and R22). -/
def Ctrl.ofWord (v : Word) : Ctrl := { ie := v.getLsbD 0, alpha := v.getLsbD 1 }

/-- A write of STATUS: a 1 clears DONE, ERR, PAST_END or OVR, and clearing ERR clears ERRCODE
(10_state.md rule R23). -/
def Status.w1c (t : Status) (v : Word) : Status :=
  { t with
    done := t.done && !v.getLsbD 1
    err := t.err && !v.getLsbD 2
    code := if v.getLsbD 2 then .none else t.code
    pastEnd := t.pastEnd && !v.getLsbD 3
    ovr := t.ovr && !v.getLsbD 5 }

/-- The bit count passes the window end, computed in Nat (20_memory.md rule R55). -/
def State.passesEnd (s : State) (bits : Nat) : Bool := decide (8 * s.winLen.toNat < bits)

/-- STATUS.PAST_END becomes 1 if `b`, and else stays (20_memory.md rule R55: sticky). -/
def State.notePastEnd (s : State) (b : Bool) : State :=
  { s with status := { s.status with pastEnd := s.status.pastEnd || b } }

/-- A command completes without an error (40_control.md rule R92). -/
def State.complete (s : State) : State :=
  { s with status := { s.status with done := true, busy := false } }

/-- What raising an error records (60_exceptions.md rule R202); DONE stays as it is, 0 since acceptance. -/
def State.raise (s : State) (code : ErrCode) (info : Word) : State :=
  { s with status := { s.status with err := true, code := code, busy := false }, errinfo := info }

/-- The host's return from an error by a write of STATUS with bit 2 set (60_exceptions.md rule R215); the other return
is SRST. -/
def State.clearError (s : State) : State := { s with status := s.status.w1c 0x00000004 }

/-- IRQ (60_exceptions.md rule R211). -/
def State.irq (s : State) : Bool := s.ctrl.ie && (s.status.done || s.status.err)

end Sys2Proof.Machine
end

