-- ==== Sys2Proof/Machine/Tables.lean ====
section
/-! DEFINITION. The configuration's tables and functions as the commands use them (00_scope.md rule R1,
30_encoding.md rules R82 to R84, 44_transform.md rules R160 to R162). -/

namespace Sys2Proof.Machine

/-- A buffer given cell by cell. -/
def tabList {α : Type} {n : Nat} (f : Fin n → α) : (m : Nat) → m ≤ n → List α
  | 0, _ => []
  | m + 1, h => f ⟨n - (m + 1), by omega⟩ :: tabList f m (by omega)

theorem tabList_length {α : Type} {n : Nat} (f : Fin n → α) (m : Nat) (h : m ≤ n) :
    (tabList f m h).length = m := by
  induction m with
  | zero => rfl
  | succ m ih => simp [tabList, ih]

/-- The vector whose cell `i` is `f i`. -/
def tab {α : Type} {n : Nat} (f : Fin n → α) : Vector α n :=
  ⟨(tabList f n (Nat.le_refl n)).toArray, by simp [tabList_length]⟩

/-- The value of a function term. Every operation wraps to 32 bits; the shift is arithmetic
(00_scope.md rule R5). -/
def evalFn (x : Word) : Fn → Word
  | .arg => x
  | .lit c => c
  | .add a b => evalFn x a + evalFn x b
  | .sub a b => evalFn x a - evalFn x b
  | .mul a b => evalFn x a * evalFn x b
  | .sar a n => (evalFn x a).sshiftRight n
  | .ifEq a b c d => if evalFn x a = evalFn x b then evalFn x c else evalFn x d

/-- `MulSqrtHalf(v) = floor(v · K / 2^32)` (44_transform.md rule R162), the exact product narrowed at the end. -/
def mulSqrtHalf (k v : Word) : Word := BitVec.ofInt 32 (v.toInt * (k.toNat : Int) / 4294967296)

/-- The value of one kernel output. Sums wrap to 32 bits (44_transform.md rule R160). -/
def evalKernel (c : Cfg) (x : Vector Word 8) : KernelTerm → Word
  | .input i => x[i]
  | .lit v => v
  | .add a b => evalKernel c x a + evalKernel c x b
  | .sub a b => evalKernel c x a - evalKernel c x b
  | .mulSqrtHalf a => mulSqrtHalf c.kSqrtHalf (evalKernel c x a)
  | .mulC541 a => evalFn (evalKernel c x a) c.mulC541
  | .mulC1307 a => evalFn (evalKernel c x a) c.mulC1307
  | .mulC383 a => evalFn (evalKernel c x a) c.mulC383
  | .apply f a => evalFn (evalKernel c x a) f
  | .ifEq a b t e => if evalKernel c x a = evalKernel c x b then evalKernel c x t else evalKernel c x e

/-- The 8-point kernel `T8` (44_transform.md rule R160). -/
def t8 (c : Cfg) (x : Vector Word 8) : Vector Word 8 := tab fun k => evalKernel c x c.t8[k]

/-- The class of a 17-bit peek: the first threshold it reaches; none below 0x20 (30_encoding.md rule R84). -/
def classOf (r : BitVec 17) : Option (Fin 8) :=
  if r.toNat ≥ 0x8000 then some 0
  else if r.toNat ≥ 0x800 then some 1
  else if r.toNat ≥ 0x400 then some 2
  else if r.toNat ≥ 0x200 then some 3
  else if r.toNat ≥ 0x100 then some 4
  else if r.toNat ≥ 0x80 then some 5
  else if r.toNat ≥ 0x40 then some 6
  else if r.toNat ≥ 0x20 then some 7
  else none

/-- The first row whose bound `r` reaches, or the last control word. -/
def lookupRows (last : ControlWord) (r : BitVec 17) : List (BitVec 17 × ControlWord) → ControlWord
  | [] => last
  | (lo, cw) :: rest => if lo.toNat ≤ r.toNat then cw else lookupRows last r rest

/-- `CT[t](r)` (42_entropy.md rule R118). -/
def controlWord (c : Cfg) (t : Fin 8) (r : BitVec 17) : ControlWord := lookupRows c.ct[t].last r c.ct[t].rows

/-- `DC_JUMP[v8]` (43_plane.md rule R141). -/
def dcEntry (c : Cfg) (v8 : BitVec 8) : DcEntry := c.dcJump[v8.toFin]

/-- `ESC_VAL(v, extraOver8 + 8)` (42_entropy.md rule R121). -/
def escValue (c : Cfg) (extraOver8 : Fin 7) (v : Word) : Int := (evalFn v c.escVal[extraOver8]).toInt

/-- `IDX[k]` for `k` in 0..63, where the callers keep it (42_entropy.md rule R122). -/
def idxAt (c : Cfg) (k : Int) : Fin 64 := c.idx[k.toNat % 64]'(Nat.mod_lt _ (by decide))

/-- `ROW_OUT_STRIDE` (44_transform.md rule R163). -/
def strideOf (c : Cfg) : Nat :=
  match c.rowOutStride with
  | .nine => 9
  | .eight => 8

/-- `CC_MUL[ch][j](v)`, channels R, G, B at 0, 1, 2 (45_block.md rule R176). -/
def ccMul (c : Cfg) (ch j : Fin 3) (v : Word) : Word := evalFn v c.ccMul[ch][j]

/-- `ALPHA_CONV(v)` (45_block.md rule R177). -/
def alphaConv (c : Cfg) (v : Word) : Word := evalFn v c.alphaConv

/-- The DC delta of an `n`-bit field `v` (43_plane.md rule R142): `v - (2^n - 1)` when the top bit is clear. -/
def dcDelta (n v : Nat) : Int :=
  if n = 0 then 0 else if v < 2 ^ (n - 1) then (v : Int) - (2 ^ n - 1) else v

/-- `clamp(v, 0, 255)` as a byte (00_scope.md rule R5). -/
def clampByte (v : Int) : Byte := BitVec.ofInt 8 (min (max v 0) 255)

end Sys2Proof.Machine
end

