-- ==== Sys2Proof/Machine/Ops.lean ====
section
/-! DEFINITION. The shared operations: the two memories, the bit reader with its page (20_memory.md,
41_bitreader.md rule R101), the cursor, buffer reads, and the error mechanism (60_exceptions.md rules R202 and
R210). -/

namespace Sys2Proof.Machine

/-! ### Byte memories -/

/-- What an address that is not listed reads as, in both spaces (log entries 7 and 8). -/
def unlisted : Byte := 0

/-- The byte at address `a`. -/
def Memory.read : Memory → Nat → Byte
  | [], _ => unlisted
  | (b, v) :: rest, a => if a = b then v else Memory.read rest a

/-- The memory with byte `v` at address `a`, in the canonical form. -/
def Memory.write : Memory → Nat → Byte → Memory
  | [], a, v => if v = unlisted then [] else [(a, v)]
  | (b, w) :: rest, a, v =>
    if a < b then (if v = unlisted then (b, w) :: rest else (a, v) :: (b, w) :: rest)
    else if a = b then (if v = unlisted then rest else (a, v) :: rest)
    else (b, w) :: Memory.write rest a v

/-- The canonical form above a bound: addresses at least `lo`, strictly rising, below 2^32, and no cell that holds
the unlisted byte. -/
def Memory.wfFrom : Nat → Memory → Bool
  | _, [] => true
  | lo, (a, v) :: rest => decide (lo ≤ a) && decide (a < 2 ^ 32) && decide (v ≠ unlisted) && Memory.wfFrom (a + 1) rest

/-- The canonical form. -/
def Memory.wf (m : Memory) : Bool := Memory.wfFrom 0 m

/-! ### The source window and the page -/

/-- The source address of window byte `i`, reduced modulo 2^32 (20_memory.md rule R51). -/
def State.windowAddr (s : State) (i : Nat) : Word := s.winOrg + BitVec.ofNat 32 i

/-- `SrcByte(i)` (rule R51): 0 at or past the window end (rule R54). -/
def State.srcByte (s : State) (i : Nat) : Byte :=
  if i < s.winLen.toNat then s.src.read (s.windowAddr i).toNat else 0

/-- `Word(w)`, big-endian (rule R53). -/
def State.wordAt (s : State) (w : Nat) : Word :=
  s.srcByte (4 * w) ++ s.srcByte (4 * w + 1) ++ s.srcByte (4 * w + 2) ++ s.srcByte (4 * w + 3)

/-- Words `w` and `w + 1` are in the page (rule R57). -/
def State.pageHit (s : State) (w : Nat) : Bool :=
  s.pageValid && decide (s.pageBase ≤ w) && decide (w + 1 ≤ s.pageBase + 255)

/-- The refill at word `w` (rule R57); only the window bytes below WIN_LEN are read. -/
def State.refill (s : State) (w : Nat) : State :=
  { s with
    pageBase := w
    page := tab fun j => s.wordAt (w + j.val)
    pageValid := true
    memReads := s.memReads + min (s.winLen.toNat - 4 * w) 1024 }

/-- Page lookup (rule R57). -/
def State.lookupPage (s : State) (w : Nat) : State := if s.pageHit w then s else s.refill w

/-- The page's copy of word `w`, for a word the lookup has put in the page. -/
def State.pageWord (s : State) (w : Nat) : Word :=
  s.page[(w - s.pageBase) % 256]'(Nat.mod_lt _ (by decide))

/-- The other values that the source byte at address `a` may read as (rule R60). -/
def State.raceValues (s : State) (a : Nat) : List Byte := (s.raced.filter fun c => c.1 == a).map Prod.snd

/-- Window byte `i` as a read sees it when the page holds `b`: an affected byte is its page copy, its byte in the
source space now, or any value it had during the session, by a free choice (rule R60; log entry 13). -/
def State.racedByte (s : State) (i : Nat) (b : Byte) : Byte :=
  if i < s.winLen.toNat then
    let a := (s.windowAddr i).toNat
    match s.raceValues a with
    | [] => b
    | v :: vs =>
      let candidates := b :: s.src.read a :: v :: vs
      candidates.getD (Config.racePick s.draws i % candidates.length) b
  else b

/-- Word `w` as a read sees it when the page holds `x`. -/
def State.racedWord (s : State) (w : Nat) (x : Word) : Word :=
  if s.raced.isEmpty then x
  else
    s.racedByte (4 * w) (x.extractLsb' 24 8) ++ s.racedByte (4 * w + 1) (x.extractLsb' 16 8)
      ++ s.racedByte (4 * w + 2) (x.extractLsb' 8 8) ++ s.racedByte (4 * w + 3) (x.extractLsb' 0 8)

/-! ### The bit reader -/

/-- `(X >> (64 - b - n)) & (2^n - 1)` with `X = hi ++ lo` (41_bitreader.md rule R101). -/
def extractBits (hi lo : Word) (b n : Nat) : Word :=
  ((hi ++ lo) >>> (64 - b - n)).setWidth 32 &&& BitVec.ofNat 32 (2 ^ n - 1)

/-- The word index of a bit offset (rule R101). -/
def wordOf (off : Word) : Nat := off.toNat / 32

/-- The value of `BitRead(off, n)` (rule R101). -/
def State.readBits (s : State) (off : Word) (n : Nat) : Word :=
  let t := s.lookupPage (wordOf off)
  extractBits (t.racedWord (wordOf off) (t.pageWord (wordOf off)))
    (t.racedWord (wordOf off + 1) (t.pageWord (wordOf off + 1))) (off.toNat % 32) n

/-- The state after `BitRead(off, n)`: the page may be refilled (rule R57), and a read of a session with changed
source bytes counts as a draw. POS does not move (rule R100). -/
def State.afterRead (s : State) (off : Word) : State :=
  let t := s.lookupPage (wordOf off)
  if t.raced.isEmpty then t else { t with draws := t.draws + 1 }

/-- `consume(c)` (42_entropy.md rule R115): POS advances modulo 2^32, and PAST_END is set if it passes the window. -/
def State.consume (s : State) (c : Nat) : State :=
  { s with pos := s.pos + BitVec.ofNat 32 c }.notePastEnd (s.passesEnd (s.pos + BitVec.ofNat 32 c).toNat)

/-- PAGE_VALID <- 0 (20_memory.md rule R59). -/
def State.invalidatePage (s : State) : State := { s with pageValid := false }

/-- The page is invalid and no source byte is affected any more: SRST, a write of WIN_ORG or WIN_LEN
(20_memory.md rules R59 and R60, 70_reset_and_hazards.md rule R241; log entry 15). -/
def State.endSession (s : State) : State := { s with pageValid := false, raced := [], session := false }

/-- Address `a` lies in the window `[WIN_ORG, WIN_ORG + WIN_LEN)` (70_reset_and_hazards.md rule R241). -/
def State.inWindow (s : State) (a : Word) : Bool := decide ((a - s.winOrg).toNat < s.winLen.toNat)

/-- The host or the platform writes a source byte (20_memory.md rule R60). A window byte that changes within a session is
affected: the value it had is kept beside the new one (log entry 13). -/
def State.hostSrcWrite (s : State) (a : Word) (v : Byte) : State :=
  if v = s.src.read a.toNat then s
  else
    { s with
      src := s.src.write a.toNat v
      raced := if s.session && s.inWindow a then s.raced ++ [(a.toNat, s.src.read a.toNat)] else s.raced }

/-! ### The destination space -/

/-- One byte of a `MemWrite`. A destination byte inside the window affects the source byte of that address
(rule R241; log entry 14). -/
def State.storeByte (s : State) (a : Word) (v : Byte) : State :=
  { s with
    dst := s.dst.write a.toNat v
    raced := if s.inWindow a then s.raced ++ [(a.toNat, v)] else s.raced }

/-- `MemWrite(a, 4, v)`: four bytes, least significant first, each address modulo 2^32 (20_memory.md rule R62). -/
def State.memWrite (s : State) (a v : Word) : State :=
  (((s.storeByte a (v.extractLsb' 0 8)).storeByte (a + 1) (v.extractLsb' 8 8)).storeByte (a + 2)
    (v.extractLsb' 16 8)).storeByte (a + 3) (v.extractLsb' 24 8)

/-! ### Registers and buffers -/

/-- `x[DCp] <- v` (10_state.md rule R27). -/
def State.setDc (s : State) (p : Plane) (v : Word) : State := { s with dc := s.dc.set p v }

/-- `PLANE[p][*] <- b` (10_state.md rule R35). -/
def State.setPlane (s : State) (p : Plane) (b : Cells 64) : State := { s with plane := s.plane.set p b }

/-- `COEF[i] <- v` (10_state.md rule R33). -/
def State.setCoef (s : State) (i : Fin 64) (v : Word) : State := { s with coef := s.coef.set i (some v) }

/-- The values of a buffer, if every cell holds one (60_exceptions.md rule R212). -/
def cellValues {n : Nat} (b : Cells n) : Option (Vector Word n) :=
  if b.toList.all Option.isSome then some (tab fun i => b[i].getD 0) else none

/-! ### Running a command -/

/-- The next step of a command, unless it has stopped. -/
def Res.bind : Res → (State → Res) → Res
  | .ok s, f => f s
  | .err code info s, _ => .err code info s
  | .fault f s, _ => .fault f s

/-- The state a command has reached. -/
def Res.state : Res → State
  | .ok s => s
  | .err _ _ s => s
  | .fault _ s => s

/-- What a data error leaves (60_exceptions.md rule R210): the registers the command could write hold free values, the
buffers it could write hold no value, PAGE_VALID may be 0 or 1. The destination space keeps the writes made. -/
def State.clobber (s : State) (w : Writes) : State :=
  { s with
    pos := Config.freeWord s.draws
    result := Config.freeWord (s.draws + 1)
    dc := tab fun p => if w.dc p then Config.freeWord (s.draws + 2 + p.val) else s.dc[p]
    blkX := if w.blk then (Config.freeWord (s.draws + 6)).setWidth 13 else s.blkX
    blkY := if w.blk then (Config.freeWord (s.draws + 7)).setWidth 13 else s.blkY
    status := { s.status with
      fill := if w.fill then (Config.freeWord (s.draws + 8)).getLsbD 0 else s.status.fill
      pastEnd := (Config.freeWord (s.draws + 9)).getLsbD 0 }
    pageValid := s.pageValid && (Config.freeWord (s.draws + 10)).getLsbD 0
    coef := Vector.replicate 64 none
    tmp := if w.tmp then Vector.replicate 72 none else s.tmp
    plane := tab fun p => if w.plane p then Vector.replicate 64 none else s.plane[p]
    pix := if w.pix then Vector.replicate 64 none else s.pix
    draws := s.draws + 11 }

/-- TAKING AN ERROR (60_exceptions.md rule R202): a data error leaves the state of rule R210, every other error is
raised before any effect; then STATUS and ERRINFO record it and the engine goes idle. Nothing is saved, so the return
(rule R215) is `State.clearError` or SRST. -/
def State.takeError (s : State) (code : ErrCode) (info : Word) (w : Writes) : State :=
  (if code.isData then s.clobber w else s).raise code info

/-- The end of a command (40_control.md rule R92). -/
def Res.finish (r : Res) (w : Writes) : Host.Outcome State Fault Refusal :=
  match r with
  | .ok s => .next s.complete
  | .err code info s => .next (s.takeError code info w)
  | .fault f _ => .fault f

/-- The writes of a command that cannot raise a data error. -/
def noWrites : Writes :=
  { dc := fun _ => false, fill := false, blk := false, tmp := false, plane := fun _ => false, pix := false }

/-- The command word the engine runs: the word recorded in CMD (10_state.md rule R24). -/
def State.fetchWord (s : State) : Word := s.cmd

/-- A STATUS write made while BUSY, in the order after the engine's update, and the OVR of a write discarded while BUSY
(40_control.md rule R95; log entry 20). -/
def State.settle (s : State) : State :=
  { s with
    status := { s.status.w1c s.lateW1C with ovr := (s.status.w1c s.lateW1C).ovr || s.lateOvr }
    lateW1C := 0
    lateOvr := false }

end Sys2Proof.Machine
end

