-- ==== Sys2Proof/Machine/Operands.lean ====
section
/-! DEFINITION. The operands of the commands: the count N, the plane P, the geometry of the destination image, and
the buffer cells each unit reads (30_encoding.md rule R77, 45_block.md rules R179 to R184). -/

namespace Sys2Proof.Machine

/-- BREAD accepts N in 1..24 (30_encoding.md rule R71). -/
def legalCount (n : Nat) : Bool := decide (1 ≤ n) && decide (n ≤ 24)

/-- The accumulator of plane P (10_state.md rule R27). -/
def State.dcOf (s : State) (p : Plane) : Word := s.dc[p]

/-- `ceil(W / 8)`. -/
def ceilDiv8 (w : Nat) : Nat := (w + 7) / 8

/-- Blocks in a row of the image (45_block.md rule R179). -/
def State.nbx (s : State) : Nat := ceilDiv8 s.imgW.toNat

/-- Block rows of the image. -/
def State.nby (s : State) : Nat := ceilDiv8 s.imgH.toNat

/-- IMG_W = 0 or IMG_H = 0 (45_block.md rule R184). -/
def State.emptyImage (s : State) : Bool := decide (s.imgW.toNat = 0) || decide (s.imgH.toNat = 0)

/-- The tile lies outside the image (45_block.md rule R184). -/
def State.tileOutside (s : State) : Bool := decide (s.nbx ≤ s.blkX.toNat) || decide (s.nby ≤ s.blkY.toNat)

/-- The geometry word of ERRINFO (60_exceptions.md rule R209). -/
def State.geomInfo (s : State) : Word :=
  if s.emptyImage then s.imgH.setWidth 32 <<< 16 ||| s.imgW.setWidth 32
  else 0x80000000#32 ||| s.blkY.setWidth 32 <<< 16 ||| s.blkX.setWidth 32

/-- The image column of tile column `x` (45_block.md rule R179). -/
def State.pixelX (s : State) (x : Nat) : Nat := 8 * s.blkX.toNat + x

/-- The image row of tile row `y`. -/
def State.pixelY (s : State) (y : Nat) : Nat := 8 * s.blkY.toNat + y

/-- Tile pixel `i` = 8y + x lies inside the image (45_block.md rule R180). -/
def State.pixelInside (s : State) (i : Fin 64) : Bool :=
  decide (s.pixelX (i.val % 8) < s.imgW.toNat) && decide (s.pixelY (i.val / 8) < s.imgH.toNat)

/-- The destination address of tile pixel `i`, `DST_BASE + 4·(py·IMG_W + px)` modulo 2^32
(45_block.md rule R180). -/
def State.pixelAddr (s : State) (i : Fin 64) : Word :=
  s.dstBase + BitVec.ofNat 32 (4 * (s.pixelY (i.val / 8) * s.imgW.toNat + s.pixelX (i.val % 8)))

/-- Row `r` of a block of 64 values (10_state.md rule R33). -/
def rowOf (b : Vector Word 64) (r : Fin 8) : Vector Word 8 := tab fun j => b[8 * r.val + j.val]'(by omega)

/-- The 64 cells `TMP[c + 9j]` that IDCTC reads, cell `8c + j` of the result (44_transform.md rule R164). -/
def columnCells (t : Cells 72) : Cells 64 :=
  tab fun i => t[i.val / 8 + 9 * (i.val % 8)]'(by omega)

/-- The alpha samples CCONV reads: none of PLANE[3] when CTRL.ALPHA = 0 (45_block.md rule R177). -/
def State.alphaBytes (s : State) : Option (Vector Byte 64) :=
  if s.ctrl.alpha then
    (cellValues s.plane[3]).map fun a => tab fun i => clampByte (alphaConv s.rom a[i]).toInt
  else some (Vector.replicate 64 255)

end Sys2Proof.Machine
end

