-- ==== Sys2Proof/Machine/BitReader.lean ====
section
/-! DEFINITION. BREAD (41_bitreader.md rule R103). -/

namespace Sys2Proof.Machine

/-- The work of BREAD: `RESULT <- BitRead(ARG0, N)`, and PAST_END when the read passes the window end
(41_bitreader.md rule R103). A count outside 1..24 is BAD_FIELD before any read (60_exceptions.md rule R204). -/
def bread (n : Nat) (s : State) : Res :=
  if legalCount n then
    .ok ({ s.afterRead s.arg0 with result := s.readBits s.arg0 n }.notePastEnd (s.passesEnd (s.arg0.toNat + n)))
  else .err .badField s.cmd s

/-- BREAD (41_bitreader.md rule R103). -/
def execBread (n : Nat) (s : State) : Host.Outcome State Fault Refusal := (bread n s).finish noWrites

end Sys2Proof.Machine
end

