-- ==== Sys2Proof/Machine/Entropy.lean ====
section
/-! DEFINITION. ENTDEC, the entropy block decoder (42_entropy.md). -/

namespace Sys2Proof.Machine

/-- `COEF[0] <- wrap32(DC_P · SCALE[0])`, the others 0 (42_entropy.md rule R117). -/
def State.initCoef (s : State) (p : Plane) : State :=
  { s with coef := (Vector.replicate 64 (some 0#32)).set 0 (some (s.dcOf p * s.rom.scale[0])) }

/-- `next_index(run)` (42_entropy.md rule R122): the output index and the new counter, or none where the lookup would
be below 0. -/
def nextIndex (c : Cfg) (k : Int) (run : Nat) : Option (Fin 64 × Int) :=
  match c.runOrder with
  | .before => if k - run < 0 then none else some (idxAt c (k - run), k - run)
  | .after => if k < 0 then none else some (idxAt c k, k - run)

/-- How one iteration of ENTDEC ends. -/
inductive EntStep where
  /-- Terminal (42_entropy.md rule R119) -/
  | stop (s : State)
  /-- a coefficient was stored; the counter is now `k` (rule R123) -/
  | stored (k : Int) (s : State)
  /-- NO_CODE or POS_UNDERFLOW, with `start` as ERRINFO (rules R118 and R122) -/
  | err (code : ErrCode) (start : Word) (s : State)
deriving DecidableEq, Repr

/-- The index step and the store (42_entropy.md rules R122 and R123): `COEF[i] <- wrap32(val · SCALE[i])`. -/
def storeAc (start : Word) (k : Int) (run : Nat) (val : Int) (s : State) : EntStep :=
  match nextIndex s.rom k run with
  | none => .err .posUnderflow start s
  | some (i, k') => .stored k' (s.setCoef i (BitVec.ofInt 32 (val * s.rom.scale[i].toInt)))

/-- The value of a table code (42_entropy.md rule R120): the sign bit is `r[16 - len]`. -/
def tableValue (c : Cfg) (r : BitVec 17) (len mag : Nat) : Int :=
  if r.getLsbD (16 - len) = c.signNeg then -(mag : Int) else mag

/-- The 17-bit peek at POS (42_entropy.md rule R118). -/
def State.peek17 (s : State) : BitVec 17 := (s.readBits s.pos 17).setWidth 17

/-- One iteration of the loop of 42_entropy.md rule R115 with counter `k`. -/
def entStep (k : Int) (s : State) : EntStep :=
  let t := s.afterRead s.pos
  match classOf s.peek17 with
  | none => .err .noCode s.pos t
  | some cl =>
    match controlWord s.rom cl s.peek17 with
    | .terminal len => .stop (t.consume len.val)
    | .table lenPred mag runPred =>
      storeAc s.pos k (runPred + 1) (tableValue s.rom s.peek17 (lenPred.val + 1) mag.toNat)
        (t.consume (lenPred.val + 1 + 1))
    | .escape len ex runPred =>
      let u := t.consume len.val
      storeAc s.pos k (runPred + 1) (escValue s.rom ex (u.readBits u.pos (ex.val + 8)))
        ((u.afterRead u.pos).consume (ex.val + 8))

/-- The loop, for at most `fuel` iterations, with counter `k` and `count` stores so far. With `fuel` at least `k + 2`
the fuel never runs out (42_entropy.md rule R124, `entLoop_fuel_enough`); ENTDEC gives 65 (log entry 26). -/
def entLoop : Nat → Int → Nat → State → Res
  | 0, _, _, s => .err .posUnderflow s.pos s
  | fuel + 1, k, count, s =>
    match entStep k s with
    | .stop t => .ok { t with result := BitVec.ofNat 32 count }
    | .stored k' t => entLoop fuel k' (count + 1) t
    | .err code start t => .err code start t

/-- The work of ENTDEC (42_entropy.md rule R115): k starts at 63, RESULT gets the count of stores (rule R125). -/
def entdec (p : Plane) (s : State) : Res := entLoop 65 63 0 (s.initCoef p)

/-- What ENTDEC could write (60_exceptions.md rule R210): POS, RESULT, PAST_END and COEF only. -/
def entdecWrites : Writes := noWrites

/-- ENTDEC (42_entropy.md rule R115). -/
def execEntdec (p : Plane) (s : State) : Host.Outcome State Fault Refusal := (entdec p s).finish entdecWrites

end Sys2Proof.Machine
end

