-- ==== Sys2Proof/Machine/Transform.lean ====
section
/-! DEFINITION. IDCTR and IDCTC, the two passes of the inverse transform (44_transform.md rules R163 and R164). -/

namespace Sys2Proof.Machine

/-- `y[r] = T8(COEF[8r .. 8r+7])` for the eight rows (44_transform.md rule R163). -/
def rowPass (c : Cfg) (coef : Vector Word 64) : Vector (Vector Word 8) 8 := tab fun r => t8 c (rowOf coef r)

/-- `TMP[stride · r + k] <- y[r][k]`; the other cells stay (44_transform.md rule R163). -/
def storeRows (stride : Nat) (y : Vector (Vector Word 8) 8) (tmp : Cells 72) : Cells 72 :=
  tab fun j =>
    if h : j.val / stride < 8 ∧ j.val % stride < 8 then some ((y[j.val / stride]'h.1)[j.val % stride]'h.2)
    else tmp[j]

/-- The work of IDCTR (44_transform.md rule R163). -/
def idctr (s : State) : Res :=
  match cellValues s.coef with
  | none => .fault .coefNoValue s
  | some coef => .ok { s with tmp := storeRows (strideOf s.rom) (rowPass s.rom coef) s.tmp }

/-- `z[c] = T8(TMP[c], TMP[c+9], ..., TMP[c+63])` for the eight columns, from the cells of `columnCells`
(44_transform.md rule R164). -/
def columnPass (c : Cfg) (cols : Vector Word 64) : Vector (Vector Word 8) 8 := tab fun x => t8 c (rowOf cols x)

/-- `PLANE[P][8k + c] <- z[c][k]` (44_transform.md rule R164). -/
def storeColumns (z : Vector (Vector Word 8) 8) : Cells 64 :=
  tab fun i => some ((z[i.val % 8]'(by omega))[i.val / 8]'(by omega))

/-- The work of IDCTC (44_transform.md rule R164). -/
def idctc (p : Plane) (s : State) : Res :=
  match cellValues (columnCells s.tmp) with
  | none => .fault .tmpNoValue s
  | some cols => .ok (s.setPlane p (storeColumns (columnPass s.rom cols)))

/-- IDCTR (44_transform.md rule R163). -/
def execIdctr (s : State) : Host.Outcome State Fault Refusal := (idctr s).finish noWrites

/-- IDCTC (44_transform.md rule R164). -/
def execIdctc (p : Plane) (s : State) : Host.Outcome State Fault Refusal := (idctc p s).finish noWrites

end Sys2Proof.Machine
end

