-- ==== Sys2Proof/Machine/PlaneDecode.lean ====
section
/-! DEFINITION. DCDEC, FILL and PLANE (43_plane.md). -/

namespace Sys2Proof.Machine

/-- The jump-table entry that the 8-bit peek at POS selects (43_plane.md rule R141). -/
def State.dcJumpAt (s : State) : DcEntry := dcEntry s.rom ((s.readBits s.pos 8).setWidth 8)

/-- The state after the DC prefix: POS advanced by `skip` (43_plane.md rule R141). -/
def State.afterDcSkip (s : State) : State := (s.afterRead s.pos).consume s.dcJumpAt.skip.val

/-- The DC delta read after the prefix; no bits are read when `extra = 0` (43_plane.md rule R142). -/
def State.dcDeltaAt (s : State) : Int :=
  dcDelta s.dcJumpAt.extra.val (s.afterDcSkip.readBits s.afterDcSkip.pos s.dcJumpAt.extra.val).toNat

/-- The state after the DC prefix and its extra bits (43_plane.md rule R142). -/
def State.afterDcCode (s : State) : State :=
  if s.dcJumpAt.extra.val = 0 then s.afterDcSkip
  else (s.afterDcSkip.afterRead s.afterDcSkip.pos).consume s.dcJumpAt.extra.val

/-- `DC_P <- wrap32(DC_P + delta)` and `RESULT <- wrap32(delta)` (43_plane.md rules R142 and R144). -/
def State.accumulateDc (s : State) (p : Plane) (delta : Int) : State :=
  { s.setDc p (s.dcOf p + BitVec.ofInt 32 delta) with result := BitVec.ofInt 32 delta }

/-- The 2-bit fill flag at POS reads 2 (43_plane.md rule R143). -/
def State.fillFlagAt (s : State) : Bool := decide (s.readBits s.pos 2 = 2#32)

/-- STATUS.FILL <- b (10_state.md rule R23). -/
def State.setFill (s : State) (b : Bool) : State := { s with status := { s.status with fill := b } }

/-- The fill-flag test (43_plane.md rule R143): the flag is consumed only when it reads 2. -/
def State.testFill (s : State) : State :=
  if s.fillFlagAt then ((s.afterRead s.pos).setFill true).consume 2 else (s.afterRead s.pos).setFill false

/-- The work of DCDEC (43_plane.md rule R140). -/
def dcdec (p : Plane) (s : State) : State := (s.afterDcCode.accumulateDc p s.dcDeltaAt).testFill

/-- The work of FILL: `PLANE[P][*] <- wrap32(DC_P · 2^16)` (43_plane.md rule R145). -/
def fillPlane (p : Plane) (s : State) : State := s.setPlane p (Vector.replicate 64 (some (s.dcOf p <<< 16)))

/-- The work of PLANE (43_plane.md rule R146). -/
def plane (p : Plane) (s : State) : Res :=
  let t := dcdec p s
  if t.status.fill then .ok (fillPlane p t) else ((entdec p t).bind idctr).bind (idctc p)

/-- What PLANE P could write (60_exceptions.md rule R210). -/
def planeWrites (p : Plane) : Writes :=
  { dc := fun q => q == p, fill := true, blk := false, tmp := true, plane := fun q => q == p, pix := false }

/-- DCDEC (43_plane.md rule R140). -/
def execDcdec (p : Plane) (s : State) : Host.Outcome State Fault Refusal := (Res.ok (dcdec p s)).finish noWrites

/-- FILL (43_plane.md rule R145). -/
def execFill (p : Plane) (s : State) : Host.Outcome State Fault Refusal := (Res.ok (fillPlane p s)).finish noWrites

/-- PLANE (43_plane.md rule R146). -/
def execPlane (p : Plane) (s : State) : Host.Outcome State Fault Refusal := (plane p s).finish (planeWrites p)

end Sys2Proof.Machine
end

