-- ==== Sys2Proof/Machine/Block.lean ====
section
/-! DEFINITION. CCONV, WRBLK, BLOCK and IMAGE (45_block.md). -/

namespace Sys2Proof.Machine

/-- A colour channel `o_c` of one pixel (45_block.md rule R176): the sum and the bias wrap, the shift is arithmetic,
and the clamp comes last. -/
def channelByte (c : Cfg) (ch : Fin 3) (y0 y1 y2 : Word) : Byte :=
  clampByte ((ccMul c ch 0 y0 + ccMul c ch 1 y1 + ccMul c ch 2 y2 + c.ccBias).sshiftRight 16).toInt

/-- `o_R | o_G << 8 | o_B << 16 | o_A << 24` (45_block.md rule R178). -/
def packPixel (r g b a : Byte) : Word := a ++ b ++ g ++ r

/-- The work of CCONV (45_block.md rule R175). -/
def cconv (s : State) : Res :=
  match cellValues s.plane[0], cellValues s.plane[1], cellValues s.plane[2], s.alphaBytes with
  | some y0, some y1, some y2, some a =>
    .ok { s with
      pix := tab fun i =>
        some (packPixel (channelByte s.rom 0 y0[i] y1[i] y2[i]) (channelByte s.rom 1 y0[i] y1[i] y2[i])
          (channelByte s.rom 2 y0[i] y1[i] y2[i]) a[i]) }
  | _, _, _, _ => .fault .planeNoValue s

/-- The tile's pixels from the list, in its order; a clipped pixel is neither read nor written
(45_block.md rules R179 and R180). -/
def writePixels : List (Fin 64) → State → Res
  | [], s => .ok s
  | i :: rest, s =>
    if s.pixelInside i then
      match s.pix[i] with
      | none => .fault .pixNoValue s
      | some v => writePixels rest (s.memWrite (s.pixelAddr i) v)
    else writePixels rest s

/-- The 64 pixels of a tile, rows ascending and x ascending within a row (45_block.md rule R179). -/
def tilePixels : List (Fin 64) := (tab fun i : Fin 64 => i).toList

/-- The tile advance in raster order (45_block.md rule R181). BLK_Y has 13 bits (log entry 18). -/
def State.advanceTile (s : State) : State :=
  if s.blkX.toNat + 1 = s.nbx then { s with blkX := 0, blkY := s.blkY + 1 } else { s with blkX := s.blkX + 1 }

/-- The work of WRBLK after its geometry check (45_block.md rule R179). -/
def writeTile (s : State) : Res := (writePixels tilePixels s).bind fun t => .ok t.advanceTile

/-- The geometry check of WRBLK and BLOCK (45_block.md rule R184) before the work `f`. -/
def withGeometry (f : State → Res) (s : State) : Res :=
  if s.emptyImage || s.tileOutside then .err .imgGeom s.geomInfo s else f s

/-- The work of WRBLK (45_block.md rule R179). -/
def wrblk (s : State) : Res := withGeometry writeTile s

/-- PLANE 3 if CTRL.ALPHA = 1 (45_block.md rule R182). -/
def alphaPlane (s : State) : Res := if s.ctrl.alpha then plane 3 s else .ok s

/-- The work of BLOCK after its geometry check (45_block.md rules R182 and R185). -/
def blockBody (s : State) : Res :=
  (((((plane 0 s).bind (plane 1)).bind (plane 2)).bind alphaPlane).bind cconv).bind writeTile

/-- The work of BLOCK (45_block.md rule R182). -/
def block (s : State) : Res := withGeometry blockBody s

/-- `n` blocks, one after the other (45_block.md rule R183). -/
def blocks : Nat → State → Res
  | 0, s => .ok s
  | n + 1, s => (blockBody s).bind (blocks n)

/-- What IMAGE resets at its start (45_block.md rule R183). POS is not reset. -/
def State.startImage (s : State) : State :=
  { s.invalidatePage with dc := Vector.replicate 4 0, blkX := 0, blkY := 0 }

/-- The work of IMAGE (45_block.md rule R183). -/
def image (s : State) : Res :=
  if s.emptyImage then .err .imgGeom s.geomInfo s else blocks (s.nbx * s.nby) s.startImage

/-- The planes of a block (45_block.md rule R182). -/
def State.blockPlane (s : State) (p : Plane) : Bool := decide (p ≠ 3) || s.ctrl.alpha

/-- What BLOCK could write (60_exceptions.md rule R210). -/
def blockWrites (s : State) : Writes :=
  { dc := s.blockPlane, fill := true, blk := true, tmp := true, plane := s.blockPlane, pix := true }

/-- What IMAGE could write: as BLOCK, and all four accumulators, which it resets. -/
def imageWrites (s : State) : Writes := { blockWrites s with dc := fun _ => true }

/-- CCONV (45_block.md rule R175). -/
def execCconv (s : State) : Host.Outcome State Fault Refusal := (cconv s).finish noWrites

/-- WRBLK (45_block.md rule R179). -/
def execWrblk (s : State) : Host.Outcome State Fault Refusal := (wrblk s).finish noWrites

/-- BLOCK (45_block.md rule R182). -/
def execBlock (s : State) : Host.Outcome State Fault Refusal := (block s).finish (blockWrites s)

/-- IMAGE (45_block.md rule R183). -/
def execImage (s : State) : Host.Outcome State Fault Refusal := (image s).finish (imageWrites s)

end Sys2Proof.Machine
end

