-- ==== Sys2Proof/Machine/Control.lean ====
section
/-! DEFINITION. NOP and SRST (40_control.md rules R90 and R91). -/

namespace Sys2Proof.Machine

/-- What SRST does before it completes (40_control.md rule R91): a new session. The second way to return from an
error (60_exceptions.md rule R215). `RESULT <- 0` stands in rule R91's pseudocode and in the end state of program P5
(95_test_vectors.md), against the closing words of 10_state.md rule R26; that those words do not bind SRST is DEDUCED
(log entry 32). -/
def State.sessionReset (s : State) : State :=
  { s.endSession with
    dc := Vector.replicate 4 0
    pos := 0
    blkX := 0
    blkY := 0
    result := 0
    errinfo := 0
    status := { s.status with err := false, pastEnd := false, fill := false, ovr := false, code := .none } }

/-- NOP (40_control.md rule R90). -/
def execNop (s : State) : Host.Outcome State Fault Refusal := (Res.ok s).finish noWrites

/-- SRST (40_control.md rule R91). -/
def execSrst (s : State) : Host.Outcome State Fault Refusal := (Res.ok s.sessionReset).finish noWrites

end Sys2Proof.Machine
end

