-- ==== Sys2Proof/Machine/Dispatch.lean ====
section
/-! DEFINITION. The meaning of each command: the engine's atomic step for the command word in CMD, with its completion
(40_control.md rule R92). -/

namespace Sys2Proof.Machine

def exec (i : Instr) (s : State) : Host.Outcome State Fault Refusal :=
  match i with
  | .nop => Sys2Proof.Machine.execNop s
  | .srst => Sys2Proof.Machine.execSrst s
  | .bread n => Sys2Proof.Machine.execBread n s
  | .dcdec p => Sys2Proof.Machine.execDcdec p s
  | .fill p => Sys2Proof.Machine.execFill p s
  | .entdec p => Sys2Proof.Machine.execEntdec p s
  | .idctr => Sys2Proof.Machine.execIdctr s
  | .idctc p => Sys2Proof.Machine.execIdctc p s
  | .plane p => Sys2Proof.Machine.execPlane p s
  | .cconv => Sys2Proof.Machine.execCconv s
  | .wrblk => Sys2Proof.Machine.execWrblk s
  | .block => Sys2Proof.Machine.execBlock s
  | .image => Sys2Proof.Machine.execImage s

end Sys2Proof.Machine
end

