-- ==== Sys2Proof/Machine/Port.lean ====
section
/-! DEFINITION. The host register port: the register map (10_state.md rules R20 to R37), reads and writes
(20_memory.md rule R69), the acceptance of a command (40_control.md rules R92, R94, R95). -/

namespace Sys2Proof.Machine

/-- The registers and buffer cells of the port (10_state.md rule R20). -/
inductive PortReg where
  | ctrl
  | status
  | cmd
  | arg0
  | result
  | pos
  | winOrg
  | winLen
  | imgW
  | imgH
  | dstBase
  | blkX
  | blkY
  | errinfo
  | ident
  | version
  | dc (p : Plane)
  | coef (i : Fin 64)
  | tmp (i : Fin 72)
  | plane (p : Plane) (i : Fin 64)
  | pix (i : Fin 64)
  | reserved
deriving DecidableEq, Repr

/-- The register at byte offset `off`, an offset that is a multiple of 4 (10_state.md rule R20). -/
def portReg (off : BitVec 12) : PortReg :=
  let o := off.toNat
  if o < 0x40 then
    match o / 4 with
    | 0 => .ctrl
    | 1 => .status
    | 2 => .cmd
    | 3 => .arg0
    | 4 => .result
    | 5 => .pos
    | 6 => .winOrg
    | 7 => .winLen
    | 8 => .imgW
    | 9 => .imgH
    | 10 => .dstBase
    | 11 => .blkX
    | 12 => .blkY
    | 13 => .errinfo
    | 14 => .ident
    | _ => .version
  else if o < 0x50 then .dc (Fin.ofNat 4 ((o - 0x40) / 4))
  else if o < 0x100 then .reserved
  else if o < 0x200 then .coef (Fin.ofNat 64 ((o - 0x100) / 4))
  else if o < 0x320 then .tmp (Fin.ofNat 72 ((o - 0x200) / 4))
  else if o < 0x400 then .reserved
  else if o < 0x800 then .plane (Fin.ofNat 4 ((o - 0x400) / 0x100)) (Fin.ofNat 64 ((o - 0x400) % 0x100 / 4))
  else if o < 0x900 then .pix (Fin.ofNat 64 ((o - 0x800) / 4))
  else .reserved

/-- ID, the constant 0x54434843 (10_state.md rule R20). -/
def idWord : Word := 0x54434843

/-- VERSION, the constant 1: CMD-1 (10_state.md rule R20). -/
def versionWord : Word := 1

/-- A port access is a 32-bit one at a multiple of 4; another has no defined effect (20_memory.md rule R69). -/
def portAligned (off : BitVec 12) (bytes : Nat) : Bool := decide (bytes = 4) && decide (off.toNat % 4 = 0)

/-- The value of a cell for the port: a cell that holds no value returns a free value (10_state.md rule R37). -/
def cellWord (free : Word) (c : Option Word) : Word := c.getD free

/-- The value of a register while the core is idle (10_state.md rules R20 to R37); reserved bits and offsets read 0
(rule R21). -/
def State.regValue (s : State) (free : Word) : PortReg → Word
  | .ctrl => s.ctrl.word
  | .status => s.status.word
  | .cmd => s.cmd
  | .arg0 => s.arg0
  | .result => s.result
  | .pos => s.pos
  | .winOrg => s.winOrg
  | .winLen => s.winLen
  | .imgW => s.imgW.setWidth 32
  | .imgH => s.imgH.setWidth 32
  | .dstBase => s.dstBase
  | .blkX => s.blkX.setWidth 32
  | .blkY => s.blkY.setWidth 32
  | .errinfo => s.errinfo
  | .ident => idWord
  | .version => versionWord
  | .dc p => s.dc[p]
  | .coef i => cellWord free s.coef[i]
  | .tmp i => cellWord free s.tmp[i]
  | .plane p i => cellWord free s.plane[p][i]
  | .pix i => cellWord free s.pix[i]
  | .reserved => 0

/-- The registers whose reads mean the same while BUSY (70_reset_and_hazards.md rule R243), and the reserved offsets,
which are no registers (log entry 19). -/
def PortReg.readableBusy : PortReg → Bool
  | .status => true
  | .ident => true
  | .version => true
  | .reserved => true
  | _ => false

/-- A port read: only the returned word changes, for a read has no side effect (20_memory.md rule R69). While BUSY most
registers return a free value (70_reset_and_hazards.md rule R243), free in all 32 bits, the reserved bits of a narrow
register among them (DEDUCED, log entry 33). -/
def State.portRead (s : State) (r : PortReg) : State :=
  { s with
    portData :=
      if s.status.busy && !r.readableBusy then Config.freeWord s.draws
      else s.regValue (Config.freeWord s.draws) r
    draws := s.draws + 1 }

/-- A write of CMD while the core is idle (40_control.md rules R92 and R94): while ERR = 1 a word whose OP is not SRST's
is discarded; an accepted word is recorded, DONE falls and BUSY rises. -/
def State.acceptCmd (s : State) (c : Word) : State :=
  if s.status.err && decide (fieldOp c ≠ 1) then s
  else { s with cmd := c, status := { s.status with done := false, busy := true }, session := true }

/-- A write of a register while the core is idle (10_state.md rules R20 to R37). A write stores the defined bits only
(rule R21); read-only registers and reserved offsets ignore it. WIN_ORG and WIN_LEN invalidate the page
(20_memory.md rule R59). -/
def State.writeReg (s : State) (v : Word) : PortReg → State
  | .ctrl => { s with ctrl := Ctrl.ofWord v }
  | .status => { s with status := s.status.w1c v }
  | .cmd => s.acceptCmd v
  | .arg0 => { s with arg0 := v }
  | .result => s
  | .pos => { s with pos := v }
  | .winOrg => { s.endSession with winOrg := v }
  | .winLen => { s.endSession with winLen := v }
  | .imgW => { s with imgW := v.setWidth 16 }
  | .imgH => { s with imgH := v.setWidth 16 }
  | .dstBase => { s with dstBase := v }
  | .blkX => { s with blkX := v.setWidth 13 }
  | .blkY => { s with blkY := v.setWidth 13 }
  | .errinfo => s
  | .ident => s
  | .version => s
  | .dc p => s.setDc p v
  | .coef i => s.setCoef i v
  | .tmp i => { s with tmp := s.tmp.set i (some v) }
  | .plane p i => s.setPlane p (s.plane[p].set i (some v))
  | .pix i => { s with pix := s.pix.set i (some v) }
  | .reserved => s

/-- The W1C bits the engine can update after a write made while BUSY: DONE, ERR and PAST_END. -/
def engineW1C : Word := 0x0000000E

/-- A write of STATUS while BUSY (40_control.md rule R95): its W1C bits act now, and each of those the engine updates
acts again after the engine's update or not, by a free choice (log entry 20). -/
def State.statusWriteBusy (s : State) (v : Word) : State :=
  { s with
    status := s.status.w1c v
    lateW1C := s.lateW1C ||| (v &&& engineW1C &&& Config.freeWord s.draws)
    lateOvr := s.lateOvr && !v.getLsbD 5
    draws := s.draws + 1 }

/-- A write of any other register while BUSY (40_control.md rule R95): discarded, OVR rises; against an SRST that clears
OVR the order is a free choice (log entry 20). -/
def State.discardWrite (s : State) : State :=
  { s with
    status := { s.status with ovr := true }
    lateOvr := s.lateOvr || (Config.freeWord s.draws).getLsbD 0
    draws := s.draws + 1 }

/-- A port write (20_memory.md rule R69). -/
def State.portWrite (s : State) (r : PortReg) (v : Word) : State :=
  if s.status.busy then (if r = .status then s.statusWriteBusy v else s.discardWrite) else s.writeReg v r

end Sys2Proof.Machine
end

