-- ==== Sys2Proof/Machine/Reset.lean ====
section
/-! DEFINITION. The reset input (70_reset_and_hazards.md rules R225 to R227). -/

namespace Sys2Proof.Machine

/-- The destination space at the end of the command `i`, with all the writes it makes: only WRBLK, BLOCK and IMAGE
write it (20_memory.md rule R62). -/
def commandDst (i : Instr) (s : State) : Memory :=
  match i with
  | .wrblk => (wrblk s).state.dst
  | .block => (block s).state.dst
  | .image => (image s).state.dst
  | .nop => s.dst
  | .srst => s.dst
  | .bread _ => s.dst
  | .dcdec _ => s.dst
  | .fill _ => s.dst
  | .entdec _ => s.dst
  | .idctr => s.dst
  | .idctc _ => s.dst
  | .plane _ => s.dst
  | .cconv => s.dst

/-- Each address of the list takes its byte from `new` or keeps its byte, by a free choice. -/
def mixBytes (draw : Nat) (new : Memory) : List Nat → Memory → Memory
  | [], m => m
  | a :: rest, m => mixBytes draw new rest (if Config.cutPick draw a then m.write a (new.read a) else m)

/-- The destination space after a reset: each byte that a command cut short could write holds its old value or the
value the command would have written (70_reset_and_hazards.md rule R227; log entry 16). -/
def State.dstAfterReset (s : State) : Memory :=
  if s.status.busy then
    match decode s.fetchWord with
    | .ok i => mixBytes s.draws (commandDst i s) ((commandDst i s).map Prod.fst ++ s.dst.map Prod.fst) s.dst
    | .error _ => s.dst
  else s.dst

/-- The reset input is asserted (70_reset_and_hazards.md rule R225): the registers, buffers and page take the values of
10_state.md rule R41; a running command stops with neither DONE nor ERR set. Reset reads and writes no byte of either
space and leaves the configuration (rule R227). -/
def State.assertReset (s : State) : State :=
  { State.reset with
    rom := s.rom
    src := s.src
    dst := s.dstAfterReset
    inReset := true
    inputs := s.inputs
    portData := s.portData
    draws := s.draws + 1
    memReads := s.memReads }

end Sys2Proof.Machine
end

