-- ==== Sys2Proof/Machine/Step.lean ====
section
/-! DEFINITION. One step of the machine: the engine's atomic step for the command in CMD, or one host action
(20_memory.md rule R65, 40_control.md rule R92). -/

namespace Sys2Proof.Machine

/-- The engine moves next: a command runs, reset is released, and no pending host action lands before the command ends
(log entry 4). -/
def State.engineTurn (s : State) : Bool :=
  s.status.busy && !s.inReset &&
    (match s.inputs with
    | [] => true
    | i :: _ => !i.early)

/-- The engine's atomic step: the word in CMD is decoded and its command runs to its end; an illegal word raises
ILLEGAL_CMD with the word as ERRINFO (60_exceptions.md rule R203). -/
def engineStep (s : State) : Host.Outcome State Fault Refusal :=
  match decode s.fetchWord with
  | .ok i => exec i s
  | .error _ => .next (s.takeError .illegalCmd s.fetchWord noWrites)

/-- STATUS writes made while BUSY that act after the engine's update (40_control.md rule R95). -/
def settleOutcome (o : Host.Outcome State Fault Refusal) : Host.Outcome State Fault Refusal :=
  match o with
  | .next t => .next t.settle
  | .fault f => .fault f
  | .refused r => .refused r

/-- A host action, taken out of the pending ones. While reset is asserted, port accesses are not accepted
(70_reset_and_hazards.md rule R225; log entry 17). -/
def hostStep (op : HostOp) (s : State) : Host.Outcome State Fault Refusal :=
  match op with
  | .write off bytes v =>
    if s.inReset then .next s
    else if portAligned off bytes then .next (s.portWrite (portReg off) v) else .refused .portAccess
  | .read off bytes =>
    if s.inReset then .next s
    else if portAligned off bytes then .next (s.portRead (portReg off)) else .refused .portAccess
  | .srcWrite a v => .next (s.hostSrcWrite a v)
  | .reset true => .next s.assertReset
  | .reset false => .next { s with inReset := false }

/-- One step. With nothing to do the core waits for a CMD write (70_reset_and_hazards.md rule R226). -/
def step (s : State) : Host.Outcome State Fault Refusal :=
  if s.engineTurn then
    (if s.lateW1C = 0 ∧ s.lateOvr = false then engineStep s else settleOutcome (engineStep s))
  else
    match s.inputs with
    | [] => .next s
    | i :: rest => hostStep i.op { s with inputs := rest }

/-- The pending actions with none landing before the next engine step. -/
def firstNotEarly : List Input → List Input
  | [] => []
  | i :: rest => { i with early := false } :: rest

/-- `s` with the command word of `nbits` bits `w` accepted (40_control.md rule R92): recorded in CMD, from where the
engine takes it, with BUSY raised, reset released, and no host action before the engine's step. It stands for the host's
write of CMD (log entry 6). -/
def State.withFetchWord (s : State) (nbits w : Nat) : State :=
  { s with
    cmd := BitVec.ofNat 32 (w % 2 ^ nbits)
    status := { s.status with busy := true, done := false }
    inReset := false
    inputs := firstNotEarly s.inputs
    session := true }

end Sys2Proof.Machine
end

