-- ==== Sys2Proof/Safety.lean ====
section
/-! DEFINITION. What a good state and a safe run are: the memories keep their canonical form, the page holds the window
(20_memory.md rules R57 and R58), STATUS keeps the discipline of the command lifecycle (40_control.md rules R92 and R94),
and a run has a defined result when it ends, hits no model fault and the host keeps its rules
(70_reset_and_hazards.md rules R240, R241 and R245). -/

namespace Sys2Proof.Machine

/-- Both memories are in the canonical form. -/
def State.MemoriesOk (s : State) : Prop := s.src.wf = true ∧ s.dst.wf = true

/-- A valid page holds the words of the window from PAGE_BASE on (20_memory.md rule R56). -/
def State.PageHolds (s : State) : Prop :=
  s.pageValid = true → ∀ j : Fin 256, s.page[j] = s.wordAt (s.pageBase + j.val)

/-- A value that window byte `i` may read as (20_memory.md rule R60): its byte in the source space now, or, for an affected
byte, another value it had in the session. Past the window end it is 0 (rule R54). -/
def State.WindowValue (s : State) (i : Nat) (v : Byte) : Prop :=
  v = s.srcByte i ∨ (i < s.winLen.toNat ∧ v ∈ s.raceValues (s.windowAddr i).toNat)

/-- Every byte of a valid page is a value that its window byte may read as: the page is never older than the session
(20_memory.md rules R56 and R60). -/
def State.PageFair (s : State) : Prop :=
  s.pageValid = true → ∀ (j : Fin 256) (k : Fin 4),
    s.WindowValue (4 * (s.pageBase + j.val) + k.val) (s.page[j].extractLsb' (24 - 8 * k.val) 8)

/-- No window byte changed during the session and none was overwritten through the destination (20_memory.md rule R60,
70_reset_and_hazards.md rule R241): the premise of rule R58. -/
def State.SourceStable (s : State) : Prop := s.raced = []

/-- The page is valid only within a session, a command runs only within a session, the page holds the window unless the
source changed, and it then holds values that the affected bytes had in the session (20_memory.md rules R58 to R60). -/
def State.PageOk (s : State) : Prop :=
  (s.pageValid = true → s.session = true) ∧ (s.status.busy = true → s.session = true) ∧
    (s.SourceStable → s.PageHolds) ∧ s.PageFair

/-- The discipline of STATUS (10_state.md rule R23, 40_control.md rules R92 to R95): ERRCODE is 0 exactly when ERR is 0,
DONE is 0 while a command runs or ERR stands, only an SRST word runs while ERR = 1, no command runs while reset is
asserted, and nothing is pending for a later engine update when no command runs. -/
def State.StatusOk (s : State) : Prop :=
  (s.status.err = true ↔ s.status.code ≠ .none) ∧
  (s.status.busy = true → s.status.done = false) ∧
  (s.status.err = true → s.status.done = false) ∧
  (s.status.busy = true → s.status.err = true → fieldOp s.cmd = 1) ∧
  (s.status.busy = true → s.inReset = false) ∧
  (s.status.busy = false → s.lateW1C = 0 ∧ s.lateOvr = false)

/-- The host action that moves next, if the engine does not. -/
def State.nextOp (s : State) : Option HostOp := if s.engineTurn then none else s.inputs.head?.map Input.op

/-- The host keeps the busy hazard in its next action (70_reset_and_hazards.md rule R240): while a command runs, and until
the host has seen BUSY = 0 after its write of CMD (`waiting`), it writes no register but STATUS and no source byte inside the
window. Its accesses to the destination are no inputs (log entries 23 and 34). -/
def State.KeepsBusyHazard (waiting : Bool) (s : State) : Prop :=
  (waiting || s.status.busy) = true →
    match s.nextOp with
    | some (.write off _ _) => off = 0x004
    | some (.srcWrite a _) => s.inWindow a = false
    | some (.read _ _) => True
    | some (.reset _) => True
    | none => True

/-- Whether the host waits after the next step: from its write of CMD, accepted or not, until a read of STATUS sees BUSY = 0
(70_reset_and_hazards.md rule R240, 30_encoding.md rule R78; log entry 34). -/
def State.waitsAfter (waiting : Bool) (s : State) : Bool :=
  match s.nextOp with
  | some (.write off _ _) => waiting || decide (off = 0x008)
  | some (.read off _) => waiting && (decide (off ≠ 0x004) || s.status.busy || s.inReset)
  | some (.srcWrite _ _) => waiting
  | some (.reset _) => waiting
  | none => waiting

/-- The destination buffer, `IMG_W · IMG_H · 4` bytes from DST_BASE (70_reset_and_hazards.md rule R230), does not overlap the
window (rule R241). -/
def State.DestinationApart (s : State) : Prop :=
  ∀ n : Nat, n < s.imgW.toNat * s.imgH.toNat * 4 → s.inWindow (s.dstBase + BitVec.ofNat 32 n) = false

/-- The command that runs, if one does, hits no model fault (60_exceptions.md rule R212), and the buffer of one that writes
the destination does not overlap the window (70_reset_and_hazards.md rule R241). This is asked before the command's step, so
also of a command that reset then cuts short (log entry 34). -/
def State.CommandSafe (s : State) : Prop :=
  s.status.busy = true →
    (∃ t, engineStep s = .next t) ∧
      (decode s.fetchWord = .ok .wrblk ∨ decode s.fetchWord = .ok .block ∨ decode s.fetchWord = .ok .image →
        s.DestinationApart)

/-- `k` steps from `s` reach `t` without a model fault or a refusal, and the host keeps its rules at every step: rule R240 in
its actions, rule R241 in every state on the way and in the buffer of every command that runs, whether it completes or reset
cuts it short (70_reset_and_hazards.md rule R245). -/
def SafeRun : Nat → Bool → State → State → Prop
  | 0, _, s, t => s = t ∧ s.SourceStable
  | k + 1, waiting, s, t =>
    s.SourceStable ∧ s.CommandSafe ∧ s.KeepsBusyHazard waiting ∧
      ∃ u, step s = .next u ∧ SafeRun k (s.waitsAfter waiting) u t

/-- The host issues nothing more and the last command has completed: the end of a run
(70_reset_and_hazards.md rule R245). -/
def State.RunEnded (s : State) : Prop := s.inputs = [] ∧ s.status.busy = false

/-- A host program, the inputs of `s`, runs to its end in `t`, and its result is defined
(70_reset_and_hazards.md rule R245). Where a command runs in `s` already, its write of CMD was the host's last, so the host
waits from the start (rule R240; log entry 34). -/
def DefinedRun (s t : State) : Prop := ∃ k, SafeRun k s.status.busy s t ∧ t.RunEnded

/-- The result of a run that ended in `s`: its registers, buffers and destination space, with the hidden state, the source
space and the model's own fields forgotten (70_reset_and_hazards.md rule R245). -/
def State.runResult (s : State) : State :=
  { s with
    pageValid := false, pageBase := 0, page := Vector.replicate 256 0, src := [], inputs := [], portData := 0
    lateW1C := 0, lateOvr := false, draws := 0, memReads := 0, raced := [], session := false }

end Sys2Proof.Machine
end

