-- ==== Sys2Proof/Certificates/Slice0/Obligations.lean ====
section
/-! DEFINITION. The statements for the provers, one `def Obligations.<Name> : Prop` each, and the few notions of the spec
they are written in (namespace `Sys2Proof.Spec`): the stream read bit by bit, a run of the entropy decoder without fuel,
the planes of a block, the illegal words. -/

namespace Sys2Proof.Spec

open Sys2Proof Sys2Proof.Machine

/-- Stream bit `j` (20_memory.md rule R52): bit `7 - (j mod 8)` of window byte `j div 8`. -/
def streamBit (s : State) (j : Nat) : Bool := (s.srcByte (j / 8)).getLsbD (7 - j % 8)

/-- The `n` stream bits from `off` on as a number, the first one most significant. -/
def streamField (s : State) (off : Nat) : Nat → Nat
  | 0 => 0
  | n + 1 => 2 * streamField s off n + (streamBit s (off + n)).toNat

/-- The `n` bits from `off` on of a row of bytes, as a number: bit 7 of a byte comes first, and the first bit of the field is
most significant (20_memory.md rule R52). -/
def fieldOf (b : Nat → Byte) (off : Nat) : Nat → Nat
  | 0 => 0
  | n + 1 => 2 * fieldOf b off n + ((b ((off + n) / 8)).getLsbD (7 - (off + n) % 8)).toNat

/-- The page holds the window and no source byte changed in the session (the premise of 20_memory.md rule R58). -/
def Readable (s : State) : Prop := s.PageHolds ∧ s.SourceStable

/-- The stream position passes the window end (20_memory.md rule R55). -/
def past (s : State) (pos : Nat) : Bool := decide (8 * s.winLen.toNat < pos)

/-- Only the page, its counters and the given parts of the state differ. -/
def SameButPage (s t : State) : Prop :=
  t = { s with
    pageValid := t.pageValid, pageBase := t.pageBase, page := t.page, memReads := t.memReads, draws := t.draws }

/-- The state without its page and its count of source reads. -/
def forgetPage (s : State) : State :=
  { s with pageValid := false, pageBase := 0, page := Vector.replicate 256 0, memReads := 0 }

/-- The bits of a word that are reserved for its OP (30_encoding.md rules R70 and R74). -/
def reservedBits (op : Nat) : Word :=
  if op = 2 then 0xFFFFE000
  else if op = 3 ∨ op = 4 ∨ op = 5 ∨ op = 7 ∨ op = 8 then 0xFFFCFF00
  else 0xFFFFFF00

/-- A command word is illegal (30_encoding.md rule R74). -/
def IllegalWord (c : Word) : Prop :=
  let op := (c.extractLsb' 0 8).toNat
  0x0D ≤ op ∨ c &&& reservedBits op ≠ 0

/-- The entropy decoder runs from counter `k` with `count` stores to its Terminal, one iteration after the other, with no
bound on their number (42_entropy.md rule R115). -/
inductive EntRun : Int → Nat → State → State → Prop where
  | stop {k : Int} {count : Nat} {s t : State} (h : entStep k s = .stop t) :
      EntRun k count s { t with result := BitVec.ofNat 32 count }
  | store {k k' : Int} {count : Nat} {s u t : State} (h : entStep k s = .stored k' u)
      (r : EntRun k' (count + 1) u t) : EntRun k count s t

/-- The entropy decoder runs from counter `k` to the code at bit position `start` that raises `code`. -/
inductive EntErr : Int → State → ErrCode → Word → Prop where
  | raise {k : Int} {s t : State} {code : ErrCode} {start : Word} (h : entStep k s = .err code start t) :
      EntErr k s code start
  | store {k k' : Int} {s u : State} {code : ErrCode} {start : Word} (h : entStep k s = .stored k' u)
      (r : EntErr k' u code start) : EntErr k s code start

/-- Plane `p` of a block is decoded: by the fill shortcut, or by its coefficients and the two passes
(43_plane.md rule R146). -/
inductive PlaneRun (p : Plane) : State → State → Prop where
  | fill {s : State} (h : (dcdec p s).status.fill = true) : PlaneRun p s (fillPlane p (dcdec p s))
  | coded {s u v w : State} (h : (dcdec p s).status.fill = false) (r : EntRun 63 0 ((dcdec p s).initCoef p) u)
      (hr : idctr u = .ok v) (hc : idctc p v = .ok w) : PlaneRun p s w

/-- The planes of a block are decoded, in the order of the stream (45_block.md rules R182 and R185). -/
def PlanesRun (s d : State) : Prop :=
  ∃ a b c, PlaneRun 0 s a ∧ PlaneRun 1 a b ∧ PlaneRun 2 b c ∧
    ((s.ctrl.alpha = true ∧ PlaneRun 3 c d) ∨ (s.ctrl.alpha = false ∧ d = c))

/-- The state after the conversion and the write of a block whose planes are decoded. -/
def finishBlock (d : State) : State := ((cconv d).bind writeTile).state

/-- Plane `p` of a block is coded and one of its codes raises, at bit position `start` (43_plane.md rule R146). -/
def PlaneErr (p : Plane) (s : State) (code : ErrCode) (start : Word) : Prop :=
  (dcdec p s).status.fill = false ∧ EntErr 63 ((dcdec p s).initCoef p) code start

/-- The first plane of the block with a code that raises is one of the block's planes (45_block.md rule R182). -/
def PlanesErr (s : State) (code : ErrCode) (start : Word) : Prop :=
  PlaneErr 0 s code start ∨ ∃ a, PlaneRun 0 s a ∧ (PlaneErr 1 a code start ∨ ∃ b, PlaneRun 1 a b ∧
    (PlaneErr 2 b code start ∨ ∃ c, PlaneRun 2 b c ∧ s.ctrl.alpha = true ∧ PlaneErr 3 c code start))

/-- The state records the error of a command that was running in `s`: ERR, ERRCODE and ERRINFO, with the engine idle and
DONE as it was (60_exceptions.md rule R202). -/
def Recorded (s t : State) (code : ErrCode) (start : Word) : Prop :=
  t.status.err = true ∧ t.status.code = code ∧ t.errinfo = start ∧ t.status.busy = false ∧
    t.status.done = s.status.done

/-- `n` blocks are decoded and written one after the other (45_block.md rule R183). -/
inductive BlocksRun : Nat → State → State → Prop where
  | done {s : State} : BlocksRun 0 s s
  | block {n : Nat} {s d t : State} (h : PlanesRun s d) (r : BlocksRun n (finishBlock d) t) : BlocksRun (n + 1) s t

/-- The tile lies in the image (45_block.md rule R184). -/
def TileInImage (s : State) : Prop :=
  s.imgW.toNat ≠ 0 ∧ s.imgH.toNat ≠ 0 ∧ s.blkX.toNat < (s.imgW.toNat + 7) / 8 ∧ s.blkY.toNat < (s.imgH.toNat + 7) / 8

/-- `v` is the pixel of the samples `y0`, `y1`, `y2` and the alpha sample `y3` (45_block.md rules R176 to R178). -/
def PixelOf (s : State) (y0 y1 y2 y3 v : Word) : Prop :=
  (∀ ch : Fin 3, ((v.extractLsb' (8 * ch.val) 8).toNat : Int) =
    min (max ((ccMul s.rom ch 0 y0 + ccMul s.rom ch 1 y1 + ccMul s.rom ch 2 y2 + s.rom.ccBias).toInt.fdiv 65536) 0) 255) ∧
  (s.ctrl.alpha = true → ((v.extractLsb' 24 8).toNat : Int) = min (max (alphaConv s.rom y3).toInt 0) 255) ∧
  (s.ctrl.alpha = false → v.extractLsb' 24 8 = 255)

/-- The buffers that BLOCK and IMAGE could write hold no value: COEF, TMP, PIX and the planes of a block
(60_exceptions.md rule R210; log entries 11 and 31). -/
def BlockBuffersEmpty (s : State) : Prop :=
  (∀ i : Fin 64, s.coef[i] = none) ∧ (∀ i : Fin 72, s.tmp[i] = none) ∧ (∀ i : Fin 64, s.pix[i] = none) ∧
    ∀ (p : Plane) (i : Fin 64), p ≠ 3 ∨ s.ctrl.alpha = true → s.plane[p][i] = none

/-- Byte `k` of a destination word at `a` (20_memory.md rule R62). -/
def byteAddr (a : Word) (k : Fin 4) : Nat := (a + BitVec.ofNat 32 k.val).toNat

/-- Row `r` of 64 coefficients. -/
def coefRow (b : Vector Word 64) (r : Fin 8) : Vector Word 8 := Vector.ofFn fun j => b[8 * r.val + j.val]

/-- The separable transform (44_transform.md rule R165 (a)): sample `k` of column `x`. -/
def separable (g : Cfg) (b : Vector Word 64) (k x : Fin 8) : Word :=
  (t8 g (Vector.ofFn fun r => (t8 g (coefRow b r))[x]))[k]

/-- The lookup of 42_entropy.md rule R122 for counter `k`: where it looks, and the counter afterwards. -/
def lookupAt (g : Cfg) (k : Int) (run : Nat) : Int :=
  match g.runOrder with
  | .before => k - run
  | .after => k

/-- Two outcomes of a command are the same but for the page. -/
def SameOutcome : Host.Outcome State Fault Refusal → Host.Outcome State Fault Refusal → Prop
  | .next t, .next t' => forgetPage t = forgetPage t'
  | .fault f, .fault f' => f = f'
  | .refused r, .refused r' => r = r'
  | _, _ => False

/-- The commands that write the destination space (20_memory.md rule R62). -/
def storesPixels : Instr → Bool
  | .wrblk => true
  | .block => true
  | .image => true
  | _ => false

/-- The commands that write POS (10_state.md rule R28), SRST among them (40_control.md rule R91). -/
def movesPos : Instr → Bool
  | .srst => true
  | .dcdec _ => true
  | .entdec _ => true
  | .plane _ => true
  | .block => true
  | .image => true
  | _ => false

/-- The commands that write RESULT (10_state.md rule R26), SRST among them. -/
def writesResult : Instr → Bool
  | .bread _ => true
  | i => movesPos i

/-- The commands that write COEF (10_state.md rule R33). -/
def writesCoef : Instr → Bool
  | .entdec _ => true
  | .plane _ => true
  | .block => true
  | .image => true
  | _ => false

/-- The commands that write TMP (10_state.md rule R34). -/
def writesTmp : Instr → Bool
  | .idctr => true
  | .plane _ => true
  | .block => true
  | .image => true
  | _ => false

/-- The commands that write PLANE[q] (10_state.md rule R35). -/
def writesPlane (q : Plane) : Instr → Bool
  | .fill p => p == q
  | .idctc p => p == q
  | .plane p => p == q
  | .block => true
  | .image => true
  | _ => false

/-- The commands that write DCq (43_plane.md rule R147). -/
def writesDc (q : Plane) : Instr → Bool
  | .srst => true
  | .dcdec p => p == q
  | .plane p => p == q
  | .block => true
  | .image => true
  | _ => false

/-- The commands that write PIX (10_state.md rule R36). -/
def writesPix : Instr → Bool
  | .cconv => true
  | .block => true
  | .image => true
  | _ => false

/-- The commands that write BLK_X and BLK_Y (10_state.md rule R30). -/
def writesBlk : Instr → Bool
  | .srst => true
  | i => storesPixels i

/-- The commands that write STATUS.FILL (10_state.md rule R23). -/
def writesFill : Instr → Bool
  | .srst => true
  | .dcdec _ => true
  | .plane _ => true
  | .block => true
  | .image => true
  | _ => false

/-- The commands that can write STATUS.PAST_END (20_memory.md rule R55), SRST among them. -/
def writesPastEnd : Instr → Bool
  | .bread _ => true
  | i => movesPos i

/-- The commands that can raise an error once decoded (60_exceptions.md rule R201). -/
def canRaise : Instr → Bool
  | .bread _ => true
  | .entdec _ => true
  | .plane _ => true
  | i => storesPixels i

/-- The commands that can touch the page: those that read the stream, and SRST (20_memory.md rules R57 and R59). -/
def touchesPage : Instr → Bool
  | .srst => true
  | .bread _ => true
  | .dcdec _ => true
  | .entdec _ => true
  | .plane _ => true
  | .block => true
  | .image => true
  | _ => false

/-- The core as reset leaves it: its registers, buffers and page at their reset values and its engine idle, whatever the
memories, the pending host actions and the model's counters are (10_state.md rule R41, 70_reset_and_hazards.md
rule R225). -/
def AsReset (s : State) : Prop :=
  s = { State.reset with
    rom := s.rom, src := s.src, dst := s.dst, inReset := s.inReset, inputs := s.inputs, portData := s.portData,
    draws := s.draws, memReads := s.memReads }

/-- The registers a host can write while the core is idle, each with its defined bits (10_state.md rules R20 to R22). -/
def definedBits : PortReg → Word
  | .ctrl => 0x00000003
  | .imgW => 0x0000FFFF
  | .imgH => 0x0000FFFF
  | .blkX => 0x00001FFF
  | .blkY => 0x00001FFF
  | _ => 0xFFFFFFFF

/-- The read-write registers and buffer cells (10_state.md rule R20). -/
def isReadWrite : PortReg → Bool
  | .ctrl => true
  | .arg0 => true
  | .pos => true
  | .winOrg => true
  | .winLen => true
  | .imgW => true
  | .imgH => true
  | .dstBase => true
  | .blkX => true
  | .blkY => true
  | .dc _ => true
  | .coef _ => true
  | .tmp _ => true
  | .plane _ _ => true
  | .pix _ => true
  | .status => false
  | .cmd => false
  | .result => false
  | .errinfo => false
  | .ident => false
  | .version => false
  | .reserved => false

end Sys2Proof.Spec

open Sys2Proof Sys2Proof.Machine Sys2Proof.Spec

/-! ## Encoding -/

/-- Words written out from 30_encoding.md rules R70, R73 and R78. -/
def Obligations.DecodeSpecWords : Prop :=
  decode 0x00000000 = .ok .nop ∧ decode 0x00000001 = .ok .srst ∧ decode 0x00001802 = .ok (.bread 24) ∧
  decode 0x00000002 = .ok (.bread 0) ∧ decode 0x00010003 = .ok (.dcdec 1) ∧ decode 0x00030004 = .ok (.fill 3) ∧
  decode 0x00020005 = .ok (.entdec 2) ∧ decode 0x00000006 = .ok .idctr ∧ decode 0x00030007 = .ok (.idctc 3) ∧
  decode 0x00010008 = .ok (.plane 1) ∧ decode 0x00000009 = .ok .cconv ∧ decode 0x0000000A = .ok .wrblk ∧
  decode 0x0000000B = .ok .block ∧ decode 0x0000000C = .ok .image ∧ decode 0x0000000D = .error .illegalOp ∧
  decode 0x00040003 = .error .reservedBits ∧ decode 0x00010009 = .error .reservedBits

/-- Decoding an encoded well-formed command gives it back, for every command and operand. -/
def Obligations.DecodeEncodeRoundTrip : Prop := ∀ i : Instr, i.wellFormed = true → decode (encode i) = .ok i

/-- Every word that decodes is the encoding of the well-formed command it decodes to. -/
def Obligations.EncodeDecodeRoundTrip : Prop :=
  ∀ (c : Word) (i : Instr), decode c = .ok i → i.wellFormed = true ∧ encode i = c

/-- The decoder refuses a word exactly when 30_encoding.md rule R74 calls it illegal. -/
def Obligations.IllegalWordsAreRefused : Prop :=
  ∀ c : Word, (∃ e, decode c = .error e) ↔ IllegalWord c

/-! ## The command lifecycle -/

/-- At the engine's turn a step runs the command in CMD, and afterwards the STATUS writes made while BUSY whose order
falls after the engine's update. -/
def Obligations.StepRunsDecodedCommand : Prop :=
  ∀ (s : State) (i : Instr), s.engineTurn = true → i.wellFormed = true → decode s.cmd = .ok i →
    step s = if s.lateW1C = 0 ∧ s.lateOvr = false then exec i s else settleOutcome (exec i s)

/-- A step with an illegal word in CMD raises ILLEGAL_CMD before any effect, with the word as ERRINFO: it changes nothing
but STATUS.ERR, STATUS.ERRCODE, ERRINFO and the BUSY that its acceptance raised (60_exceptions.md rule R203,
30_encoding.md rule R74). -/
def Obligations.StepRaisesIllegalCmd : Prop :=
  ∀ s : State, s.engineTurn = true → IllegalWord s.cmd → s.lateW1C = 0 → s.lateOvr = false →
    step s = .next { s with
      status := { s.status with err := true, code := .illegalCmd, busy := false }, errinfo := s.cmd }

/-- A 32-bit write of CMD to an idle core without an error records the word, clears DONE and raises BUSY
(40_control.md rule R92), and the core is then in a session (log entry 15). -/
def Obligations.CommandWriteStartsEngine : Prop :=
  ∀ (s : State) (c : Word) (early : Bool) (rest : List Input),
    s.inputs = { op := .write 0x008 4 c, early := early } :: rest → s.inReset = false → s.status.busy = false →
    s.status.err = false →
      step s = .next { s with
        inputs := rest, cmd := c, status := { s.status with done := false, busy := true }, session := true }

/-- While ERR = 1 a word whose OP is not SRST's is discarded, SRST is accepted and clears ERR, and a host write of 1 to
STATUS.ERR clears it too (40_control.md rule R94). -/
def Obligations.CommandDiscardedAfterError : Prop :=
  ∀ (s : State) (early : Bool) (rest : List Input), s.inReset = false → s.status.busy = false →
    s.status.err = true →
    (∀ c : Word, s.inputs = { op := .write 0x008 4 c, early := early } :: rest → c.extractLsb' 0 8 ≠ 1#8 →
      step s = .next { s with inputs := rest }) ∧
    (∀ c : Word, s.inputs = { op := .write 0x008 4 c, early := early } :: rest → c.extractLsb' 0 8 = 1#8 →
      step s = .next { s with
        inputs := rest, cmd := c, status := { s.status with done := false, busy := true }, session := true }) ∧
    (∃ t, exec .srst s = .next t ∧ t.status.err = false ∧ t.status.code = .none) ∧
    (∀ v : Word, s.inputs = { op := .write 0x004 4 v, early := early } :: rest → v.getLsbD 2 = true →
      ∃ t, step s = .next t ∧ t.status.err = false ∧ t.status.code = .none ∧ t.status.busy = false ∧
        t = { s with inputs := rest, status := t.status })

/-- While BUSY a write of any register or buffer but STATUS is discarded and sets OVR; a write of STATUS clears the bits
it writes 1 to (40_control.md rule R95). The running command and its registers are untouched. That a write of a reserved
offset sets OVR too is the model's reading (log entry 19). -/
def Obligations.BusyWriteIsDiscarded : Prop :=
  ∀ (s : State) (off : BitVec 12) (v : Word) (rest : List Input),
    s.inputs = { op := .write off 4 v, early := true } :: rest → s.inReset = false → s.status.busy = true →
    off.toNat % 4 = 0 →
      ∃ t, step s = .next t ∧
        t = { s with
          inputs := rest, status := t.status, lateW1C := t.lateW1C, lateOvr := t.lateOvr, draws := t.draws } ∧
        (off ≠ 0x004 → t.status = { s.status with ovr := true } ∧ t.lateW1C = s.lateW1C) ∧
        (off = 0x004 → t.status = s.status.w1c v)

/-- Every command that answers a next state ends idle: it completed with DONE = 1, or it recorded an error and left DONE
as it was (40_control.md rule R92, 60_exceptions.md rule R202). -/
def Obligations.EveryCommandEndsIdle : Prop :=
  ∀ (i : Instr) (s t : State), exec i s = .next t →
    t.status.busy = false ∧
      (t.status.done = true ∨ (t.status.err = true ∧ t.status.code ≠ .none ∧ t.status.done = s.status.done))

/-! ## NOP and SRST -/

/-- NOP completes and changes nothing but DONE and BUSY (40_control.md rule R90). -/
def Obligations.NopOnlyCompletes : Prop :=
  ∀ s : State, exec .nop s = .next { s with status := { s.status with done := true, busy := false } }

/-- SRST starts a new session (40_control.md rule R91): the listed registers become 0, the page is invalid, DONE is set;
everything else stays. That no source byte counts as changed afterwards is the model's (log entries 13 and 15), and so is
`RESULT = 0`, where rule R91 is followed against the closing words of 10_state.md rule R26 (log entry 32). -/
def Obligations.SrstStartsSession : Prop :=
  ∀ s : State, exec .srst s = .next { s with
    dc := Vector.replicate 4 0, pos := 0, blkX := 0, blkY := 0, result := 0, errinfo := 0, pageValid := false,
    status := { s.status with
      busy := false, done := true, err := false, pastEnd := false, fill := false, ovr := false, code := .none },
    raced := [], session := false }

/-! ## The bit reader -/

/-- `BitRead(off, n)` is below 2^n and its bit `n - 1 - i` is stream bit `off + i` (41_bitreader.md rule R101): as a
number it is the field of the stream. POS does not move. -/
def Obligations.BitReadIsStreamField : Prop :=
  ∀ (s : State) (off : Word) (n : Nat), Readable s → 1 ≤ n → n ≤ 24 →
    (s.readBits off n).toNat < 2 ^ n ∧
    (∀ i, i < n → (s.readBits off n).getLsbD (n - 1 - i) = streamBit s (off.toNat + i)) ∧
    (s.readBits off n).toNat = streamField s off.toNat n ∧ SameButPage s (s.afterRead off)

/-- A read at or beyond the window end returns 0, and a straddling read returns its in-window bits followed by zeros
(20_memory.md rule R54). -/
def Obligations.ReadPastWindowIsZero : Prop :=
  ∀ (s : State) (off : Word) (n : Nat), Readable s → 1 ≤ n → n ≤ 24 →
    (8 * s.winLen.toNat ≤ off.toNat → s.readBits off n = 0) ∧
    (∀ i, i < n → 8 * s.winLen.toNat ≤ off.toNat + i → (s.readBits off n).getLsbD (n - 1 - i) = false) ∧
    (∀ i, i < n → off.toNat + i < 8 * s.winLen.toNat →
      (s.readBits off n).getLsbD (n - 1 - i) =
        (s.src.read (s.winOrg + BitVec.ofNat 32 ((off.toNat + i) / 8)).toNat).getLsbD (7 - (off.toNat + i) % 8))

/-- While the source window does not change, a `BitRead` returns the same value whatever the page state is
(20_memory.md rule R58). -/
def Obligations.ReadSameWhateverPage : Prop :=
  ∀ (s t : State) (off : Word) (n : Nat), Readable s → Readable t → forgetPage s = forgetPage t →
    s.readBits off n = t.readBits off n ∧
    s.readBits off n =
      extractBits (s.wordAt (off.toNat / 32)) (s.wordAt (off.toNat / 32 + 1)) (off.toNat % 32) n

/-- The page lookup of 20_memory.md rule R57: a hit changes nothing; a miss refills the 256 words from the containing
word on, and reads the window bytes among the 1024 only. -/
def Obligations.ReadRefillsPage : Prop :=
  ∀ (s : State) (off : Word), s.SourceStable →
    let w := off.toNat / 32
    ((s.pageValid = true ∧ s.pageBase ≤ w ∧ w + 1 ≤ s.pageBase + 255) → s.afterRead off = s) ∧
    (¬ (s.pageValid = true ∧ s.pageBase ≤ w ∧ w + 1 ≤ s.pageBase + 255) →
      (s.afterRead off).pageValid = true ∧ (s.afterRead off).pageBase = w ∧
      (∀ j : Fin 256, (s.afterRead off).page[j] = s.wordAt (w + j.val)) ∧
      (s.afterRead off).memReads =
        s.memReads + ((List.range 1024).filter fun j => decide (4 * w + j < s.winLen.toNat)).length ∧
      SameButPage s (s.afterRead off))

/-- BREAD with N in 1..24 puts the N stream bits at ARG0 into RESULT, zero-extended, sets PAST_END exactly when it reads
past the window end, and completes; everything else but the page stays (41_bitreader.md rule R103). In a session with
changed source bytes it completes as well: RESULT is below 2^N, and it is the field of bytes each of which is the window
byte or, for an affected byte, a value that byte had in the session (20_memory.md rule R60; log entries 13 and 15). -/
def Obligations.BreadReadsStreamBits : Prop :=
  ∀ (s : State) (n : Nat), 1 ≤ n → n ≤ 24 →
    ∃ t, exec (.bread n) s = .next t ∧
      (Readable s → t.result.toNat = streamField s s.arg0.toNat n) ∧
      t.result.toNat < 2 ^ n ∧
      (s.PageFair → ∃ b : Nat → Byte, (∀ i, s.WindowValue i (b i)) ∧ t.result.toNat = fieldOf b s.arg0.toNat n) ∧
      t.status = { s.status with
        busy := false, done := true, pastEnd := s.status.pastEnd || past s (s.arg0.toNat + n) } ∧
      SameButPage { s with result := t.result, status := t.status } t

/-- BREAD with N = 0 or N > 24 raises BAD_FIELD before any read, with the command word as ERRINFO
(60_exceptions.md rule R204). -/
def Obligations.BreadRejectsBadCount : Prop :=
  ∀ (s : State) (n : Nat), n = 0 ∨ 24 < n →
    exec (.bread n) s = .next { s with
      status := { s.status with err := true, code := .badField, busy := false }, errinfo := s.cmd }

/-! ## DCDEC, FILL and PLANE -/

/-- DCDEC (43_plane.md rules R141 to R144): the jump-table entry of the 8-bit peek, the delta of `extra` bits with the
sign rule, the accumulation, RESULT, the fill flag consumed only when it reads 2, and PAST_END by the consumed positions
alone. Every other register, buffer and byte stays. -/
def Obligations.DcdecAccumulatesDelta : Prop :=
  ∀ (s : State) (p : Plane), ∃ t, exec (.dcdec p) s = .next t ∧
    SameButPage { s with dc := t.dc, result := t.result, pos := t.pos, status := t.status } t ∧
    (∀ q : Plane, q ≠ p → t.dc[q] = s.dc[q]) ∧
    t.status = { s.status with
      busy := false, done := true, fill := t.status.fill, pastEnd := t.status.pastEnd } ∧
    (Readable s →
      let e := s.rom.dcJump[streamField s s.pos.toNat 8 % 256]'(Nat.mod_lt _ (by decide))
      let p1 := s.pos + BitVec.ofNat 32 e.skip.val
      let v := streamField s p1.toNat e.extra.val
      let delta : Int :=
        if e.extra.val = 0 then 0 else if v < 2 ^ (e.extra.val - 1) then (v : Int) - (2 ^ e.extra.val - 1) else v
      let p2 := p1 + BitVec.ofNat 32 e.extra.val
      let flag := decide (streamField s p2.toNat 2 = 2)
      let p3 := if flag then p2 + 2 else p2
      streamField s s.pos.toNat 8 < 256 ∧ t.dc[p] = s.dc[p] + BitVec.ofInt 32 delta ∧
        t.result = BitVec.ofInt 32 delta ∧ t.pos = p3 ∧ t.status.fill = flag ∧
        t.status.pastEnd = (s.status.pastEnd || past s p1.toNat || past s p2.toNat || (flag && past s p3.toNat)))

/-- For 1 ≤ n ≤ 24 the delta of an n-bit field lies in `[-(2^n - 1), -2^(n-1)] ∪ [2^(n-1), 2^n - 1]`, and it is
negative exactly when the top bit is clear (43_plane.md rule R142). -/
def Obligations.DcDeltaRange : Prop :=
  ∀ n v : Nat, 1 ≤ n → n ≤ 24 → v < 2 ^ n →
    (v < 2 ^ (n - 1) → -(2 ^ n - 1 : Int) ≤ dcDelta n v ∧ dcDelta n v ≤ -(2 ^ (n - 1) : Int)) ∧
    (2 ^ (n - 1) ≤ v → (2 ^ (n - 1) : Int) ≤ dcDelta n v ∧ dcDelta n v ≤ (2 ^ n - 1 : Int))

/-- FILL writes `wrap32(DC_P · 2^16)` to the 64 samples of plane P and completes; nothing else changes
(43_plane.md rule R145). -/
def Obligations.FillWritesDcToPlane : Prop :=
  ∀ (s : State) (p : Plane), ∃ t, exec (.fill p) s = .next t ∧
    (∀ i : Fin 64, t.plane[p][i] = some (BitVec.ofInt 32 (s.dc[p].toInt * 65536))) ∧
    (∀ q : Plane, q ≠ p → t.plane[q] = s.plane[q]) ∧
    t = { s with plane := t.plane, status := { s.status with done := true, busy := false } }

/-- PLANE of a fill block (43_plane.md rule R146): as DCDEC, then all 64 samples are `DC_P << 16`; COEF and TMP are not
written; DONE is set once at the end. -/
def Obligations.PlaneFillPath : Prop :=
  ∀ (s : State) (p : Plane), (dcdec p s).status.fill = true →
    ∃ t, exec (.plane p) s = .next t ∧ (∀ i : Fin 64, t.plane[p][i] = some ((dcdec p s).dc[p] <<< 16)) ∧
      (∀ q : Plane, q ≠ p → t.plane[q] = s.plane[q]) ∧ t.coef = s.coef ∧ t.tmp = s.tmp ∧
      t = { dcdec p s with plane := t.plane, status := { (dcdec p s).status with done := true, busy := false } }

/-- PLANE of a coded block (43_plane.md rule R146), when the entropy decoder runs to its Terminal. Under
`ROW_OUT_STRIDE = 9` every sample of plane P is the separable transform of the coefficients (44_transform.md rule R165 (a)),
and TMP holds the row pass with its pad cells kept. Under `ROW_OUT_STRIDE = 8` (rule R166) it completes when TMP[64..70] hold
values, with the columns read from the skewed cells, and faults when one of them holds none. POS and RESULT are what the
entropy decoder left. -/
def Obligations.PlaneCodedPath : Prop :=
  ∀ (s u : State) (p : Plane), (dcdec p s).status.fill = false → EntRun 63 0 ((dcdec p s).initCoef p) u →
    ∃ b : Vector Word 64, (∀ i : Fin 64, u.coef[i] = some b[i]) ∧
      (s.rom.rowOutStride = .nine →
        ∃ t : State, exec (.plane p) s = .next t ∧
          (∀ k x : Fin 8, t.plane[p][8 * k.val + x.val] = some (separable s.rom b k x)) ∧
          (∀ q : Plane, q ≠ p → t.plane[q] = s.plane[q]) ∧
          (∀ r k : Fin 8, t.tmp[9 * r.val + k.val] = some (t8 s.rom (coefRow b r))[k]) ∧
          (∀ r : Fin 8, t.tmp[9 * r.val + 8] = s.tmp[9 * r.val + 8]) ∧
          t = { u with
            tmp := t.tmp, plane := t.plane, status := { u.status with done := true, busy := false } }) ∧
      (s.rom.rowOutStride = .eight →
        (∀ x : Vector Word 72, (∀ r k : Fin 8, x[8 * r.val + k.val] = (t8 s.rom (coefRow b r))[k]) →
          (∀ j : Fin 72, 64 ≤ j.val → j.val ≤ 70 → s.tmp[j] = some x[j]) →
            ∃ t : State, exec (.plane p) s = .next t ∧
              (∀ k c : Fin 8, t.plane[p][8 * k.val + c.val] =
                some (t8 s.rom (Vector.ofFn fun r : Fin 8 => x[c.val + 9 * r.val]))[k]) ∧
              (∀ q : Plane, q ≠ p → t.plane[q] = s.plane[q]) ∧
              (∀ r k : Fin 8, t.tmp[8 * r.val + k.val] = some x[8 * r.val + k.val]) ∧
              (∀ j : Fin 72, 64 ≤ j.val → t.tmp[j] = s.tmp[j]) ∧
              t = { u with
                tmp := t.tmp, plane := t.plane, status := { u.status with done := true, busy := false } }) ∧
        ((∃ j : Fin 72, 64 ≤ j.val ∧ j.val ≤ 70 ∧ s.tmp[j] = none) → exec (.plane p) s = .fault .tmpNoValue))

/-- A PLANE that completes without an error consumes at most 2033 bits of the stream (30_encoding.md rule R85). -/
def Obligations.PlaneConsumesAtMost2033Bits : Prop :=
  ∀ (s t : State) (p : Plane), s.status.err = false → exec (.plane p) s = .next t → t.status.err = false →
    ∃ c, c ≤ 2033 ∧ t.pos = s.pos + BitVec.ofNat 32 c

/-! ## ENTDEC -/

/-- ENTDEC whose first control word is Terminal (42_entropy.md rules R119 and R127 (a)): COEF[0] is the scaled DC, the
other coefficients are 0, RESULT is 0, POS advances by the code's length; nothing else changes but the page. -/
def Obligations.EntdecTerminalFirst : Prop :=
  ∀ (s : State) (p : Plane) (cl : Fin 8) (len : Fin 18), Readable s →
    classOf (BitVec.ofNat 17 (streamField s s.pos.toNat 17)) = some cl →
    controlWord s.rom cl (BitVec.ofNat 17 (streamField s s.pos.toNat 17)) = .terminal len →
      ∃ t, exec (.entdec p) s = .next t ∧
        t.coef[0] = some (BitVec.ofInt 32 (s.dc[p].toInt * s.rom.scale[0].toInt)) ∧
        (∀ i : Fin 64, i ≠ 0 → t.coef[i] = some 0) ∧ t.result = 0 ∧ t.pos = s.pos + BitVec.ofNat 32 len.val ∧
        t.status = { s.status with
          busy := false, done := true,
          pastEnd := s.status.pastEnd || past s (s.pos + BitVec.ofNat 32 len.val).toNat } ∧
        SameButPage { s with coef := t.coef, result := t.result, pos := t.pos, status := t.status } t

/-- A run of codes to the Terminal is what ENTDEC does: its loop needs no more than its iterations, and it completes with
the state the run ends in (42_entropy.md rules R115 and R125). -/
def Obligations.EntdecFollowsCodes : Prop :=
  ∀ (s t : State) (p : Plane), EntRun 63 0 (s.initCoef p) t →
    exec (.entdec p) s = .next { t with status := { t.status with done := true, busy := false } }

/-- ENTDEC always ends (42_entropy.md rule R124): it runs to a Terminal or to a code that raises; a run to the Terminal
made at most 63 stores with `RUN_ORDER = BEFORE` and at most 64 with `AFTER`, RESULT counts them (rule R125), and every
COEF cell holds a value (rule R127 (h)). -/
def Obligations.EntdecTerminates : Prop :=
  ∀ (s : State) (p : Plane),
    ((∃ t, EntRun 63 0 (s.initCoef p) t) ∨
      ∃ code start, (code = .noCode ∨ code = .posUnderflow) ∧ EntErr 63 (s.initCoef p) code start) ∧
    ∀ t, EntRun 63 0 (s.initCoef p) t →
      t.result.toNat ≤ (match s.rom.runOrder with | .before => 63 | .after => 64) ∧
      ∀ i : Fin 64, ∃ v, t.coef[i] = some v

/-- A table code (42_entropy.md rules R120, R122 and R123): the sign is the stream bit after the code, the coefficient
goes to the output index of the counter, POS passes the code and its sign bit; a counter below 0 at the lookup raises
POS_UNDERFLOW at the code's start. -/
def Obligations.TableCodeStoresCoefficient : Prop :=
  ∀ (s : State) (k : Int) (cl : Fin 8) (lenPred : Fin 16) (mag : BitVec 31) (runPred : Nat), Readable s → k ≤ 63 →
    classOf (BitVec.ofNat 17 (streamField s s.pos.toNat 17)) = some cl →
    controlWord s.rom cl (BitVec.ofNat 17 (streamField s s.pos.toNat 17)) = .table lenPred mag runPred →
      let len := lenPred.val + 1
      let val : Int := if streamBit s (s.pos.toNat + len) = s.rom.signNeg then -(mag.toNat : Int) else mag.toNat
      (lookupAt s.rom k (runPred + 1) < 0 → ∃ t, entStep k s = .err .posUnderflow s.pos t) ∧
      (∀ j : Fin 64, lookupAt s.rom k (runPred + 1) = (j.val : Int) →
        ∃ t, entStep k s = .stored (k - (runPred + 1 : Nat)) t ∧
          t.coef = s.coef.set s.rom.idx[j] (some (BitVec.ofInt 32 (val * s.rom.scale[s.rom.idx[j]].toInt))) ∧
          t.pos = s.pos + BitVec.ofNat 32 (len + 1) ∧
          t.status = { s.status with
            pastEnd := s.status.pastEnd || past s (s.pos + BitVec.ofNat 32 (len + 1)).toNat } ∧
          SameButPage { s with coef := t.coef, pos := t.pos, status := t.status } t)

/-- An escape code (42_entropy.md rules R121 to R123): the value is `ESC_VAL` of the `extra` bits after the code, the
coefficient goes to the output index of the counter, POS passes the code and the bits. -/
def Obligations.EscapeCodeStoresCoefficient : Prop :=
  ∀ (s : State) (k : Int) (cl : Fin 8) (len : Fin 18) (ex : Fin 7) (runPred : Nat), Readable s → k ≤ 63 →
    classOf (BitVec.ofNat 17 (streamField s s.pos.toNat 17)) = some cl →
    controlWord s.rom cl (BitVec.ofNat 17 (streamField s s.pos.toNat 17)) = .escape len ex runPred →
      let extra := ex.val + 8
      let p1 := s.pos + BitVec.ofNat 32 len.val
      let val : Int := (evalFn (BitVec.ofNat 32 (streamField s p1.toNat extra)) s.rom.escVal[ex]).toInt
      (lookupAt s.rom k (runPred + 1) < 0 → ∃ t, entStep k s = .err .posUnderflow s.pos t) ∧
      (∀ j : Fin 64, lookupAt s.rom k (runPred + 1) = (j.val : Int) →
        ∃ t, entStep k s = .stored (k - (runPred + 1 : Nat)) t ∧
          t.coef = s.coef.set s.rom.idx[j] (some (BitVec.ofInt 32 (val * s.rom.scale[s.rom.idx[j]].toInt))) ∧
          t.pos = p1 + BitVec.ofNat 32 extra ∧
          t.status.pastEnd =
            (s.status.pastEnd || past s p1.toNat || past s (p1 + BitVec.ofNat 32 extra).toNat) ∧
          SameButPage { s with
            coef := t.coef, pos := t.pos, status := { s.status with pastEnd := t.status.pastEnd } } t)

/-- A code that raises stops ENTDEC with its position as ERRINFO (60_exceptions.md rules R202, R205, R206, R209); after it
COEF holds no value, and nothing is said of POS, RESULT and PAST_END (rule R210). What ENTDEC could not write stays. -/
def Obligations.EntdecReportsDataError : Prop :=
  ∀ (s : State) (p : Plane) (code : ErrCode) (start : Word), EntErr 63 (s.initCoef p) code start →
    ∃ t, exec (.entdec p) s = .next t ∧ (code = .noCode ∨ code = .posUnderflow) ∧ t.errinfo = start ∧
      t.status = { s.status with busy := false, err := true, code := code, pastEnd := t.status.pastEnd } ∧
      (∀ i : Fin 64, t.coef[i] = none) ∧
      SameButPage { s with
        coef := t.coef, pos := t.pos, result := t.result, status := t.status, errinfo := t.errinfo } t

/-- The classes of a 17-bit peek by their thresholds (30_encoding.md rule R84), and the raise below the last one: a peek
below 0x20 has no class, and ENTDEC raises NO_CODE at POS (42_entropy.md rule R118). -/
def Obligations.EntdecNoCodeBelow0x20 : Prop :=
  (∀ r : BitVec 17,
    (classOf r = some 0 ↔ 0x8000 ≤ r.toNat) ∧
    (classOf r = some 1 ↔ 0x800 ≤ r.toNat ∧ r.toNat < 0x8000) ∧
    (classOf r = some 2 ↔ 0x400 ≤ r.toNat ∧ r.toNat < 0x800) ∧
    (classOf r = some 3 ↔ 0x200 ≤ r.toNat ∧ r.toNat < 0x400) ∧
    (classOf r = some 4 ↔ 0x100 ≤ r.toNat ∧ r.toNat < 0x200) ∧
    (classOf r = some 5 ↔ 0x80 ≤ r.toNat ∧ r.toNat < 0x100) ∧
    (classOf r = some 6 ↔ 0x40 ≤ r.toNat ∧ r.toNat < 0x80) ∧
    (classOf r = some 7 ↔ 0x20 ≤ r.toNat ∧ r.toNat < 0x40) ∧
    (classOf r = none ↔ r.toNat < 0x20)) ∧
  ∀ (s : State) (p : Plane), Readable s →
    (streamField s s.pos.toNat 17 < 0x20 ↔
      ∃ t, entStep 63 (s.initCoef p) = .err .noCode s.pos t) ∧
    (streamField s s.pos.toNat 17 < 0x20 →
      ∃ t, exec (.entdec p) s = .next t ∧ t.status.err = true ∧ t.status.code = .noCode ∧ t.errinfo = s.pos)

/-! ## The transform -/

/-- `MulSqrtHalf(v)` is exactly `floor(v · K / 2^32)`, the product fits in 64 bits, and the 64-bit form of
44_transform.md rule R162 gives the same; it rounds toward minus infinity. -/
def Obligations.MulSqrtHalfIsFloor : Prop :=
  ∀ k v : Word,
    (-(2 ^ 63 : Int) < v.toInt * k.toNat ∧ v.toInt * k.toNat < (2 ^ 63 : Int)) ∧
    (mulSqrtHalf k v).toInt = (v.toInt * k.toNat).fdiv (2 ^ 32) ∧
    mulSqrtHalf k v = ((v.signExtend 64 * k.setWidth 64).sshiftRight 32).setWidth 32 ∧
    (k ≠ 0 → mulSqrtHalf k (-1) = -1)

/-- IDCTR applies the kernel to the eight rows of COEF and stores row r at `TMP[stride·r + k]`; the other cells of TMP and
everything else stay (44_transform.md rule R163). -/
def Obligations.IdctrTransformsRows : Prop :=
  ∀ (s : State) (b : Vector Word 64), (∀ i : Fin 64, s.coef[i] = some b[i]) →
    ∃ t, exec .idctr s = .next t ∧
      (∀ (r k : Fin 8) (j : Fin 72), j.val = strideOf s.rom * r.val + k.val →
        t.tmp[j] = some (t8 s.rom (coefRow b r))[k]) ∧
      (∀ j : Fin 72, (∀ r k : Fin 8, j.val ≠ strideOf s.rom * r.val + k.val) → t.tmp[j] = s.tmp[j]) ∧
      t = { s with tmp := t.tmp, status := { s.status with done := true, busy := false } }

/-- IDCTC applies the kernel to the eight columns `TMP[c + 9j]` and writes output k of column c to `PLANE[P][8k + c]`;
everything else stays (44_transform.md rule R164). -/
def Obligations.IdctcTransformsColumns : Prop :=
  ∀ (s : State) (p : Plane) (x : Vector (Vector Word 8) 8),
    (∀ c j : Fin 8, s.tmp[c.val + 9 * j.val] = some x[c][j]) →
      ∃ t, exec (.idctc p) s = .next t ∧
        (∀ k c : Fin 8, t.plane[p][8 * k.val + c.val] = some (t8 s.rom x[c])[k]) ∧
        (∀ q : Plane, q ≠ p → t.plane[q] = s.plane[q]) ∧
        t = { s with plane := t.plane, status := { s.status with done := true, busy := false } }

/-- Under `ROW_OUT_STRIDE = 9` IDCTR and then IDCTC compute the separable transform (44_transform.md rule R165 (a)). -/
def Obligations.TransformIsSeparable : Prop :=
  ∀ (s : State) (p : Plane) (b : Vector Word 64), s.rom.rowOutStride = .nine → (∀ i : Fin 64, s.coef[i] = some b[i]) →
    ∃ u t, exec .idctr s = .next u ∧ exec (.idctc p) u = .next t ∧
      ∀ k x : Fin 8, t.plane[p][8 * k.val + x.val] = some (separable s.rom b k x)

/-- Under `ROW_OUT_STRIDE = 8` IDCTR leaves `TMP[64..71]` alone, so an IDCTC after it faults when one of `TMP[64..70]`
holds no value (44_transform.md rule R166). -/
def Obligations.StrideEightLeavesCells : Prop :=
  ∀ (s : State) (p : Plane) (b : Vector Word 64), s.rom.rowOutStride = .eight →
    (∀ i : Fin 64, s.coef[i] = some b[i]) →
      ∃ u, exec .idctr s = .next u ∧ (∀ j : Fin 72, 64 ≤ j.val → u.tmp[j] = s.tmp[j]) ∧
        (∀ j : Fin 64, u.tmp[j.val] = some (t8 s.rom (coefRow b ⟨j.val / 8, by omega⟩))[j.val % 8]) ∧
        ((∃ j : Fin 72, 64 ≤ j.val ∧ j.val ≤ 70 ∧ s.tmp[j] = none) → exec (.idctc p) u = .fault .tmpNoValue)

/-- A command that reads a cell holding no value faults, and a host read of such a cell does not (60_exceptions.md
rule R212): IDCTR reading COEF, IDCTC reading TMP, CCONV reading PLANE, WRBLK reading an unclipped PIX. -/
def Obligations.MissingValueFaults : Prop :=
  (∀ s : State, (∃ i : Fin 64, s.coef[i] = none) → exec .idctr s = .fault .coefNoValue) ∧
  (∀ (s : State) (p : Plane), (∃ c j : Fin 8, s.tmp[c.val + 9 * j.val] = none) →
    exec (.idctc p) s = .fault .tmpNoValue) ∧
  (∀ s : State, (∃ (q : Plane) (i : Fin 64), (q ≠ 3 ∨ s.ctrl.alpha = true) ∧ s.plane[q][i] = none) →
    exec .cconv s = .fault .planeNoValue) ∧
  (∀ s : State, TileInImage s → (∃ i : Fin 64, s.pixelInside i = true ∧ s.pix[i] = none) →
    exec .wrblk s = .fault .pixNoValue) ∧
  (∀ (s : State) (r : PortReg), ∃ v, s.portRead r = { s with portData := v, draws := s.draws + 1 })

/-! ## Colour conversion, tiles, blocks and images -/

/-- CCONV (45_block.md rules R175 to R178): each channel of each pixel is the clamped, shifted, wrapped sum; the alpha is
the clamped `ALPHA_CONV` of PLANE[3], or 255 without reading it when CTRL.ALPHA = 0; everything else stays. -/
def Obligations.CconvConvertsPixels : Prop :=
  ∀ (s : State) (y : Vector (Vector Word 64) 4),
    (∀ (q : Plane) (i : Fin 64), q ≠ 3 ∨ s.ctrl.alpha = true → s.plane[q][i] = some y[q][i]) →
      ∃ (t : State) (w : Vector Word 64), exec .cconv s = .next t ∧
        t = { s with pix := w.map some, status := { s.status with done := true, busy := false } } ∧
        ∀ i : Fin 64,
          (∀ ch : Fin 3, ((w[i].extractLsb' (8 * ch.val) 8).toNat : Int) =
            min (max ((ccMul s.rom ch 0 y[0][i] + ccMul s.rom ch 1 y[1][i] + ccMul s.rom ch 2 y[2][i]
              + s.rom.ccBias).toInt.fdiv 65536) 0) 255) ∧
          (s.ctrl.alpha = true →
            ((w[i].extractLsb' 24 8).toNat : Int) = min (max (alphaConv s.rom y[3][i]).toInt 0) 255) ∧
          (s.ctrl.alpha = false → w[i].extractLsb' 24 8 = 255)

/-- WRBLK (45_block.md rules R179 to R181): the bytes of each pixel inside the image are the pixel's bytes R, G, B, A at
ascending addresses from `pixelAddr`, every other byte of the destination stays, the tile advances in raster order, and
every other register and buffer stays. BLK_Y has 13 bits (log entry 18). -/
def Obligations.WrblkWritesTile : Prop :=
  ∀ (s : State) (v : Vector Word 64), s.dst.wf = true → TileInImage s →
    (∀ i : Fin 64, s.pixelInside i = true → s.pix[i] = some v[i]) →
      ∃ t, exec .wrblk s = .next t ∧
        (∀ i : Fin 64, s.pixelInside i = true → ∀ k : Fin 4,
          t.dst.read (byteAddr (s.pixelAddr i) k) = v[i].extractLsb' (8 * k.val) 8) ∧
        (∀ a : Nat, (∀ i : Fin 64, s.pixelInside i = true → ∀ k : Fin 4, a ≠ byteAddr (s.pixelAddr i) k) →
          t.dst.read a = s.dst.read a) ∧
        (s.blkX.toNat + 1 = (s.imgW.toNat + 7) / 8 → t.blkX = 0 ∧ t.blkY = s.blkY + 1) ∧
        (s.blkX.toNat + 1 ≠ (s.imgW.toNat + 7) / 8 → t.blkX = s.blkX + 1 ∧ t.blkY = s.blkY) ∧
        t = { s with
          dst := t.dst, raced := t.raced, blkX := t.blkX, blkY := t.blkY,
          status := { s.status with done := true, busy := false } }

/-- The geometry checks (45_block.md rule R184, 60_exceptions.md rules R207 and R209): WRBLK and BLOCK raise IMG_GEOM for
an empty image or a tile outside it, IMAGE for an empty image, before any effect, with the geometry word as ERRINFO. -/
def Obligations.GeometryIsChecked : Prop :=
  ∀ s : State,
    let raised (info : Word) : State :=
      { s with status := { s.status with err := true, code := .imgGeom, busy := false }, errinfo := info }
    (s.imgW.toNat = 0 ∨ s.imgH.toNat = 0 → ∀ i : Instr, i = .wrblk ∨ i = .block ∨ i = .image →
      exec i s = .next (raised (s.imgH.setWidth 32 <<< 16 ||| s.imgW.setWidth 32))) ∧
    (s.imgW.toNat ≠ 0 → s.imgH.toNat ≠ 0 →
      (s.imgW.toNat + 7) / 8 ≤ s.blkX.toNat ∨ (s.imgH.toNat + 7) / 8 ≤ s.blkY.toNat →
      ∀ i : Instr, i = .wrblk ∨ i = .block →
        exec i s = .next (raised (0x80000000#32 ||| s.blkY.setWidth 32 <<< 16 ||| s.blkX.setWidth 32)))

/-- BLOCK (45_block.md rule R182): when the planes of the block are decoded, it completes. Every pixel is the conversion of
the samples the planes left, by CTRL.ALPHA (rules R176 to R178), the bytes of the pixels inside the image are in the
destination and no other byte changes, the tile advances, and everything else is what the planes left. BLK_Y has 13 bits
(log entry 18). -/
def Obligations.BlockDecodesAndWrites : Prop :=
  ∀ s d : State, s.dst.wf = true → TileInImage s → PlanesRun s d →
    ∃ (t : State) (w : Vector Word 64) (y : Vector (Vector Word 64) 4), exec .block s = .next t ∧
      t.pos = d.pos ∧ t.result = d.result ∧ t.dc = d.dc ∧ t.plane = d.plane ∧
      t.status = { d.status with done := true, busy := false } ∧
      (∀ (q : Plane) (i : Fin 64), q ≠ 3 ∨ s.ctrl.alpha = true → d.plane[q][i] = some y[q][i]) ∧
      (∀ i : Fin 64, t.pix[i] = some w[i] ∧ PixelOf s y[0][i] y[1][i] y[2][i] y[3][i] w[i]) ∧
      (∀ i : Fin 64, s.pixelInside i = true → ∀ k : Fin 4,
        t.dst.read (byteAddr (s.pixelAddr i) k) = w[i].extractLsb' (8 * k.val) 8) ∧
      (∀ a : Nat, (∀ i : Fin 64, s.pixelInside i = true → ∀ k : Fin 4, a ≠ byteAddr (s.pixelAddr i) k) →
        t.dst.read a = s.dst.read a) ∧
      (s.blkX.toNat + 1 = (s.imgW.toNat + 7) / 8 → t.blkX = 0 ∧ t.blkY = s.blkY + 1) ∧
      (s.blkX.toNat + 1 ≠ (s.imgW.toNat + 7) / 8 → t.blkX = s.blkX + 1 ∧ t.blkY = s.blkY) ∧
      t = { d with
        pix := t.pix, dst := t.dst, raced := t.raced, blkX := t.blkX, blkY := t.blkY, status := t.status }

/-- IMAGE (45_block.md rule R183): it zeroes the DC accumulators and the tile and invalidates the page, keeps POS, and
when its `ceil(W/8) · ceil(H/8)` blocks run one after the other it completes with the state they end in. -/
def Obligations.ImageDecodesBlocks : Prop :=
  ∀ s t : State, s.imgW.toNat ≠ 0 → s.imgH.toNat ≠ 0 →
    BlocksRun ((s.imgW.toNat + 7) / 8 * ((s.imgH.toNat + 7) / 8))
      { s with dc := Vector.replicate 4 0, blkX := 0, blkY := 0, pageValid := false } t →
      exec .image s = .next { t with status := { t.status with done := true, busy := false } }

/-- A data error in a plane step aborts PLANE, BLOCK and IMAGE with the position of its code (43_plane.md rule R146,
45_block.md rules R182 and R183, 60_exceptions.md rule R202): the destination space holds exactly the writes of the blocks
that completed before (rule R210), and the buffers the command could write hold no value: COEF, TMP and PLANE[P] for PLANE,
and PIX and the planes of a block as well for BLOCK and IMAGE. Which buffers a command could write, and that all of TMP
loses its values, is the model's reading (log entries 11 and 31). -/
def Obligations.DataErrorAbortsBlock : Prop :=
  ∀ (s : State) (code : ErrCode) (start : Word),
    (∀ p : Plane, PlaneErr p s code start → ∃ t, exec (.plane p) s = .next t ∧ Recorded s t code start ∧
      t.dst = s.dst ∧ t.pix = s.pix ∧ (∀ i : Fin 64, t.coef[i] = none ∧ t.plane[p][i] = none) ∧
      ∀ i : Fin 72, t.tmp[i] = none) ∧
    (TileInImage s → PlanesErr s code start → ∃ t, exec .block s = .next t ∧ Recorded s t code start ∧
      t.dst = s.dst ∧ t.ctrl = s.ctrl ∧ BlockBuffersEmpty t) ∧
    (∀ (n : Nat) (d : State), n < (s.imgW.toNat + 7) / 8 * ((s.imgH.toNat + 7) / 8) →
      BlocksRun n { s with dc := Vector.replicate 4 0, blkX := 0, blkY := 0, pageValid := false } d →
      PlanesErr d code start → ∃ t, exec .image s = .next t ∧ Recorded s t code start ∧ t.dst = d.dst ∧
        t.ctrl = s.ctrl ∧ BlockBuffersEmpty t)

/-- WRBLK, BLOCK and IMAGE store inside the image only, whenever they answer a next state, an error recorded or not
(45_block.md rule R180): every byte outside the packed `IMG_W · IMG_H · 4` bytes from DST_BASE keeps its value. -/
def Obligations.StoresStayInsideImage : Prop :=
  ∀ (i : Instr) (s t : State), storesPixels i = true → s.dst.wf = true → exec i s = .next t →
    ∀ a : Nat, (∀ px py : Nat, px < s.imgW.toNat → py < s.imgH.toNat → ∀ k : Fin 4,
      a ≠ byteAddr (s.dstBase + BitVec.ofNat 32 (4 * (py * s.imgW.toNat + px))) k) →
      t.dst.read a = s.dst.read a

/-- A decode does not depend on what an earlier session left (70_reset_and_hazards.md rule R231): under
`ROW_OUT_STRIDE = 9`, IMAGE from states with the same POS and STATUS that differ in the DC accumulators, the tile, RESULT,
ERRINFO, ARG0, the page and the buffers writes the same bytes and ends at the same POS with the same DC accumulators. Under
`ROW_OUT_STRIDE = 8` nothing is said: IDCTC then reads cells of TMP that an earlier session left (44_transform.md
rule R166). -/
def Obligations.ImageForgetsEarlierSession : Prop :=
  ∀ (s s' t : State), s.rom.rowOutStride = .nine → s.status.err = false →
    s' = { s with
      dc := s'.dc, blkX := s'.blkX, blkY := s'.blkY, result := s'.result, errinfo := s'.errinfo, arg0 := s'.arg0,
      coef := s'.coef, tmp := s'.tmp, plane := s'.plane, pix := s'.pix, pageValid := s'.pageValid,
      pageBase := s'.pageBase, page := s'.page, memReads := s'.memReads } →
    exec .image s = .next t → t.status.err = false →
      ∃ t', exec .image s' = .next t' ∧ t'.dst = t.dst ∧ t'.pos = t.pos ∧ t'.dc = t.dc ∧ t'.status = t.status

/-! ## The whole machine -/

/-- The configuration behaves as ROM: no step changes it, reset and host actions included (10_state.md rule R40,
70_reset_and_hazards.md rule R242). -/
def Obligations.ConfigurationNeverChanges : Prop :=
  ∀ s t : State, step s = .next t → t.rom = s.rom

/-- What no command writes, the source space among it, and which commands alone write each register, each buffer, the page
and the destination space (10_state.md rules R25 to R36, 20_memory.md rules R50, R55, R57 and R62, 43_plane.md rule R147).
A command that completes keeps ERRINFO unless it is SRST (10_state.md rule R32), and a PAST_END that is set (rule R23); ERR
and ERRCODE change only by SRST and by the commands that can raise. After a data error, what a command could write is the
model's reading (60_exceptions.md rule R210, log entry 11): so for DC3 of a BLOCK without alpha. RESULT is written by SRST
too (log entry 32). -/
def Obligations.CommandFootprints : Prop :=
  ∀ (i : Instr) (s t : State), exec i s = .next t →
    (t.ctrl = s.ctrl ∧ t.cmd = s.cmd ∧ t.arg0 = s.arg0 ∧ t.winOrg = s.winOrg ∧ t.winLen = s.winLen ∧
      t.imgW = s.imgW ∧ t.imgH = s.imgH ∧ t.dstBase = s.dstBase ∧ t.rom = s.rom ∧ t.src = s.src ∧
      t.inReset = s.inReset ∧ t.inputs = s.inputs ∧ t.portData = s.portData ∧ t.lateW1C = s.lateW1C ∧ t.lateOvr = s.lateOvr) ∧
    (storesPixels i = false → t.dst = s.dst) ∧ (i ≠ .srst → t.status.ovr = s.status.ovr) ∧
    (movesPos i = false → t.pos = s.pos) ∧ (writesResult i = false → t.result = s.result) ∧
    (writesCoef i = false → t.coef = s.coef) ∧ (writesTmp i = false → t.tmp = s.tmp) ∧
    (∀ q : Plane, writesPlane q i = false → t.plane[q] = s.plane[q]) ∧
    (∀ q : Plane, writesDc q i = false → t.dc[q] = s.dc[q]) ∧
    (writesPix i = false → t.pix = s.pix) ∧ (writesBlk i = false → t.blkX = s.blkX ∧ t.blkY = s.blkY) ∧
    (writesFill i = false → t.status.fill = s.status.fill) ∧
    (writesPastEnd i = false → t.status.pastEnd = s.status.pastEnd) ∧
    (i ≠ .srst → t.status.err = false → t.errinfo = s.errinfo ∧ (s.status.pastEnd = true → t.status.pastEnd = true)) ∧
    (i ≠ .srst → canRaise i = false →
      t.errinfo = s.errinfo ∧ t.status.err = s.status.err ∧ t.status.code = s.status.code) ∧
    (touchesPage i = false → t.pageValid = s.pageValid ∧ t.pageBase = s.pageBase ∧ t.page = s.page) ∧
    (i = .block → s.ctrl.alpha = false → t.plane[3] = s.plane[3] ∧ t.dc[3] = s.dc[3])

/-! ## Reset and the register port -/

/-- The state after reset (10_state.md rule R41). -/
def Obligations.ResetValues : Prop :=
  let s := State.reset
  s.ctrl.word = 0 ∧ s.status.word = 0 ∧ s.cmd = 0 ∧ s.arg0 = 0 ∧ s.result = 0 ∧ s.pos = 0 ∧ s.winOrg = 0 ∧
  s.winLen = 0 ∧ s.imgW = 0 ∧ s.imgH = 0 ∧ s.dstBase = 0 ∧ s.blkX = 0 ∧ s.blkY = 0 ∧ s.errinfo = 0 ∧
  (∀ p : Plane, s.dc[p] = 0) ∧ s.regValue 0 .ident = 0x54434843 ∧ s.regValue 0 .version = 0x00000001 ∧
  s.pageValid = false ∧ (∀ i : Fin 64, s.coef[i] = none) ∧ (∀ i : Fin 72, s.tmp[i] = none) ∧
  (∀ (p : Plane) (i : Fin 64), s.plane[p][i] = none) ∧ (∀ i : Fin 64, s.pix[i] = none) ∧ s.irq = false

/-- Asserting reset, also while a command runs, gives the registers, buffers and page their reset values with neither
DONE nor ERR, reads and writes no source byte and keeps the configuration (70_reset_and_hazards.md rules R225 to R227);
while it is asserted port accesses change nothing (log entry 17). Whatever the host does meanwhile, the core stays as reset
leaves it, and so it is when reset is released, with the engine idle (rule R225). -/
def Obligations.ResetInputStopsCommand : Prop :=
  (∀ (s : State) (early : Bool) (rest : List Input), s.engineTurn = false →
    s.inputs = { op := .reset true, early := early } :: rest →
      ∃ t, step s = .next t ∧ t.inReset = true ∧ t.status.done = false ∧ t.status.err = false ∧
        (s.status.busy = false → t.dst = s.dst) ∧ AsReset t ∧
        t = { State.reset with
          rom := s.rom, src := s.src, dst := t.dst, inReset := true, inputs := rest, portData := s.portData,
          draws := t.draws, memReads := s.memReads }) ∧
  (∀ (s : State) (off : BitVec 12) (n : Nat) (v : Word) (early : Bool) (rest : List Input), s.inReset = true →
    s.inputs = { op := .write off n v, early := early } :: rest ∨
      s.inputs = { op := .read off n, early := early } :: rest → step s = .next { s with inputs := rest }) ∧
  (∀ s t : State, s.inReset = true → AsReset s → step s = .next t → AsReset t) ∧
  (∀ (s : State) (early : Bool) (rest : List Input), s.inReset = true → AsReset s →
    s.inputs = { op := .reset false, early := early } :: rest →
      ∃ t, step s = .next t ∧ t = { s with inputs := rest, inReset := false } ∧ AsReset t ∧
        t.status.busy = false ∧ t.engineTurn = false ∧ t.irq = false)

/-- After a reset that cuts a command short, each destination byte holds its old value or the value the command would
have written, which is its value after the command where the command answers a next state
(70_reset_and_hazards.md rule R227). -/
def Obligations.ResetCutMixesBytes : Prop :=
  ∀ (s t : State) (i : Instr) (rest : List Input), s.dst.wf = true → s.status.busy = true → decode s.cmd = .ok i →
    s.inputs = { op := .reset true, early := true } :: rest → step s = .next t →
      (∀ a, t.dst.read a = s.dst.read a ∨ t.dst.read a = (commandDst i { s with inputs := rest }).read a) ∧
      (∀ u, exec i { s with inputs := rest } = .next u →
        ∀ a, (commandDst i { s with inputs := rest }).read a = u.dst.read a)

/-- The port (20_memory.md rule R69): an aligned 32-bit read changes nothing but the returned word, which is the
register's value whenever the core is idle; an access of another width or alignment is refused. -/
def Obligations.PortAccessRules : Prop :=
  (∀ (s : State) (off : BitVec 12) (early : Bool) (rest : List Input), s.engineTurn = false → s.inReset = false →
    s.inputs = { op := .read off 4, early := early } :: rest → off.toNat % 4 = 0 →
      ∃ t, step s = .next t ∧ t = { s with inputs := rest, portData := t.portData, draws := t.draws } ∧
        (s.status.busy = false → t.portData = s.regValue (Config.freeWord s.draws) (portReg off)) ∧
        (off = 0x004 ∨ off = 0x038 ∨ off = 0x03C → t.portData = s.regValue 0 (portReg off))) ∧
  (∀ (s : State) (off : BitVec 12) (n : Nat) (v : Word) (early : Bool) (rest : List Input), s.engineTurn = false →
    s.inReset = false → n ≠ 4 ∨ off.toNat % 4 ≠ 0 →
    s.inputs = { op := .write off n v, early := early } :: rest ∨
      s.inputs = { op := .read off n, early := early } :: rest → step s = .refused .portAccess)

/-- Port writes while the core is idle. A write of a read-write register stores its defined bits, reserved bits read 0
(10_state.md rule R21), and every other register, buffer and space stays; a write of a read-only register or a reserved
offset changes nothing. A write of STATUS clears DONE, ERR with ERRCODE, PAST_END and OVR where it holds a 1 and leaves BUSY
and FILL (rule R23). The bits of CTRL and STATUS stand at the places of rules R22 and R23, and the error codes have the
numbers of 60_exceptions.md rule R201. That a write of WIN_ORG or WIN_LEN ends the session is log entry 15. -/
def Obligations.PortStoresDefinedBits : Prop :=
  (∀ (s : State) (v : Word) (r : PortReg), s.status.busy = false →
    (isReadWrite r = true →
      (∀ free, (s.portWrite r v).regValue free r = v &&& definedBits r) ∧
      (∀ (r' : PortReg) (free : Word), r' ≠ r → (s.portWrite r v).regValue free r' = s.regValue free r') ∧
      (r ≠ .winOrg → r ≠ .winLen → (s.portWrite r v).pageValid = s.pageValid ∧
        (s.portWrite r v).raced = s.raced ∧ (s.portWrite r v).session = s.session) ∧
      ∃ t, s.portWrite r v = t ∧ t = { s with
        ctrl := t.ctrl, arg0 := t.arg0, pos := t.pos, winOrg := t.winOrg, winLen := t.winLen, imgW := t.imgW,
        imgH := t.imgH, dstBase := t.dstBase, blkX := t.blkX, blkY := t.blkY, dc := t.dc, coef := t.coef, tmp := t.tmp,
        plane := t.plane, pix := t.pix, pageValid := t.pageValid, raced := t.raced, session := t.session }) ∧
    (r = .result ∨ r = .errinfo ∨ r = .ident ∨ r = .version ∨ r = .reserved → s.portWrite r v = s) ∧
    s.portWrite .status v = { s with status := { s.status with
      done := s.status.done && !v.getLsbD 1
      err := s.status.err && !v.getLsbD 2
      code := if v.getLsbD 2 then .none else s.status.code
      pastEnd := s.status.pastEnd && !v.getLsbD 3
      ovr := s.status.ovr && !v.getLsbD 5 } }) ∧
  (∀ (s : State) (v : Word), s.status.busy = false →
    (s.portWrite .ctrl v).ctrl.ie = v.getLsbD 0 ∧ (s.portWrite .ctrl v).ctrl.alpha = v.getLsbD 1) ∧
  (∀ (s : State) (free : Word),
    let c := s.regValue free .ctrl
    let t := s.regValue free .status
    (c.getLsbD 0 = s.ctrl.ie ∧ c.getLsbD 1 = s.ctrl.alpha ∧ c &&& 0xFFFFFFFC = 0) ∧
    (t.getLsbD 0 = s.status.busy ∧ t.getLsbD 1 = s.status.done ∧ t.getLsbD 2 = s.status.err ∧
      t.getLsbD 3 = s.status.pastEnd ∧ t.getLsbD 4 = s.status.fill ∧ t.getLsbD 5 = s.status.ovr ∧
      t.extractLsb' 8 4 = s.status.code.toBits ∧ t &&& 0xFFFFF0C0 = 0)) ∧
  (ErrCode.none.toBits = 0 ∧ ErrCode.illegalCmd.toBits = 1 ∧ ErrCode.badField.toBits = 2 ∧ ErrCode.noCode.toBits = 3 ∧
    ErrCode.posUnderflow.toBits = 4 ∧ ErrCode.imgGeom.toBits = 5)

/-- The register map of 10_state.md rule R20: every offset of a register or a buffer cell selects it, and every other multiple
of 4 is reserved. -/
def Obligations.PortOffsetsMap : Prop :=
  portReg 0x000 = .ctrl ∧ portReg 0x004 = .status ∧ portReg 0x008 = .cmd ∧ portReg 0x00C = .arg0 ∧
  portReg 0x010 = .result ∧ portReg 0x014 = .pos ∧ portReg 0x018 = .winOrg ∧ portReg 0x01C = .winLen ∧
  portReg 0x020 = .imgW ∧ portReg 0x024 = .imgH ∧ portReg 0x028 = .dstBase ∧ portReg 0x02C = .blkX ∧
  portReg 0x030 = .blkY ∧ portReg 0x034 = .errinfo ∧ portReg 0x038 = .ident ∧ portReg 0x03C = .version ∧
  (∀ p : Plane, portReg (BitVec.ofNat 12 (0x040 + 4 * p.val)) = .dc p) ∧
  (∀ i : Fin 64, portReg (BitVec.ofNat 12 (0x100 + 4 * i.val)) = .coef i) ∧
  (∀ i : Fin 72, portReg (BitVec.ofNat 12 (0x200 + 4 * i.val)) = .tmp i) ∧
  (∀ (p : Plane) (i : Fin 64), portReg (BitVec.ofNat 12 (0x400 + 0x100 * p.val + 4 * i.val)) = .plane p i) ∧
  (∀ i : Fin 64, portReg (BitVec.ofNat 12 (0x800 + 4 * i.val)) = .pix i) ∧
  (∀ off : BitVec 12, (0x050 ≤ off.toNat ∧ off.toNat < 0x100) ∨ (0x320 ≤ off.toNat ∧ off.toNat < 0x400) ∨
    0x900 ≤ off.toNat → portReg off = .reserved)

/-- The page is invalid after a host write of WIN_ORG or WIN_LEN, after SRST, when reset is asserted and at the start of
IMAGE; no other command that completes makes it invalid (20_memory.md rule R59). -/
def Obligations.PageIsInvalidated : Prop :=
  ∀ s : State,
    (∀ v : Word, s.status.busy = false →
      (s.portWrite .winOrg v).pageValid = false ∧ (s.portWrite .winLen v).pageValid = false) ∧
    (∃ t, exec .srst s = .next t ∧ t.pageValid = false) ∧ s.assertReset.pageValid = false ∧
    s.startImage.pageValid = false ∧
    (∀ (i : Instr) (t : State), i ≠ .srst → i ≠ .image → s.pageValid = true → s.status.err = false →
      exec i s = .next t → t.status.err = false → t.pageValid = true)

/-- IRQ is the level `IE and (DONE or ERR)` (60_exceptions.md rule R211): it falls when every pending bit is written with
1, SRST takes the ERR away, an accepted command takes the DONE away, and it is 0 after reset. -/
def Obligations.IrqFollowsStatus : Prop :=
  (∀ s : State, s.irq = true ↔ s.ctrl.ie = true ∧ (s.status.done = true ∨ s.status.err = true)) ∧
  (∀ (s : State) (v : Word), (s.status.done = true → v.getLsbD 1 = true) →
    (s.status.err = true → v.getLsbD 2 = true) → (s.portWrite .status v).irq = false) ∧
  (∀ (s : State) (c : Word), s.status.busy = false → s.status.err = false → (s.portWrite .cmd c).irq = false) ∧
  (∀ s t : State, exec .srst s = .next t → t.status.err = false ∧ t.irq = s.ctrl.ie) ∧ State.reset.irq = false

/-! ## Invariants that every step keeps -/

/-- The state after reset meets the three invariants below. -/
def Obligations.ResetMeetsInvariants : Prop :=
  State.reset.MemoriesOk ∧ State.reset.PageOk ∧ State.reset.StatusOk

/-- Every step keeps both memories in their canonical form. -/
def Obligations.StepKeepsMemoriesCanonical : Prop :=
  ∀ s t : State, s.MemoriesOk → step s = .next t → t.MemoriesOk

/-- Every step keeps the page a copy of the window words while the source is stable, and else a page whose bytes are values
that the window bytes had in the session (20_memory.md rules R56 to R60; log entries 13 and 15). -/
def Obligations.StepKeepsPageTrue : Prop :=
  ∀ s t : State, s.PageOk → step s = .next t → t.PageOk

/-- Every step keeps the discipline of STATUS (10_state.md rule R23, 40_control.md rules R92 to R95). -/
def Obligations.StepKeepsStatusDiscipline : Prop :=
  ∀ s t : State, s.StatusOk → step s = .next t → t.StatusOk

/-- The page is invisible (20_memory.md rule R58, 41_bitreader.md rule R104): from states that differ in the page only,
each page a copy of the window, every command answers the same but for the page. -/
def Obligations.PageStateIsInvisible : Prop :=
  ∀ (i : Instr) (s s' : State), s.PageHolds → s'.PageHolds → forgetPage s = forgetPage s' →
    SameOutcome (exec i s) (exec i s')
end

