-- ==== Sys2Proof/Laws/State.lean ====
section
/-! SUPPORT. One lemma for each field that a named state update leaves alone, and the values of the fields it sets, so that
no later proof unfolds a record update. -/

namespace Sys2Proof.Machine

/-! ### `State.complete` -/

@[simp] theorem complete_ctrl (s : State) : s.complete.ctrl = s.ctrl := rfl
@[simp] theorem complete_cmd (s : State) : s.complete.cmd = s.cmd := rfl
@[simp] theorem complete_arg0 (s : State) : s.complete.arg0 = s.arg0 := rfl
@[simp] theorem complete_result (s : State) : s.complete.result = s.result := rfl
@[simp] theorem complete_pos (s : State) : s.complete.pos = s.pos := rfl
@[simp] theorem complete_winOrg (s : State) : s.complete.winOrg = s.winOrg := rfl
@[simp] theorem complete_winLen (s : State) : s.complete.winLen = s.winLen := rfl
@[simp] theorem complete_imgW (s : State) : s.complete.imgW = s.imgW := rfl
@[simp] theorem complete_imgH (s : State) : s.complete.imgH = s.imgH := rfl
@[simp] theorem complete_dstBase (s : State) : s.complete.dstBase = s.dstBase := rfl
@[simp] theorem complete_blkX (s : State) : s.complete.blkX = s.blkX := rfl
@[simp] theorem complete_blkY (s : State) : s.complete.blkY = s.blkY := rfl
@[simp] theorem complete_errinfo (s : State) : s.complete.errinfo = s.errinfo := rfl
@[simp] theorem complete_dc (s : State) : s.complete.dc = s.dc := rfl
@[simp] theorem complete_coef (s : State) : s.complete.coef = s.coef := rfl
@[simp] theorem complete_tmp (s : State) : s.complete.tmp = s.tmp := rfl
@[simp] theorem complete_plane (s : State) : s.complete.plane = s.plane := rfl
@[simp] theorem complete_pix (s : State) : s.complete.pix = s.pix := rfl
@[simp] theorem complete_pageValid (s : State) : s.complete.pageValid = s.pageValid := rfl
@[simp] theorem complete_pageBase (s : State) : s.complete.pageBase = s.pageBase := rfl
@[simp] theorem complete_page (s : State) : s.complete.page = s.page := rfl
@[simp] theorem complete_rom (s : State) : s.complete.rom = s.rom := rfl
@[simp] theorem complete_src (s : State) : s.complete.src = s.src := rfl
@[simp] theorem complete_dst (s : State) : s.complete.dst = s.dst := rfl
@[simp] theorem complete_inReset (s : State) : s.complete.inReset = s.inReset := rfl
@[simp] theorem complete_inputs (s : State) : s.complete.inputs = s.inputs := rfl
@[simp] theorem complete_portData (s : State) : s.complete.portData = s.portData := rfl
@[simp] theorem complete_lateW1C (s : State) : s.complete.lateW1C = s.lateW1C := rfl
@[simp] theorem complete_lateOvr (s : State) : s.complete.lateOvr = s.lateOvr := rfl
@[simp] theorem complete_draws (s : State) : s.complete.draws = s.draws := rfl
@[simp] theorem complete_memReads (s : State) : s.complete.memReads = s.memReads := rfl
@[simp] theorem complete_raced (s : State) : s.complete.raced = s.raced := rfl
@[simp] theorem complete_session (s : State) : s.complete.session = s.session := rfl

/-! ### `State.raise` -/

@[simp] theorem raise_ctrl (s : State) (code : ErrCode) (info : Word) : (s.raise code info).ctrl = s.ctrl := rfl
@[simp] theorem raise_cmd (s : State) (code : ErrCode) (info : Word) : (s.raise code info).cmd = s.cmd := rfl
@[simp] theorem raise_arg0 (s : State) (code : ErrCode) (info : Word) : (s.raise code info).arg0 = s.arg0 := rfl
@[simp] theorem raise_result (s : State) (code : ErrCode) (info : Word) : (s.raise code info).result = s.result := rfl
@[simp] theorem raise_pos (s : State) (code : ErrCode) (info : Word) : (s.raise code info).pos = s.pos := rfl
@[simp] theorem raise_winOrg (s : State) (code : ErrCode) (info : Word) : (s.raise code info).winOrg = s.winOrg := rfl
@[simp] theorem raise_winLen (s : State) (code : ErrCode) (info : Word) : (s.raise code info).winLen = s.winLen := rfl
@[simp] theorem raise_imgW (s : State) (code : ErrCode) (info : Word) : (s.raise code info).imgW = s.imgW := rfl
@[simp] theorem raise_imgH (s : State) (code : ErrCode) (info : Word) : (s.raise code info).imgH = s.imgH := rfl
@[simp] theorem raise_dstBase (s : State) (code : ErrCode) (info : Word) : (s.raise code info).dstBase = s.dstBase := rfl
@[simp] theorem raise_blkX (s : State) (code : ErrCode) (info : Word) : (s.raise code info).blkX = s.blkX := rfl
@[simp] theorem raise_blkY (s : State) (code : ErrCode) (info : Word) : (s.raise code info).blkY = s.blkY := rfl
@[simp] theorem raise_dc (s : State) (code : ErrCode) (info : Word) : (s.raise code info).dc = s.dc := rfl
@[simp] theorem raise_coef (s : State) (code : ErrCode) (info : Word) : (s.raise code info).coef = s.coef := rfl
@[simp] theorem raise_tmp (s : State) (code : ErrCode) (info : Word) : (s.raise code info).tmp = s.tmp := rfl
@[simp] theorem raise_plane (s : State) (code : ErrCode) (info : Word) : (s.raise code info).plane = s.plane := rfl
@[simp] theorem raise_pix (s : State) (code : ErrCode) (info : Word) : (s.raise code info).pix = s.pix := rfl
@[simp] theorem raise_pageValid (s : State) (code : ErrCode) (info : Word) : (s.raise code info).pageValid = s.pageValid := rfl
@[simp] theorem raise_pageBase (s : State) (code : ErrCode) (info : Word) : (s.raise code info).pageBase = s.pageBase := rfl
@[simp] theorem raise_page (s : State) (code : ErrCode) (info : Word) : (s.raise code info).page = s.page := rfl
@[simp] theorem raise_rom (s : State) (code : ErrCode) (info : Word) : (s.raise code info).rom = s.rom := rfl
@[simp] theorem raise_src (s : State) (code : ErrCode) (info : Word) : (s.raise code info).src = s.src := rfl
@[simp] theorem raise_dst (s : State) (code : ErrCode) (info : Word) : (s.raise code info).dst = s.dst := rfl
@[simp] theorem raise_inReset (s : State) (code : ErrCode) (info : Word) : (s.raise code info).inReset = s.inReset := rfl
@[simp] theorem raise_inputs (s : State) (code : ErrCode) (info : Word) : (s.raise code info).inputs = s.inputs := rfl
@[simp] theorem raise_portData (s : State) (code : ErrCode) (info : Word) : (s.raise code info).portData = s.portData := rfl
@[simp] theorem raise_lateW1C (s : State) (code : ErrCode) (info : Word) : (s.raise code info).lateW1C = s.lateW1C := rfl
@[simp] theorem raise_lateOvr (s : State) (code : ErrCode) (info : Word) : (s.raise code info).lateOvr = s.lateOvr := rfl
@[simp] theorem raise_draws (s : State) (code : ErrCode) (info : Word) : (s.raise code info).draws = s.draws := rfl
@[simp] theorem raise_memReads (s : State) (code : ErrCode) (info : Word) : (s.raise code info).memReads = s.memReads := rfl
@[simp] theorem raise_raced (s : State) (code : ErrCode) (info : Word) : (s.raise code info).raced = s.raced := rfl
@[simp] theorem raise_session (s : State) (code : ErrCode) (info : Word) : (s.raise code info).session = s.session := rfl

/-! ### `State.notePastEnd` -/

@[simp] theorem notePastEnd_ctrl (s : State) (b : Bool) : (s.notePastEnd b).ctrl = s.ctrl := rfl
@[simp] theorem notePastEnd_cmd (s : State) (b : Bool) : (s.notePastEnd b).cmd = s.cmd := rfl
@[simp] theorem notePastEnd_arg0 (s : State) (b : Bool) : (s.notePastEnd b).arg0 = s.arg0 := rfl
@[simp] theorem notePastEnd_result (s : State) (b : Bool) : (s.notePastEnd b).result = s.result := rfl
@[simp] theorem notePastEnd_pos (s : State) (b : Bool) : (s.notePastEnd b).pos = s.pos := rfl
@[simp] theorem notePastEnd_winOrg (s : State) (b : Bool) : (s.notePastEnd b).winOrg = s.winOrg := rfl
@[simp] theorem notePastEnd_winLen (s : State) (b : Bool) : (s.notePastEnd b).winLen = s.winLen := rfl
@[simp] theorem notePastEnd_imgW (s : State) (b : Bool) : (s.notePastEnd b).imgW = s.imgW := rfl
@[simp] theorem notePastEnd_imgH (s : State) (b : Bool) : (s.notePastEnd b).imgH = s.imgH := rfl
@[simp] theorem notePastEnd_dstBase (s : State) (b : Bool) : (s.notePastEnd b).dstBase = s.dstBase := rfl
@[simp] theorem notePastEnd_blkX (s : State) (b : Bool) : (s.notePastEnd b).blkX = s.blkX := rfl
@[simp] theorem notePastEnd_blkY (s : State) (b : Bool) : (s.notePastEnd b).blkY = s.blkY := rfl
@[simp] theorem notePastEnd_errinfo (s : State) (b : Bool) : (s.notePastEnd b).errinfo = s.errinfo := rfl
@[simp] theorem notePastEnd_dc (s : State) (b : Bool) : (s.notePastEnd b).dc = s.dc := rfl
@[simp] theorem notePastEnd_coef (s : State) (b : Bool) : (s.notePastEnd b).coef = s.coef := rfl
@[simp] theorem notePastEnd_tmp (s : State) (b : Bool) : (s.notePastEnd b).tmp = s.tmp := rfl
@[simp] theorem notePastEnd_plane (s : State) (b : Bool) : (s.notePastEnd b).plane = s.plane := rfl
@[simp] theorem notePastEnd_pix (s : State) (b : Bool) : (s.notePastEnd b).pix = s.pix := rfl
@[simp] theorem notePastEnd_pageValid (s : State) (b : Bool) : (s.notePastEnd b).pageValid = s.pageValid := rfl
@[simp] theorem notePastEnd_pageBase (s : State) (b : Bool) : (s.notePastEnd b).pageBase = s.pageBase := rfl
@[simp] theorem notePastEnd_page (s : State) (b : Bool) : (s.notePastEnd b).page = s.page := rfl
@[simp] theorem notePastEnd_rom (s : State) (b : Bool) : (s.notePastEnd b).rom = s.rom := rfl
@[simp] theorem notePastEnd_src (s : State) (b : Bool) : (s.notePastEnd b).src = s.src := rfl
@[simp] theorem notePastEnd_dst (s : State) (b : Bool) : (s.notePastEnd b).dst = s.dst := rfl
@[simp] theorem notePastEnd_inReset (s : State) (b : Bool) : (s.notePastEnd b).inReset = s.inReset := rfl
@[simp] theorem notePastEnd_inputs (s : State) (b : Bool) : (s.notePastEnd b).inputs = s.inputs := rfl
@[simp] theorem notePastEnd_portData (s : State) (b : Bool) : (s.notePastEnd b).portData = s.portData := rfl
@[simp] theorem notePastEnd_lateW1C (s : State) (b : Bool) : (s.notePastEnd b).lateW1C = s.lateW1C := rfl
@[simp] theorem notePastEnd_lateOvr (s : State) (b : Bool) : (s.notePastEnd b).lateOvr = s.lateOvr := rfl
@[simp] theorem notePastEnd_draws (s : State) (b : Bool) : (s.notePastEnd b).draws = s.draws := rfl
@[simp] theorem notePastEnd_memReads (s : State) (b : Bool) : (s.notePastEnd b).memReads = s.memReads := rfl
@[simp] theorem notePastEnd_raced (s : State) (b : Bool) : (s.notePastEnd b).raced = s.raced := rfl
@[simp] theorem notePastEnd_session (s : State) (b : Bool) : (s.notePastEnd b).session = s.session := rfl

/-! ### `State.consume` -/

@[simp] theorem consume_ctrl (s : State) (c : Nat) : (s.consume c).ctrl = s.ctrl := rfl
@[simp] theorem consume_cmd (s : State) (c : Nat) : (s.consume c).cmd = s.cmd := rfl
@[simp] theorem consume_arg0 (s : State) (c : Nat) : (s.consume c).arg0 = s.arg0 := rfl
@[simp] theorem consume_result (s : State) (c : Nat) : (s.consume c).result = s.result := rfl
@[simp] theorem consume_winOrg (s : State) (c : Nat) : (s.consume c).winOrg = s.winOrg := rfl
@[simp] theorem consume_winLen (s : State) (c : Nat) : (s.consume c).winLen = s.winLen := rfl
@[simp] theorem consume_imgW (s : State) (c : Nat) : (s.consume c).imgW = s.imgW := rfl
@[simp] theorem consume_imgH (s : State) (c : Nat) : (s.consume c).imgH = s.imgH := rfl
@[simp] theorem consume_dstBase (s : State) (c : Nat) : (s.consume c).dstBase = s.dstBase := rfl
@[simp] theorem consume_blkX (s : State) (c : Nat) : (s.consume c).blkX = s.blkX := rfl
@[simp] theorem consume_blkY (s : State) (c : Nat) : (s.consume c).blkY = s.blkY := rfl
@[simp] theorem consume_errinfo (s : State) (c : Nat) : (s.consume c).errinfo = s.errinfo := rfl
@[simp] theorem consume_dc (s : State) (c : Nat) : (s.consume c).dc = s.dc := rfl
@[simp] theorem consume_coef (s : State) (c : Nat) : (s.consume c).coef = s.coef := rfl
@[simp] theorem consume_tmp (s : State) (c : Nat) : (s.consume c).tmp = s.tmp := rfl
@[simp] theorem consume_plane (s : State) (c : Nat) : (s.consume c).plane = s.plane := rfl
@[simp] theorem consume_pix (s : State) (c : Nat) : (s.consume c).pix = s.pix := rfl
@[simp] theorem consume_pageValid (s : State) (c : Nat) : (s.consume c).pageValid = s.pageValid := rfl
@[simp] theorem consume_pageBase (s : State) (c : Nat) : (s.consume c).pageBase = s.pageBase := rfl
@[simp] theorem consume_page (s : State) (c : Nat) : (s.consume c).page = s.page := rfl
@[simp] theorem consume_rom (s : State) (c : Nat) : (s.consume c).rom = s.rom := rfl
@[simp] theorem consume_src (s : State) (c : Nat) : (s.consume c).src = s.src := rfl
@[simp] theorem consume_dst (s : State) (c : Nat) : (s.consume c).dst = s.dst := rfl
@[simp] theorem consume_inReset (s : State) (c : Nat) : (s.consume c).inReset = s.inReset := rfl
@[simp] theorem consume_inputs (s : State) (c : Nat) : (s.consume c).inputs = s.inputs := rfl
@[simp] theorem consume_portData (s : State) (c : Nat) : (s.consume c).portData = s.portData := rfl
@[simp] theorem consume_lateW1C (s : State) (c : Nat) : (s.consume c).lateW1C = s.lateW1C := rfl
@[simp] theorem consume_lateOvr (s : State) (c : Nat) : (s.consume c).lateOvr = s.lateOvr := rfl
@[simp] theorem consume_draws (s : State) (c : Nat) : (s.consume c).draws = s.draws := rfl
@[simp] theorem consume_memReads (s : State) (c : Nat) : (s.consume c).memReads = s.memReads := rfl
@[simp] theorem consume_raced (s : State) (c : Nat) : (s.consume c).raced = s.raced := rfl
@[simp] theorem consume_session (s : State) (c : Nat) : (s.consume c).session = s.session := rfl

/-! ### `State.invalidatePage` -/

@[simp] theorem invalidatePage_ctrl (s : State) : s.invalidatePage.ctrl = s.ctrl := rfl
@[simp] theorem invalidatePage_status (s : State) : s.invalidatePage.status = s.status := rfl
@[simp] theorem invalidatePage_cmd (s : State) : s.invalidatePage.cmd = s.cmd := rfl
@[simp] theorem invalidatePage_arg0 (s : State) : s.invalidatePage.arg0 = s.arg0 := rfl
@[simp] theorem invalidatePage_result (s : State) : s.invalidatePage.result = s.result := rfl
@[simp] theorem invalidatePage_pos (s : State) : s.invalidatePage.pos = s.pos := rfl
@[simp] theorem invalidatePage_winOrg (s : State) : s.invalidatePage.winOrg = s.winOrg := rfl
@[simp] theorem invalidatePage_winLen (s : State) : s.invalidatePage.winLen = s.winLen := rfl
@[simp] theorem invalidatePage_imgW (s : State) : s.invalidatePage.imgW = s.imgW := rfl
@[simp] theorem invalidatePage_imgH (s : State) : s.invalidatePage.imgH = s.imgH := rfl
@[simp] theorem invalidatePage_dstBase (s : State) : s.invalidatePage.dstBase = s.dstBase := rfl
@[simp] theorem invalidatePage_blkX (s : State) : s.invalidatePage.blkX = s.blkX := rfl
@[simp] theorem invalidatePage_blkY (s : State) : s.invalidatePage.blkY = s.blkY := rfl
@[simp] theorem invalidatePage_errinfo (s : State) : s.invalidatePage.errinfo = s.errinfo := rfl
@[simp] theorem invalidatePage_dc (s : State) : s.invalidatePage.dc = s.dc := rfl
@[simp] theorem invalidatePage_coef (s : State) : s.invalidatePage.coef = s.coef := rfl
@[simp] theorem invalidatePage_tmp (s : State) : s.invalidatePage.tmp = s.tmp := rfl
@[simp] theorem invalidatePage_plane (s : State) : s.invalidatePage.plane = s.plane := rfl
@[simp] theorem invalidatePage_pix (s : State) : s.invalidatePage.pix = s.pix := rfl
@[simp] theorem invalidatePage_pageBase (s : State) : s.invalidatePage.pageBase = s.pageBase := rfl
@[simp] theorem invalidatePage_page (s : State) : s.invalidatePage.page = s.page := rfl
@[simp] theorem invalidatePage_rom (s : State) : s.invalidatePage.rom = s.rom := rfl
@[simp] theorem invalidatePage_src (s : State) : s.invalidatePage.src = s.src := rfl
@[simp] theorem invalidatePage_dst (s : State) : s.invalidatePage.dst = s.dst := rfl
@[simp] theorem invalidatePage_inReset (s : State) : s.invalidatePage.inReset = s.inReset := rfl
@[simp] theorem invalidatePage_inputs (s : State) : s.invalidatePage.inputs = s.inputs := rfl
@[simp] theorem invalidatePage_portData (s : State) : s.invalidatePage.portData = s.portData := rfl
@[simp] theorem invalidatePage_lateW1C (s : State) : s.invalidatePage.lateW1C = s.lateW1C := rfl
@[simp] theorem invalidatePage_lateOvr (s : State) : s.invalidatePage.lateOvr = s.lateOvr := rfl
@[simp] theorem invalidatePage_draws (s : State) : s.invalidatePage.draws = s.draws := rfl
@[simp] theorem invalidatePage_memReads (s : State) : s.invalidatePage.memReads = s.memReads := rfl
@[simp] theorem invalidatePage_raced (s : State) : s.invalidatePage.raced = s.raced := rfl
@[simp] theorem invalidatePage_session (s : State) : s.invalidatePage.session = s.session := rfl

/-! ### `State.endSession` -/

@[simp] theorem endSession_ctrl (s : State) : s.endSession.ctrl = s.ctrl := rfl
@[simp] theorem endSession_status (s : State) : s.endSession.status = s.status := rfl
@[simp] theorem endSession_cmd (s : State) : s.endSession.cmd = s.cmd := rfl
@[simp] theorem endSession_arg0 (s : State) : s.endSession.arg0 = s.arg0 := rfl
@[simp] theorem endSession_result (s : State) : s.endSession.result = s.result := rfl
@[simp] theorem endSession_pos (s : State) : s.endSession.pos = s.pos := rfl
@[simp] theorem endSession_winOrg (s : State) : s.endSession.winOrg = s.winOrg := rfl
@[simp] theorem endSession_winLen (s : State) : s.endSession.winLen = s.winLen := rfl
@[simp] theorem endSession_imgW (s : State) : s.endSession.imgW = s.imgW := rfl
@[simp] theorem endSession_imgH (s : State) : s.endSession.imgH = s.imgH := rfl
@[simp] theorem endSession_dstBase (s : State) : s.endSession.dstBase = s.dstBase := rfl
@[simp] theorem endSession_blkX (s : State) : s.endSession.blkX = s.blkX := rfl
@[simp] theorem endSession_blkY (s : State) : s.endSession.blkY = s.blkY := rfl
@[simp] theorem endSession_errinfo (s : State) : s.endSession.errinfo = s.errinfo := rfl
@[simp] theorem endSession_dc (s : State) : s.endSession.dc = s.dc := rfl
@[simp] theorem endSession_coef (s : State) : s.endSession.coef = s.coef := rfl
@[simp] theorem endSession_tmp (s : State) : s.endSession.tmp = s.tmp := rfl
@[simp] theorem endSession_plane (s : State) : s.endSession.plane = s.plane := rfl
@[simp] theorem endSession_pix (s : State) : s.endSession.pix = s.pix := rfl
@[simp] theorem endSession_pageBase (s : State) : s.endSession.pageBase = s.pageBase := rfl
@[simp] theorem endSession_page (s : State) : s.endSession.page = s.page := rfl
@[simp] theorem endSession_rom (s : State) : s.endSession.rom = s.rom := rfl
@[simp] theorem endSession_src (s : State) : s.endSession.src = s.src := rfl
@[simp] theorem endSession_dst (s : State) : s.endSession.dst = s.dst := rfl
@[simp] theorem endSession_inReset (s : State) : s.endSession.inReset = s.inReset := rfl
@[simp] theorem endSession_inputs (s : State) : s.endSession.inputs = s.inputs := rfl
@[simp] theorem endSession_portData (s : State) : s.endSession.portData = s.portData := rfl
@[simp] theorem endSession_lateW1C (s : State) : s.endSession.lateW1C = s.lateW1C := rfl
@[simp] theorem endSession_lateOvr (s : State) : s.endSession.lateOvr = s.lateOvr := rfl
@[simp] theorem endSession_draws (s : State) : s.endSession.draws = s.draws := rfl
@[simp] theorem endSession_memReads (s : State) : s.endSession.memReads = s.memReads := rfl

/-! ### `State.refill` -/

@[simp] theorem refill_ctrl (s : State) (w : Nat) : (s.refill w).ctrl = s.ctrl := rfl
@[simp] theorem refill_status (s : State) (w : Nat) : (s.refill w).status = s.status := rfl
@[simp] theorem refill_cmd (s : State) (w : Nat) : (s.refill w).cmd = s.cmd := rfl
@[simp] theorem refill_arg0 (s : State) (w : Nat) : (s.refill w).arg0 = s.arg0 := rfl
@[simp] theorem refill_result (s : State) (w : Nat) : (s.refill w).result = s.result := rfl
@[simp] theorem refill_pos (s : State) (w : Nat) : (s.refill w).pos = s.pos := rfl
@[simp] theorem refill_winOrg (s : State) (w : Nat) : (s.refill w).winOrg = s.winOrg := rfl
@[simp] theorem refill_winLen (s : State) (w : Nat) : (s.refill w).winLen = s.winLen := rfl
@[simp] theorem refill_imgW (s : State) (w : Nat) : (s.refill w).imgW = s.imgW := rfl
@[simp] theorem refill_imgH (s : State) (w : Nat) : (s.refill w).imgH = s.imgH := rfl
@[simp] theorem refill_dstBase (s : State) (w : Nat) : (s.refill w).dstBase = s.dstBase := rfl
@[simp] theorem refill_blkX (s : State) (w : Nat) : (s.refill w).blkX = s.blkX := rfl
@[simp] theorem refill_blkY (s : State) (w : Nat) : (s.refill w).blkY = s.blkY := rfl
@[simp] theorem refill_errinfo (s : State) (w : Nat) : (s.refill w).errinfo = s.errinfo := rfl
@[simp] theorem refill_dc (s : State) (w : Nat) : (s.refill w).dc = s.dc := rfl
@[simp] theorem refill_coef (s : State) (w : Nat) : (s.refill w).coef = s.coef := rfl
@[simp] theorem refill_tmp (s : State) (w : Nat) : (s.refill w).tmp = s.tmp := rfl
@[simp] theorem refill_plane (s : State) (w : Nat) : (s.refill w).plane = s.plane := rfl
@[simp] theorem refill_pix (s : State) (w : Nat) : (s.refill w).pix = s.pix := rfl
@[simp] theorem refill_rom (s : State) (w : Nat) : (s.refill w).rom = s.rom := rfl
@[simp] theorem refill_src (s : State) (w : Nat) : (s.refill w).src = s.src := rfl
@[simp] theorem refill_dst (s : State) (w : Nat) : (s.refill w).dst = s.dst := rfl
@[simp] theorem refill_inReset (s : State) (w : Nat) : (s.refill w).inReset = s.inReset := rfl
@[simp] theorem refill_inputs (s : State) (w : Nat) : (s.refill w).inputs = s.inputs := rfl
@[simp] theorem refill_portData (s : State) (w : Nat) : (s.refill w).portData = s.portData := rfl
@[simp] theorem refill_lateW1C (s : State) (w : Nat) : (s.refill w).lateW1C = s.lateW1C := rfl
@[simp] theorem refill_lateOvr (s : State) (w : Nat) : (s.refill w).lateOvr = s.lateOvr := rfl
@[simp] theorem refill_draws (s : State) (w : Nat) : (s.refill w).draws = s.draws := rfl
@[simp] theorem refill_raced (s : State) (w : Nat) : (s.refill w).raced = s.raced := rfl
@[simp] theorem refill_session (s : State) (w : Nat) : (s.refill w).session = s.session := rfl

/-! ### `State.lookupPage` -/

@[simp] theorem lookupPage_ctrl (s : State) (w : Nat) : (s.lookupPage w).ctrl = s.ctrl := by unfold State.lookupPage; split <;> rfl
@[simp] theorem lookupPage_status (s : State) (w : Nat) : (s.lookupPage w).status = s.status := by unfold State.lookupPage; split <;> rfl
@[simp] theorem lookupPage_cmd (s : State) (w : Nat) : (s.lookupPage w).cmd = s.cmd := by unfold State.lookupPage; split <;> rfl
@[simp] theorem lookupPage_arg0 (s : State) (w : Nat) : (s.lookupPage w).arg0 = s.arg0 := by unfold State.lookupPage; split <;> rfl
@[simp] theorem lookupPage_result (s : State) (w : Nat) : (s.lookupPage w).result = s.result := by unfold State.lookupPage; split <;> rfl
@[simp] theorem lookupPage_pos (s : State) (w : Nat) : (s.lookupPage w).pos = s.pos := by unfold State.lookupPage; split <;> rfl
@[simp] theorem lookupPage_winOrg (s : State) (w : Nat) : (s.lookupPage w).winOrg = s.winOrg := by unfold State.lookupPage; split <;> rfl
@[simp] theorem lookupPage_winLen (s : State) (w : Nat) : (s.lookupPage w).winLen = s.winLen := by unfold State.lookupPage; split <;> rfl
@[simp] theorem lookupPage_imgW (s : State) (w : Nat) : (s.lookupPage w).imgW = s.imgW := by unfold State.lookupPage; split <;> rfl
@[simp] theorem lookupPage_imgH (s : State) (w : Nat) : (s.lookupPage w).imgH = s.imgH := by unfold State.lookupPage; split <;> rfl
@[simp] theorem lookupPage_dstBase (s : State) (w : Nat) : (s.lookupPage w).dstBase = s.dstBase := by unfold State.lookupPage; split <;> rfl
@[simp] theorem lookupPage_blkX (s : State) (w : Nat) : (s.lookupPage w).blkX = s.blkX := by unfold State.lookupPage; split <;> rfl
@[simp] theorem lookupPage_blkY (s : State) (w : Nat) : (s.lookupPage w).blkY = s.blkY := by unfold State.lookupPage; split <;> rfl
@[simp] theorem lookupPage_errinfo (s : State) (w : Nat) : (s.lookupPage w).errinfo = s.errinfo := by unfold State.lookupPage; split <;> rfl
@[simp] theorem lookupPage_dc (s : State) (w : Nat) : (s.lookupPage w).dc = s.dc := by unfold State.lookupPage; split <;> rfl
@[simp] theorem lookupPage_coef (s : State) (w : Nat) : (s.lookupPage w).coef = s.coef := by unfold State.lookupPage; split <;> rfl
@[simp] theorem lookupPage_tmp (s : State) (w : Nat) : (s.lookupPage w).tmp = s.tmp := by unfold State.lookupPage; split <;> rfl
@[simp] theorem lookupPage_plane (s : State) (w : Nat) : (s.lookupPage w).plane = s.plane := by unfold State.lookupPage; split <;> rfl
@[simp] theorem lookupPage_pix (s : State) (w : Nat) : (s.lookupPage w).pix = s.pix := by unfold State.lookupPage; split <;> rfl
@[simp] theorem lookupPage_rom (s : State) (w : Nat) : (s.lookupPage w).rom = s.rom := by unfold State.lookupPage; split <;> rfl
@[simp] theorem lookupPage_src (s : State) (w : Nat) : (s.lookupPage w).src = s.src := by unfold State.lookupPage; split <;> rfl
@[simp] theorem lookupPage_dst (s : State) (w : Nat) : (s.lookupPage w).dst = s.dst := by unfold State.lookupPage; split <;> rfl
@[simp] theorem lookupPage_inReset (s : State) (w : Nat) : (s.lookupPage w).inReset = s.inReset := by unfold State.lookupPage; split <;> rfl
@[simp] theorem lookupPage_inputs (s : State) (w : Nat) : (s.lookupPage w).inputs = s.inputs := by unfold State.lookupPage; split <;> rfl
@[simp] theorem lookupPage_portData (s : State) (w : Nat) : (s.lookupPage w).portData = s.portData := by unfold State.lookupPage; split <;> rfl
@[simp] theorem lookupPage_lateW1C (s : State) (w : Nat) : (s.lookupPage w).lateW1C = s.lateW1C := by unfold State.lookupPage; split <;> rfl
@[simp] theorem lookupPage_lateOvr (s : State) (w : Nat) : (s.lookupPage w).lateOvr = s.lateOvr := by unfold State.lookupPage; split <;> rfl
@[simp] theorem lookupPage_draws (s : State) (w : Nat) : (s.lookupPage w).draws = s.draws := by unfold State.lookupPage; split <;> rfl
@[simp] theorem lookupPage_raced (s : State) (w : Nat) : (s.lookupPage w).raced = s.raced := by unfold State.lookupPage; split <;> rfl
@[simp] theorem lookupPage_session (s : State) (w : Nat) : (s.lookupPage w).session = s.session := by unfold State.lookupPage; split <;> rfl

/-! ### `State.afterRead` -/

@[simp] theorem afterRead_ctrl (s : State) (off : Word) : (s.afterRead off).ctrl = s.ctrl := by unfold State.afterRead; dsimp only; split <;> simp
@[simp] theorem afterRead_status (s : State) (off : Word) : (s.afterRead off).status = s.status := by unfold State.afterRead; dsimp only; split <;> simp
@[simp] theorem afterRead_cmd (s : State) (off : Word) : (s.afterRead off).cmd = s.cmd := by unfold State.afterRead; dsimp only; split <;> simp
@[simp] theorem afterRead_arg0 (s : State) (off : Word) : (s.afterRead off).arg0 = s.arg0 := by unfold State.afterRead; dsimp only; split <;> simp
@[simp] theorem afterRead_result (s : State) (off : Word) : (s.afterRead off).result = s.result := by unfold State.afterRead; dsimp only; split <;> simp
@[simp] theorem afterRead_pos (s : State) (off : Word) : (s.afterRead off).pos = s.pos := by unfold State.afterRead; dsimp only; split <;> simp
@[simp] theorem afterRead_winOrg (s : State) (off : Word) : (s.afterRead off).winOrg = s.winOrg := by unfold State.afterRead; dsimp only; split <;> simp
@[simp] theorem afterRead_winLen (s : State) (off : Word) : (s.afterRead off).winLen = s.winLen := by unfold State.afterRead; dsimp only; split <;> simp
@[simp] theorem afterRead_imgW (s : State) (off : Word) : (s.afterRead off).imgW = s.imgW := by unfold State.afterRead; dsimp only; split <;> simp
@[simp] theorem afterRead_imgH (s : State) (off : Word) : (s.afterRead off).imgH = s.imgH := by unfold State.afterRead; dsimp only; split <;> simp
@[simp] theorem afterRead_dstBase (s : State) (off : Word) : (s.afterRead off).dstBase = s.dstBase := by unfold State.afterRead; dsimp only; split <;> simp
@[simp] theorem afterRead_blkX (s : State) (off : Word) : (s.afterRead off).blkX = s.blkX := by unfold State.afterRead; dsimp only; split <;> simp
@[simp] theorem afterRead_blkY (s : State) (off : Word) : (s.afterRead off).blkY = s.blkY := by unfold State.afterRead; dsimp only; split <;> simp
@[simp] theorem afterRead_errinfo (s : State) (off : Word) : (s.afterRead off).errinfo = s.errinfo := by unfold State.afterRead; dsimp only; split <;> simp
@[simp] theorem afterRead_dc (s : State) (off : Word) : (s.afterRead off).dc = s.dc := by unfold State.afterRead; dsimp only; split <;> simp
@[simp] theorem afterRead_coef (s : State) (off : Word) : (s.afterRead off).coef = s.coef := by unfold State.afterRead; dsimp only; split <;> simp
@[simp] theorem afterRead_tmp (s : State) (off : Word) : (s.afterRead off).tmp = s.tmp := by unfold State.afterRead; dsimp only; split <;> simp
@[simp] theorem afterRead_plane (s : State) (off : Word) : (s.afterRead off).plane = s.plane := by unfold State.afterRead; dsimp only; split <;> simp
@[simp] theorem afterRead_pix (s : State) (off : Word) : (s.afterRead off).pix = s.pix := by unfold State.afterRead; dsimp only; split <;> simp
@[simp] theorem afterRead_rom (s : State) (off : Word) : (s.afterRead off).rom = s.rom := by unfold State.afterRead; dsimp only; split <;> simp
@[simp] theorem afterRead_src (s : State) (off : Word) : (s.afterRead off).src = s.src := by unfold State.afterRead; dsimp only; split <;> simp
@[simp] theorem afterRead_dst (s : State) (off : Word) : (s.afterRead off).dst = s.dst := by unfold State.afterRead; dsimp only; split <;> simp
@[simp] theorem afterRead_inReset (s : State) (off : Word) : (s.afterRead off).inReset = s.inReset := by unfold State.afterRead; dsimp only; split <;> simp
@[simp] theorem afterRead_inputs (s : State) (off : Word) : (s.afterRead off).inputs = s.inputs := by unfold State.afterRead; dsimp only; split <;> simp
@[simp] theorem afterRead_portData (s : State) (off : Word) : (s.afterRead off).portData = s.portData := by unfold State.afterRead; dsimp only; split <;> simp
@[simp] theorem afterRead_lateW1C (s : State) (off : Word) : (s.afterRead off).lateW1C = s.lateW1C := by unfold State.afterRead; dsimp only; split <;> simp
@[simp] theorem afterRead_lateOvr (s : State) (off : Word) : (s.afterRead off).lateOvr = s.lateOvr := by unfold State.afterRead; dsimp only; split <;> simp
@[simp] theorem afterRead_raced (s : State) (off : Word) : (s.afterRead off).raced = s.raced := by unfold State.afterRead; dsimp only; split <;> simp
@[simp] theorem afterRead_session (s : State) (off : Word) : (s.afterRead off).session = s.session := by unfold State.afterRead; dsimp only; split <;> simp

/-! ### `State.storeByte` -/

@[simp] theorem storeByte_ctrl (s : State) (a : Word) (v : Byte) : (s.storeByte a v).ctrl = s.ctrl := rfl
@[simp] theorem storeByte_status (s : State) (a : Word) (v : Byte) : (s.storeByte a v).status = s.status := rfl
@[simp] theorem storeByte_cmd (s : State) (a : Word) (v : Byte) : (s.storeByte a v).cmd = s.cmd := rfl
@[simp] theorem storeByte_arg0 (s : State) (a : Word) (v : Byte) : (s.storeByte a v).arg0 = s.arg0 := rfl
@[simp] theorem storeByte_result (s : State) (a : Word) (v : Byte) : (s.storeByte a v).result = s.result := rfl
@[simp] theorem storeByte_pos (s : State) (a : Word) (v : Byte) : (s.storeByte a v).pos = s.pos := rfl
@[simp] theorem storeByte_winOrg (s : State) (a : Word) (v : Byte) : (s.storeByte a v).winOrg = s.winOrg := rfl
@[simp] theorem storeByte_winLen (s : State) (a : Word) (v : Byte) : (s.storeByte a v).winLen = s.winLen := rfl
@[simp] theorem storeByte_imgW (s : State) (a : Word) (v : Byte) : (s.storeByte a v).imgW = s.imgW := rfl
@[simp] theorem storeByte_imgH (s : State) (a : Word) (v : Byte) : (s.storeByte a v).imgH = s.imgH := rfl
@[simp] theorem storeByte_dstBase (s : State) (a : Word) (v : Byte) : (s.storeByte a v).dstBase = s.dstBase := rfl
@[simp] theorem storeByte_blkX (s : State) (a : Word) (v : Byte) : (s.storeByte a v).blkX = s.blkX := rfl
@[simp] theorem storeByte_blkY (s : State) (a : Word) (v : Byte) : (s.storeByte a v).blkY = s.blkY := rfl
@[simp] theorem storeByte_errinfo (s : State) (a : Word) (v : Byte) : (s.storeByte a v).errinfo = s.errinfo := rfl
@[simp] theorem storeByte_dc (s : State) (a : Word) (v : Byte) : (s.storeByte a v).dc = s.dc := rfl
@[simp] theorem storeByte_coef (s : State) (a : Word) (v : Byte) : (s.storeByte a v).coef = s.coef := rfl
@[simp] theorem storeByte_tmp (s : State) (a : Word) (v : Byte) : (s.storeByte a v).tmp = s.tmp := rfl
@[simp] theorem storeByte_plane (s : State) (a : Word) (v : Byte) : (s.storeByte a v).plane = s.plane := rfl
@[simp] theorem storeByte_pix (s : State) (a : Word) (v : Byte) : (s.storeByte a v).pix = s.pix := rfl
@[simp] theorem storeByte_pageValid (s : State) (a : Word) (v : Byte) : (s.storeByte a v).pageValid = s.pageValid := rfl
@[simp] theorem storeByte_pageBase (s : State) (a : Word) (v : Byte) : (s.storeByte a v).pageBase = s.pageBase := rfl
@[simp] theorem storeByte_page (s : State) (a : Word) (v : Byte) : (s.storeByte a v).page = s.page := rfl
@[simp] theorem storeByte_rom (s : State) (a : Word) (v : Byte) : (s.storeByte a v).rom = s.rom := rfl
@[simp] theorem storeByte_src (s : State) (a : Word) (v : Byte) : (s.storeByte a v).src = s.src := rfl
@[simp] theorem storeByte_inReset (s : State) (a : Word) (v : Byte) : (s.storeByte a v).inReset = s.inReset := rfl
@[simp] theorem storeByte_inputs (s : State) (a : Word) (v : Byte) : (s.storeByte a v).inputs = s.inputs := rfl
@[simp] theorem storeByte_portData (s : State) (a : Word) (v : Byte) : (s.storeByte a v).portData = s.portData := rfl
@[simp] theorem storeByte_lateW1C (s : State) (a : Word) (v : Byte) : (s.storeByte a v).lateW1C = s.lateW1C := rfl
@[simp] theorem storeByte_lateOvr (s : State) (a : Word) (v : Byte) : (s.storeByte a v).lateOvr = s.lateOvr := rfl
@[simp] theorem storeByte_draws (s : State) (a : Word) (v : Byte) : (s.storeByte a v).draws = s.draws := rfl
@[simp] theorem storeByte_memReads (s : State) (a : Word) (v : Byte) : (s.storeByte a v).memReads = s.memReads := rfl
@[simp] theorem storeByte_session (s : State) (a : Word) (v : Byte) : (s.storeByte a v).session = s.session := rfl

/-! ### `State.memWrite` -/

@[simp] theorem memWrite_ctrl (s : State) (a v : Word) : (s.memWrite a v).ctrl = s.ctrl := by simp [State.memWrite]
@[simp] theorem memWrite_status (s : State) (a v : Word) : (s.memWrite a v).status = s.status := by simp [State.memWrite]
@[simp] theorem memWrite_cmd (s : State) (a v : Word) : (s.memWrite a v).cmd = s.cmd := by simp [State.memWrite]
@[simp] theorem memWrite_arg0 (s : State) (a v : Word) : (s.memWrite a v).arg0 = s.arg0 := by simp [State.memWrite]
@[simp] theorem memWrite_result (s : State) (a v : Word) : (s.memWrite a v).result = s.result := by simp [State.memWrite]
@[simp] theorem memWrite_pos (s : State) (a v : Word) : (s.memWrite a v).pos = s.pos := by simp [State.memWrite]
@[simp] theorem memWrite_winOrg (s : State) (a v : Word) : (s.memWrite a v).winOrg = s.winOrg := by simp [State.memWrite]
@[simp] theorem memWrite_winLen (s : State) (a v : Word) : (s.memWrite a v).winLen = s.winLen := by simp [State.memWrite]
@[simp] theorem memWrite_imgW (s : State) (a v : Word) : (s.memWrite a v).imgW = s.imgW := by simp [State.memWrite]
@[simp] theorem memWrite_imgH (s : State) (a v : Word) : (s.memWrite a v).imgH = s.imgH := by simp [State.memWrite]
@[simp] theorem memWrite_dstBase (s : State) (a v : Word) : (s.memWrite a v).dstBase = s.dstBase := by simp [State.memWrite]
@[simp] theorem memWrite_blkX (s : State) (a v : Word) : (s.memWrite a v).blkX = s.blkX := by simp [State.memWrite]
@[simp] theorem memWrite_blkY (s : State) (a v : Word) : (s.memWrite a v).blkY = s.blkY := by simp [State.memWrite]
@[simp] theorem memWrite_errinfo (s : State) (a v : Word) : (s.memWrite a v).errinfo = s.errinfo := by simp [State.memWrite]
@[simp] theorem memWrite_dc (s : State) (a v : Word) : (s.memWrite a v).dc = s.dc := by simp [State.memWrite]
@[simp] theorem memWrite_coef (s : State) (a v : Word) : (s.memWrite a v).coef = s.coef := by simp [State.memWrite]
@[simp] theorem memWrite_tmp (s : State) (a v : Word) : (s.memWrite a v).tmp = s.tmp := by simp [State.memWrite]
@[simp] theorem memWrite_plane (s : State) (a v : Word) : (s.memWrite a v).plane = s.plane := by simp [State.memWrite]
@[simp] theorem memWrite_pix (s : State) (a v : Word) : (s.memWrite a v).pix = s.pix := by simp [State.memWrite]
@[simp] theorem memWrite_pageValid (s : State) (a v : Word) : (s.memWrite a v).pageValid = s.pageValid := by simp [State.memWrite]
@[simp] theorem memWrite_pageBase (s : State) (a v : Word) : (s.memWrite a v).pageBase = s.pageBase := by simp [State.memWrite]
@[simp] theorem memWrite_page (s : State) (a v : Word) : (s.memWrite a v).page = s.page := by simp [State.memWrite]
@[simp] theorem memWrite_rom (s : State) (a v : Word) : (s.memWrite a v).rom = s.rom := by simp [State.memWrite]
@[simp] theorem memWrite_src (s : State) (a v : Word) : (s.memWrite a v).src = s.src := by simp [State.memWrite]
@[simp] theorem memWrite_inReset (s : State) (a v : Word) : (s.memWrite a v).inReset = s.inReset := by simp [State.memWrite]
@[simp] theorem memWrite_inputs (s : State) (a v : Word) : (s.memWrite a v).inputs = s.inputs := by simp [State.memWrite]
@[simp] theorem memWrite_portData (s : State) (a v : Word) : (s.memWrite a v).portData = s.portData := by simp [State.memWrite]
@[simp] theorem memWrite_lateW1C (s : State) (a v : Word) : (s.memWrite a v).lateW1C = s.lateW1C := by simp [State.memWrite]
@[simp] theorem memWrite_lateOvr (s : State) (a v : Word) : (s.memWrite a v).lateOvr = s.lateOvr := by simp [State.memWrite]
@[simp] theorem memWrite_draws (s : State) (a v : Word) : (s.memWrite a v).draws = s.draws := by simp [State.memWrite]
@[simp] theorem memWrite_memReads (s : State) (a v : Word) : (s.memWrite a v).memReads = s.memReads := by simp [State.memWrite]
@[simp] theorem memWrite_session (s : State) (a v : Word) : (s.memWrite a v).session = s.session := by simp [State.memWrite]

/-! ### `State.setDc` -/

@[simp] theorem setDc_ctrl (s : State) (p : Plane) (v : Word) : (s.setDc p v).ctrl = s.ctrl := rfl
@[simp] theorem setDc_status (s : State) (p : Plane) (v : Word) : (s.setDc p v).status = s.status := rfl
@[simp] theorem setDc_cmd (s : State) (p : Plane) (v : Word) : (s.setDc p v).cmd = s.cmd := rfl
@[simp] theorem setDc_arg0 (s : State) (p : Plane) (v : Word) : (s.setDc p v).arg0 = s.arg0 := rfl
@[simp] theorem setDc_result (s : State) (p : Plane) (v : Word) : (s.setDc p v).result = s.result := rfl
@[simp] theorem setDc_pos (s : State) (p : Plane) (v : Word) : (s.setDc p v).pos = s.pos := rfl
@[simp] theorem setDc_winOrg (s : State) (p : Plane) (v : Word) : (s.setDc p v).winOrg = s.winOrg := rfl
@[simp] theorem setDc_winLen (s : State) (p : Plane) (v : Word) : (s.setDc p v).winLen = s.winLen := rfl
@[simp] theorem setDc_imgW (s : State) (p : Plane) (v : Word) : (s.setDc p v).imgW = s.imgW := rfl
@[simp] theorem setDc_imgH (s : State) (p : Plane) (v : Word) : (s.setDc p v).imgH = s.imgH := rfl
@[simp] theorem setDc_dstBase (s : State) (p : Plane) (v : Word) : (s.setDc p v).dstBase = s.dstBase := rfl
@[simp] theorem setDc_blkX (s : State) (p : Plane) (v : Word) : (s.setDc p v).blkX = s.blkX := rfl
@[simp] theorem setDc_blkY (s : State) (p : Plane) (v : Word) : (s.setDc p v).blkY = s.blkY := rfl
@[simp] theorem setDc_errinfo (s : State) (p : Plane) (v : Word) : (s.setDc p v).errinfo = s.errinfo := rfl
@[simp] theorem setDc_coef (s : State) (p : Plane) (v : Word) : (s.setDc p v).coef = s.coef := rfl
@[simp] theorem setDc_tmp (s : State) (p : Plane) (v : Word) : (s.setDc p v).tmp = s.tmp := rfl
@[simp] theorem setDc_plane (s : State) (p : Plane) (v : Word) : (s.setDc p v).plane = s.plane := rfl
@[simp] theorem setDc_pix (s : State) (p : Plane) (v : Word) : (s.setDc p v).pix = s.pix := rfl
@[simp] theorem setDc_pageValid (s : State) (p : Plane) (v : Word) : (s.setDc p v).pageValid = s.pageValid := rfl
@[simp] theorem setDc_pageBase (s : State) (p : Plane) (v : Word) : (s.setDc p v).pageBase = s.pageBase := rfl
@[simp] theorem setDc_page (s : State) (p : Plane) (v : Word) : (s.setDc p v).page = s.page := rfl
@[simp] theorem setDc_rom (s : State) (p : Plane) (v : Word) : (s.setDc p v).rom = s.rom := rfl
@[simp] theorem setDc_src (s : State) (p : Plane) (v : Word) : (s.setDc p v).src = s.src := rfl
@[simp] theorem setDc_dst (s : State) (p : Plane) (v : Word) : (s.setDc p v).dst = s.dst := rfl
@[simp] theorem setDc_inReset (s : State) (p : Plane) (v : Word) : (s.setDc p v).inReset = s.inReset := rfl
@[simp] theorem setDc_inputs (s : State) (p : Plane) (v : Word) : (s.setDc p v).inputs = s.inputs := rfl
@[simp] theorem setDc_portData (s : State) (p : Plane) (v : Word) : (s.setDc p v).portData = s.portData := rfl
@[simp] theorem setDc_lateW1C (s : State) (p : Plane) (v : Word) : (s.setDc p v).lateW1C = s.lateW1C := rfl
@[simp] theorem setDc_lateOvr (s : State) (p : Plane) (v : Word) : (s.setDc p v).lateOvr = s.lateOvr := rfl
@[simp] theorem setDc_draws (s : State) (p : Plane) (v : Word) : (s.setDc p v).draws = s.draws := rfl
@[simp] theorem setDc_memReads (s : State) (p : Plane) (v : Word) : (s.setDc p v).memReads = s.memReads := rfl
@[simp] theorem setDc_raced (s : State) (p : Plane) (v : Word) : (s.setDc p v).raced = s.raced := rfl
@[simp] theorem setDc_session (s : State) (p : Plane) (v : Word) : (s.setDc p v).session = s.session := rfl

/-! ### `State.setPlane` -/

@[simp] theorem setPlane_ctrl (s : State) (p : Plane) (b : Cells 64) : (s.setPlane p b).ctrl = s.ctrl := rfl
@[simp] theorem setPlane_status (s : State) (p : Plane) (b : Cells 64) : (s.setPlane p b).status = s.status := rfl
@[simp] theorem setPlane_cmd (s : State) (p : Plane) (b : Cells 64) : (s.setPlane p b).cmd = s.cmd := rfl
@[simp] theorem setPlane_arg0 (s : State) (p : Plane) (b : Cells 64) : (s.setPlane p b).arg0 = s.arg0 := rfl
@[simp] theorem setPlane_result (s : State) (p : Plane) (b : Cells 64) : (s.setPlane p b).result = s.result := rfl
@[simp] theorem setPlane_pos (s : State) (p : Plane) (b : Cells 64) : (s.setPlane p b).pos = s.pos := rfl
@[simp] theorem setPlane_winOrg (s : State) (p : Plane) (b : Cells 64) : (s.setPlane p b).winOrg = s.winOrg := rfl
@[simp] theorem setPlane_winLen (s : State) (p : Plane) (b : Cells 64) : (s.setPlane p b).winLen = s.winLen := rfl
@[simp] theorem setPlane_imgW (s : State) (p : Plane) (b : Cells 64) : (s.setPlane p b).imgW = s.imgW := rfl
@[simp] theorem setPlane_imgH (s : State) (p : Plane) (b : Cells 64) : (s.setPlane p b).imgH = s.imgH := rfl
@[simp] theorem setPlane_dstBase (s : State) (p : Plane) (b : Cells 64) : (s.setPlane p b).dstBase = s.dstBase := rfl
@[simp] theorem setPlane_blkX (s : State) (p : Plane) (b : Cells 64) : (s.setPlane p b).blkX = s.blkX := rfl
@[simp] theorem setPlane_blkY (s : State) (p : Plane) (b : Cells 64) : (s.setPlane p b).blkY = s.blkY := rfl
@[simp] theorem setPlane_errinfo (s : State) (p : Plane) (b : Cells 64) : (s.setPlane p b).errinfo = s.errinfo := rfl
@[simp] theorem setPlane_dc (s : State) (p : Plane) (b : Cells 64) : (s.setPlane p b).dc = s.dc := rfl
@[simp] theorem setPlane_coef (s : State) (p : Plane) (b : Cells 64) : (s.setPlane p b).coef = s.coef := rfl
@[simp] theorem setPlane_tmp (s : State) (p : Plane) (b : Cells 64) : (s.setPlane p b).tmp = s.tmp := rfl
@[simp] theorem setPlane_pix (s : State) (p : Plane) (b : Cells 64) : (s.setPlane p b).pix = s.pix := rfl
@[simp] theorem setPlane_pageValid (s : State) (p : Plane) (b : Cells 64) : (s.setPlane p b).pageValid = s.pageValid := rfl
@[simp] theorem setPlane_pageBase (s : State) (p : Plane) (b : Cells 64) : (s.setPlane p b).pageBase = s.pageBase := rfl
@[simp] theorem setPlane_page (s : State) (p : Plane) (b : Cells 64) : (s.setPlane p b).page = s.page := rfl
@[simp] theorem setPlane_rom (s : State) (p : Plane) (b : Cells 64) : (s.setPlane p b).rom = s.rom := rfl
@[simp] theorem setPlane_src (s : State) (p : Plane) (b : Cells 64) : (s.setPlane p b).src = s.src := rfl
@[simp] theorem setPlane_dst (s : State) (p : Plane) (b : Cells 64) : (s.setPlane p b).dst = s.dst := rfl
@[simp] theorem setPlane_inReset (s : State) (p : Plane) (b : Cells 64) : (s.setPlane p b).inReset = s.inReset := rfl
@[simp] theorem setPlane_inputs (s : State) (p : Plane) (b : Cells 64) : (s.setPlane p b).inputs = s.inputs := rfl
@[simp] theorem setPlane_portData (s : State) (p : Plane) (b : Cells 64) : (s.setPlane p b).portData = s.portData := rfl
@[simp] theorem setPlane_lateW1C (s : State) (p : Plane) (b : Cells 64) : (s.setPlane p b).lateW1C = s.lateW1C := rfl
@[simp] theorem setPlane_lateOvr (s : State) (p : Plane) (b : Cells 64) : (s.setPlane p b).lateOvr = s.lateOvr := rfl
@[simp] theorem setPlane_draws (s : State) (p : Plane) (b : Cells 64) : (s.setPlane p b).draws = s.draws := rfl
@[simp] theorem setPlane_memReads (s : State) (p : Plane) (b : Cells 64) : (s.setPlane p b).memReads = s.memReads := rfl
@[simp] theorem setPlane_raced (s : State) (p : Plane) (b : Cells 64) : (s.setPlane p b).raced = s.raced := rfl
@[simp] theorem setPlane_session (s : State) (p : Plane) (b : Cells 64) : (s.setPlane p b).session = s.session := rfl

/-! ### `State.setCoef` -/

@[simp] theorem setCoef_ctrl (s : State) (i : Fin 64) (v : Word) : (s.setCoef i v).ctrl = s.ctrl := rfl
@[simp] theorem setCoef_status (s : State) (i : Fin 64) (v : Word) : (s.setCoef i v).status = s.status := rfl
@[simp] theorem setCoef_cmd (s : State) (i : Fin 64) (v : Word) : (s.setCoef i v).cmd = s.cmd := rfl
@[simp] theorem setCoef_arg0 (s : State) (i : Fin 64) (v : Word) : (s.setCoef i v).arg0 = s.arg0 := rfl
@[simp] theorem setCoef_result (s : State) (i : Fin 64) (v : Word) : (s.setCoef i v).result = s.result := rfl
@[simp] theorem setCoef_pos (s : State) (i : Fin 64) (v : Word) : (s.setCoef i v).pos = s.pos := rfl
@[simp] theorem setCoef_winOrg (s : State) (i : Fin 64) (v : Word) : (s.setCoef i v).winOrg = s.winOrg := rfl
@[simp] theorem setCoef_winLen (s : State) (i : Fin 64) (v : Word) : (s.setCoef i v).winLen = s.winLen := rfl
@[simp] theorem setCoef_imgW (s : State) (i : Fin 64) (v : Word) : (s.setCoef i v).imgW = s.imgW := rfl
@[simp] theorem setCoef_imgH (s : State) (i : Fin 64) (v : Word) : (s.setCoef i v).imgH = s.imgH := rfl
@[simp] theorem setCoef_dstBase (s : State) (i : Fin 64) (v : Word) : (s.setCoef i v).dstBase = s.dstBase := rfl
@[simp] theorem setCoef_blkX (s : State) (i : Fin 64) (v : Word) : (s.setCoef i v).blkX = s.blkX := rfl
@[simp] theorem setCoef_blkY (s : State) (i : Fin 64) (v : Word) : (s.setCoef i v).blkY = s.blkY := rfl
@[simp] theorem setCoef_errinfo (s : State) (i : Fin 64) (v : Word) : (s.setCoef i v).errinfo = s.errinfo := rfl
@[simp] theorem setCoef_dc (s : State) (i : Fin 64) (v : Word) : (s.setCoef i v).dc = s.dc := rfl
@[simp] theorem setCoef_tmp (s : State) (i : Fin 64) (v : Word) : (s.setCoef i v).tmp = s.tmp := rfl
@[simp] theorem setCoef_plane (s : State) (i : Fin 64) (v : Word) : (s.setCoef i v).plane = s.plane := rfl
@[simp] theorem setCoef_pix (s : State) (i : Fin 64) (v : Word) : (s.setCoef i v).pix = s.pix := rfl
@[simp] theorem setCoef_pageValid (s : State) (i : Fin 64) (v : Word) : (s.setCoef i v).pageValid = s.pageValid := rfl
@[simp] theorem setCoef_pageBase (s : State) (i : Fin 64) (v : Word) : (s.setCoef i v).pageBase = s.pageBase := rfl
@[simp] theorem setCoef_page (s : State) (i : Fin 64) (v : Word) : (s.setCoef i v).page = s.page := rfl
@[simp] theorem setCoef_rom (s : State) (i : Fin 64) (v : Word) : (s.setCoef i v).rom = s.rom := rfl
@[simp] theorem setCoef_src (s : State) (i : Fin 64) (v : Word) : (s.setCoef i v).src = s.src := rfl
@[simp] theorem setCoef_dst (s : State) (i : Fin 64) (v : Word) : (s.setCoef i v).dst = s.dst := rfl
@[simp] theorem setCoef_inReset (s : State) (i : Fin 64) (v : Word) : (s.setCoef i v).inReset = s.inReset := rfl
@[simp] theorem setCoef_inputs (s : State) (i : Fin 64) (v : Word) : (s.setCoef i v).inputs = s.inputs := rfl
@[simp] theorem setCoef_portData (s : State) (i : Fin 64) (v : Word) : (s.setCoef i v).portData = s.portData := rfl
@[simp] theorem setCoef_lateW1C (s : State) (i : Fin 64) (v : Word) : (s.setCoef i v).lateW1C = s.lateW1C := rfl
@[simp] theorem setCoef_lateOvr (s : State) (i : Fin 64) (v : Word) : (s.setCoef i v).lateOvr = s.lateOvr := rfl
@[simp] theorem setCoef_draws (s : State) (i : Fin 64) (v : Word) : (s.setCoef i v).draws = s.draws := rfl
@[simp] theorem setCoef_memReads (s : State) (i : Fin 64) (v : Word) : (s.setCoef i v).memReads = s.memReads := rfl
@[simp] theorem setCoef_raced (s : State) (i : Fin 64) (v : Word) : (s.setCoef i v).raced = s.raced := rfl
@[simp] theorem setCoef_session (s : State) (i : Fin 64) (v : Word) : (s.setCoef i v).session = s.session := rfl

/-! ### `State.clobber` -/

@[simp] theorem clobber_ctrl (s : State) (w : Writes) : (s.clobber w).ctrl = s.ctrl := rfl
@[simp] theorem clobber_cmd (s : State) (w : Writes) : (s.clobber w).cmd = s.cmd := rfl
@[simp] theorem clobber_arg0 (s : State) (w : Writes) : (s.clobber w).arg0 = s.arg0 := rfl
@[simp] theorem clobber_winOrg (s : State) (w : Writes) : (s.clobber w).winOrg = s.winOrg := rfl
@[simp] theorem clobber_winLen (s : State) (w : Writes) : (s.clobber w).winLen = s.winLen := rfl
@[simp] theorem clobber_imgW (s : State) (w : Writes) : (s.clobber w).imgW = s.imgW := rfl
@[simp] theorem clobber_imgH (s : State) (w : Writes) : (s.clobber w).imgH = s.imgH := rfl
@[simp] theorem clobber_dstBase (s : State) (w : Writes) : (s.clobber w).dstBase = s.dstBase := rfl
@[simp] theorem clobber_errinfo (s : State) (w : Writes) : (s.clobber w).errinfo = s.errinfo := rfl
@[simp] theorem clobber_pageBase (s : State) (w : Writes) : (s.clobber w).pageBase = s.pageBase := rfl
@[simp] theorem clobber_page (s : State) (w : Writes) : (s.clobber w).page = s.page := rfl
@[simp] theorem clobber_rom (s : State) (w : Writes) : (s.clobber w).rom = s.rom := rfl
@[simp] theorem clobber_src (s : State) (w : Writes) : (s.clobber w).src = s.src := rfl
@[simp] theorem clobber_dst (s : State) (w : Writes) : (s.clobber w).dst = s.dst := rfl
@[simp] theorem clobber_inReset (s : State) (w : Writes) : (s.clobber w).inReset = s.inReset := rfl
@[simp] theorem clobber_inputs (s : State) (w : Writes) : (s.clobber w).inputs = s.inputs := rfl
@[simp] theorem clobber_portData (s : State) (w : Writes) : (s.clobber w).portData = s.portData := rfl
@[simp] theorem clobber_lateW1C (s : State) (w : Writes) : (s.clobber w).lateW1C = s.lateW1C := rfl
@[simp] theorem clobber_lateOvr (s : State) (w : Writes) : (s.clobber w).lateOvr = s.lateOvr := rfl
@[simp] theorem clobber_memReads (s : State) (w : Writes) : (s.clobber w).memReads = s.memReads := rfl
@[simp] theorem clobber_raced (s : State) (w : Writes) : (s.clobber w).raced = s.raced := rfl
@[simp] theorem clobber_session (s : State) (w : Writes) : (s.clobber w).session = s.session := rfl

/-! ### `State.takeError` -/

@[simp] theorem takeError_ctrl (s : State) (code : ErrCode) (info : Word) (w : Writes) : (s.takeError code info w).ctrl = s.ctrl := by unfold State.takeError; split <;> rfl
@[simp] theorem takeError_cmd (s : State) (code : ErrCode) (info : Word) (w : Writes) : (s.takeError code info w).cmd = s.cmd := by unfold State.takeError; split <;> rfl
@[simp] theorem takeError_arg0 (s : State) (code : ErrCode) (info : Word) (w : Writes) : (s.takeError code info w).arg0 = s.arg0 := by unfold State.takeError; split <;> rfl
@[simp] theorem takeError_winOrg (s : State) (code : ErrCode) (info : Word) (w : Writes) : (s.takeError code info w).winOrg = s.winOrg := by unfold State.takeError; split <;> rfl
@[simp] theorem takeError_winLen (s : State) (code : ErrCode) (info : Word) (w : Writes) : (s.takeError code info w).winLen = s.winLen := by unfold State.takeError; split <;> rfl
@[simp] theorem takeError_imgW (s : State) (code : ErrCode) (info : Word) (w : Writes) : (s.takeError code info w).imgW = s.imgW := by unfold State.takeError; split <;> rfl
@[simp] theorem takeError_imgH (s : State) (code : ErrCode) (info : Word) (w : Writes) : (s.takeError code info w).imgH = s.imgH := by unfold State.takeError; split <;> rfl
@[simp] theorem takeError_dstBase (s : State) (code : ErrCode) (info : Word) (w : Writes) : (s.takeError code info w).dstBase = s.dstBase := by unfold State.takeError; split <;> rfl
@[simp] theorem takeError_pageBase (s : State) (code : ErrCode) (info : Word) (w : Writes) : (s.takeError code info w).pageBase = s.pageBase := by unfold State.takeError; split <;> rfl
@[simp] theorem takeError_page (s : State) (code : ErrCode) (info : Word) (w : Writes) : (s.takeError code info w).page = s.page := by unfold State.takeError; split <;> rfl
@[simp] theorem takeError_rom (s : State) (code : ErrCode) (info : Word) (w : Writes) : (s.takeError code info w).rom = s.rom := by unfold State.takeError; split <;> rfl
@[simp] theorem takeError_src (s : State) (code : ErrCode) (info : Word) (w : Writes) : (s.takeError code info w).src = s.src := by unfold State.takeError; split <;> rfl
@[simp] theorem takeError_dst (s : State) (code : ErrCode) (info : Word) (w : Writes) : (s.takeError code info w).dst = s.dst := by unfold State.takeError; split <;> rfl
@[simp] theorem takeError_inReset (s : State) (code : ErrCode) (info : Word) (w : Writes) : (s.takeError code info w).inReset = s.inReset := by unfold State.takeError; split <;> rfl
@[simp] theorem takeError_inputs (s : State) (code : ErrCode) (info : Word) (w : Writes) : (s.takeError code info w).inputs = s.inputs := by unfold State.takeError; split <;> rfl
@[simp] theorem takeError_portData (s : State) (code : ErrCode) (info : Word) (w : Writes) : (s.takeError code info w).portData = s.portData := by unfold State.takeError; split <;> rfl
@[simp] theorem takeError_lateW1C (s : State) (code : ErrCode) (info : Word) (w : Writes) : (s.takeError code info w).lateW1C = s.lateW1C := by unfold State.takeError; split <;> rfl
@[simp] theorem takeError_lateOvr (s : State) (code : ErrCode) (info : Word) (w : Writes) : (s.takeError code info w).lateOvr = s.lateOvr := by unfold State.takeError; split <;> rfl
@[simp] theorem takeError_memReads (s : State) (code : ErrCode) (info : Word) (w : Writes) : (s.takeError code info w).memReads = s.memReads := by unfold State.takeError; split <;> rfl
@[simp] theorem takeError_raced (s : State) (code : ErrCode) (info : Word) (w : Writes) : (s.takeError code info w).raced = s.raced := by unfold State.takeError; split <;> rfl
@[simp] theorem takeError_session (s : State) (code : ErrCode) (info : Word) (w : Writes) : (s.takeError code info w).session = s.session := by unfold State.takeError; split <;> rfl

/-! ### `State.sessionReset` -/

@[simp] theorem sessionReset_ctrl (s : State) : s.sessionReset.ctrl = s.ctrl := rfl
@[simp] theorem sessionReset_cmd (s : State) : s.sessionReset.cmd = s.cmd := rfl
@[simp] theorem sessionReset_arg0 (s : State) : s.sessionReset.arg0 = s.arg0 := rfl
@[simp] theorem sessionReset_winOrg (s : State) : s.sessionReset.winOrg = s.winOrg := rfl
@[simp] theorem sessionReset_winLen (s : State) : s.sessionReset.winLen = s.winLen := rfl
@[simp] theorem sessionReset_imgW (s : State) : s.sessionReset.imgW = s.imgW := rfl
@[simp] theorem sessionReset_imgH (s : State) : s.sessionReset.imgH = s.imgH := rfl
@[simp] theorem sessionReset_dstBase (s : State) : s.sessionReset.dstBase = s.dstBase := rfl
@[simp] theorem sessionReset_coef (s : State) : s.sessionReset.coef = s.coef := rfl
@[simp] theorem sessionReset_tmp (s : State) : s.sessionReset.tmp = s.tmp := rfl
@[simp] theorem sessionReset_plane (s : State) : s.sessionReset.plane = s.plane := rfl
@[simp] theorem sessionReset_pix (s : State) : s.sessionReset.pix = s.pix := rfl
@[simp] theorem sessionReset_pageBase (s : State) : s.sessionReset.pageBase = s.pageBase := rfl
@[simp] theorem sessionReset_page (s : State) : s.sessionReset.page = s.page := rfl
@[simp] theorem sessionReset_rom (s : State) : s.sessionReset.rom = s.rom := rfl
@[simp] theorem sessionReset_src (s : State) : s.sessionReset.src = s.src := rfl
@[simp] theorem sessionReset_dst (s : State) : s.sessionReset.dst = s.dst := rfl
@[simp] theorem sessionReset_inReset (s : State) : s.sessionReset.inReset = s.inReset := rfl
@[simp] theorem sessionReset_inputs (s : State) : s.sessionReset.inputs = s.inputs := rfl
@[simp] theorem sessionReset_portData (s : State) : s.sessionReset.portData = s.portData := rfl
@[simp] theorem sessionReset_lateW1C (s : State) : s.sessionReset.lateW1C = s.lateW1C := rfl
@[simp] theorem sessionReset_lateOvr (s : State) : s.sessionReset.lateOvr = s.lateOvr := rfl
@[simp] theorem sessionReset_draws (s : State) : s.sessionReset.draws = s.draws := rfl
@[simp] theorem sessionReset_memReads (s : State) : s.sessionReset.memReads = s.memReads := rfl

/-! ### `State.initCoef` -/

@[simp] theorem initCoef_ctrl (s : State) (p : Plane) : (s.initCoef p).ctrl = s.ctrl := rfl
@[simp] theorem initCoef_status (s : State) (p : Plane) : (s.initCoef p).status = s.status := rfl
@[simp] theorem initCoef_cmd (s : State) (p : Plane) : (s.initCoef p).cmd = s.cmd := rfl
@[simp] theorem initCoef_arg0 (s : State) (p : Plane) : (s.initCoef p).arg0 = s.arg0 := rfl
@[simp] theorem initCoef_result (s : State) (p : Plane) : (s.initCoef p).result = s.result := rfl
@[simp] theorem initCoef_pos (s : State) (p : Plane) : (s.initCoef p).pos = s.pos := rfl
@[simp] theorem initCoef_winOrg (s : State) (p : Plane) : (s.initCoef p).winOrg = s.winOrg := rfl
@[simp] theorem initCoef_winLen (s : State) (p : Plane) : (s.initCoef p).winLen = s.winLen := rfl
@[simp] theorem initCoef_imgW (s : State) (p : Plane) : (s.initCoef p).imgW = s.imgW := rfl
@[simp] theorem initCoef_imgH (s : State) (p : Plane) : (s.initCoef p).imgH = s.imgH := rfl
@[simp] theorem initCoef_dstBase (s : State) (p : Plane) : (s.initCoef p).dstBase = s.dstBase := rfl
@[simp] theorem initCoef_blkX (s : State) (p : Plane) : (s.initCoef p).blkX = s.blkX := rfl
@[simp] theorem initCoef_blkY (s : State) (p : Plane) : (s.initCoef p).blkY = s.blkY := rfl
@[simp] theorem initCoef_errinfo (s : State) (p : Plane) : (s.initCoef p).errinfo = s.errinfo := rfl
@[simp] theorem initCoef_dc (s : State) (p : Plane) : (s.initCoef p).dc = s.dc := rfl
@[simp] theorem initCoef_tmp (s : State) (p : Plane) : (s.initCoef p).tmp = s.tmp := rfl
@[simp] theorem initCoef_plane (s : State) (p : Plane) : (s.initCoef p).plane = s.plane := rfl
@[simp] theorem initCoef_pix (s : State) (p : Plane) : (s.initCoef p).pix = s.pix := rfl
@[simp] theorem initCoef_pageValid (s : State) (p : Plane) : (s.initCoef p).pageValid = s.pageValid := rfl
@[simp] theorem initCoef_pageBase (s : State) (p : Plane) : (s.initCoef p).pageBase = s.pageBase := rfl
@[simp] theorem initCoef_page (s : State) (p : Plane) : (s.initCoef p).page = s.page := rfl
@[simp] theorem initCoef_rom (s : State) (p : Plane) : (s.initCoef p).rom = s.rom := rfl
@[simp] theorem initCoef_src (s : State) (p : Plane) : (s.initCoef p).src = s.src := rfl
@[simp] theorem initCoef_dst (s : State) (p : Plane) : (s.initCoef p).dst = s.dst := rfl
@[simp] theorem initCoef_inReset (s : State) (p : Plane) : (s.initCoef p).inReset = s.inReset := rfl
@[simp] theorem initCoef_inputs (s : State) (p : Plane) : (s.initCoef p).inputs = s.inputs := rfl
@[simp] theorem initCoef_portData (s : State) (p : Plane) : (s.initCoef p).portData = s.portData := rfl
@[simp] theorem initCoef_lateW1C (s : State) (p : Plane) : (s.initCoef p).lateW1C = s.lateW1C := rfl
@[simp] theorem initCoef_lateOvr (s : State) (p : Plane) : (s.initCoef p).lateOvr = s.lateOvr := rfl
@[simp] theorem initCoef_draws (s : State) (p : Plane) : (s.initCoef p).draws = s.draws := rfl
@[simp] theorem initCoef_memReads (s : State) (p : Plane) : (s.initCoef p).memReads = s.memReads := rfl
@[simp] theorem initCoef_raced (s : State) (p : Plane) : (s.initCoef p).raced = s.raced := rfl
@[simp] theorem initCoef_session (s : State) (p : Plane) : (s.initCoef p).session = s.session := rfl

/-! ### `State.accumulateDc` -/

@[simp] theorem accumulateDc_ctrl (s : State) (p : Plane) (delta : Int) : (s.accumulateDc p delta).ctrl = s.ctrl := rfl
@[simp] theorem accumulateDc_status (s : State) (p : Plane) (delta : Int) : (s.accumulateDc p delta).status = s.status := rfl
@[simp] theorem accumulateDc_cmd (s : State) (p : Plane) (delta : Int) : (s.accumulateDc p delta).cmd = s.cmd := rfl
@[simp] theorem accumulateDc_arg0 (s : State) (p : Plane) (delta : Int) : (s.accumulateDc p delta).arg0 = s.arg0 := rfl
@[simp] theorem accumulateDc_pos (s : State) (p : Plane) (delta : Int) : (s.accumulateDc p delta).pos = s.pos := rfl
@[simp] theorem accumulateDc_winOrg (s : State) (p : Plane) (delta : Int) : (s.accumulateDc p delta).winOrg = s.winOrg := rfl
@[simp] theorem accumulateDc_winLen (s : State) (p : Plane) (delta : Int) : (s.accumulateDc p delta).winLen = s.winLen := rfl
@[simp] theorem accumulateDc_imgW (s : State) (p : Plane) (delta : Int) : (s.accumulateDc p delta).imgW = s.imgW := rfl
@[simp] theorem accumulateDc_imgH (s : State) (p : Plane) (delta : Int) : (s.accumulateDc p delta).imgH = s.imgH := rfl
@[simp] theorem accumulateDc_dstBase (s : State) (p : Plane) (delta : Int) : (s.accumulateDc p delta).dstBase = s.dstBase := rfl
@[simp] theorem accumulateDc_blkX (s : State) (p : Plane) (delta : Int) : (s.accumulateDc p delta).blkX = s.blkX := rfl
@[simp] theorem accumulateDc_blkY (s : State) (p : Plane) (delta : Int) : (s.accumulateDc p delta).blkY = s.blkY := rfl
@[simp] theorem accumulateDc_errinfo (s : State) (p : Plane) (delta : Int) : (s.accumulateDc p delta).errinfo = s.errinfo := rfl
@[simp] theorem accumulateDc_coef (s : State) (p : Plane) (delta : Int) : (s.accumulateDc p delta).coef = s.coef := rfl
@[simp] theorem accumulateDc_tmp (s : State) (p : Plane) (delta : Int) : (s.accumulateDc p delta).tmp = s.tmp := rfl
@[simp] theorem accumulateDc_plane (s : State) (p : Plane) (delta : Int) : (s.accumulateDc p delta).plane = s.plane := rfl
@[simp] theorem accumulateDc_pix (s : State) (p : Plane) (delta : Int) : (s.accumulateDc p delta).pix = s.pix := rfl
@[simp] theorem accumulateDc_pageValid (s : State) (p : Plane) (delta : Int) : (s.accumulateDc p delta).pageValid = s.pageValid := rfl
@[simp] theorem accumulateDc_pageBase (s : State) (p : Plane) (delta : Int) : (s.accumulateDc p delta).pageBase = s.pageBase := rfl
@[simp] theorem accumulateDc_page (s : State) (p : Plane) (delta : Int) : (s.accumulateDc p delta).page = s.page := rfl
@[simp] theorem accumulateDc_rom (s : State) (p : Plane) (delta : Int) : (s.accumulateDc p delta).rom = s.rom := rfl
@[simp] theorem accumulateDc_src (s : State) (p : Plane) (delta : Int) : (s.accumulateDc p delta).src = s.src := rfl
@[simp] theorem accumulateDc_dst (s : State) (p : Plane) (delta : Int) : (s.accumulateDc p delta).dst = s.dst := rfl
@[simp] theorem accumulateDc_inReset (s : State) (p : Plane) (delta : Int) : (s.accumulateDc p delta).inReset = s.inReset := rfl
@[simp] theorem accumulateDc_inputs (s : State) (p : Plane) (delta : Int) : (s.accumulateDc p delta).inputs = s.inputs := rfl
@[simp] theorem accumulateDc_portData (s : State) (p : Plane) (delta : Int) : (s.accumulateDc p delta).portData = s.portData := rfl
@[simp] theorem accumulateDc_lateW1C (s : State) (p : Plane) (delta : Int) : (s.accumulateDc p delta).lateW1C = s.lateW1C := rfl
@[simp] theorem accumulateDc_lateOvr (s : State) (p : Plane) (delta : Int) : (s.accumulateDc p delta).lateOvr = s.lateOvr := rfl
@[simp] theorem accumulateDc_draws (s : State) (p : Plane) (delta : Int) : (s.accumulateDc p delta).draws = s.draws := rfl
@[simp] theorem accumulateDc_memReads (s : State) (p : Plane) (delta : Int) : (s.accumulateDc p delta).memReads = s.memReads := rfl
@[simp] theorem accumulateDc_raced (s : State) (p : Plane) (delta : Int) : (s.accumulateDc p delta).raced = s.raced := rfl
@[simp] theorem accumulateDc_session (s : State) (p : Plane) (delta : Int) : (s.accumulateDc p delta).session = s.session := rfl

/-! ### `State.setFill` -/

@[simp] theorem setFill_ctrl (s : State) (b : Bool) : (s.setFill b).ctrl = s.ctrl := rfl
@[simp] theorem setFill_cmd (s : State) (b : Bool) : (s.setFill b).cmd = s.cmd := rfl
@[simp] theorem setFill_arg0 (s : State) (b : Bool) : (s.setFill b).arg0 = s.arg0 := rfl
@[simp] theorem setFill_result (s : State) (b : Bool) : (s.setFill b).result = s.result := rfl
@[simp] theorem setFill_pos (s : State) (b : Bool) : (s.setFill b).pos = s.pos := rfl
@[simp] theorem setFill_winOrg (s : State) (b : Bool) : (s.setFill b).winOrg = s.winOrg := rfl
@[simp] theorem setFill_winLen (s : State) (b : Bool) : (s.setFill b).winLen = s.winLen := rfl
@[simp] theorem setFill_imgW (s : State) (b : Bool) : (s.setFill b).imgW = s.imgW := rfl
@[simp] theorem setFill_imgH (s : State) (b : Bool) : (s.setFill b).imgH = s.imgH := rfl
@[simp] theorem setFill_dstBase (s : State) (b : Bool) : (s.setFill b).dstBase = s.dstBase := rfl
@[simp] theorem setFill_blkX (s : State) (b : Bool) : (s.setFill b).blkX = s.blkX := rfl
@[simp] theorem setFill_blkY (s : State) (b : Bool) : (s.setFill b).blkY = s.blkY := rfl
@[simp] theorem setFill_errinfo (s : State) (b : Bool) : (s.setFill b).errinfo = s.errinfo := rfl
@[simp] theorem setFill_dc (s : State) (b : Bool) : (s.setFill b).dc = s.dc := rfl
@[simp] theorem setFill_coef (s : State) (b : Bool) : (s.setFill b).coef = s.coef := rfl
@[simp] theorem setFill_tmp (s : State) (b : Bool) : (s.setFill b).tmp = s.tmp := rfl
@[simp] theorem setFill_plane (s : State) (b : Bool) : (s.setFill b).plane = s.plane := rfl
@[simp] theorem setFill_pix (s : State) (b : Bool) : (s.setFill b).pix = s.pix := rfl
@[simp] theorem setFill_pageValid (s : State) (b : Bool) : (s.setFill b).pageValid = s.pageValid := rfl
@[simp] theorem setFill_pageBase (s : State) (b : Bool) : (s.setFill b).pageBase = s.pageBase := rfl
@[simp] theorem setFill_page (s : State) (b : Bool) : (s.setFill b).page = s.page := rfl
@[simp] theorem setFill_rom (s : State) (b : Bool) : (s.setFill b).rom = s.rom := rfl
@[simp] theorem setFill_src (s : State) (b : Bool) : (s.setFill b).src = s.src := rfl
@[simp] theorem setFill_dst (s : State) (b : Bool) : (s.setFill b).dst = s.dst := rfl
@[simp] theorem setFill_inReset (s : State) (b : Bool) : (s.setFill b).inReset = s.inReset := rfl
@[simp] theorem setFill_inputs (s : State) (b : Bool) : (s.setFill b).inputs = s.inputs := rfl
@[simp] theorem setFill_portData (s : State) (b : Bool) : (s.setFill b).portData = s.portData := rfl
@[simp] theorem setFill_lateW1C (s : State) (b : Bool) : (s.setFill b).lateW1C = s.lateW1C := rfl
@[simp] theorem setFill_lateOvr (s : State) (b : Bool) : (s.setFill b).lateOvr = s.lateOvr := rfl
@[simp] theorem setFill_draws (s : State) (b : Bool) : (s.setFill b).draws = s.draws := rfl
@[simp] theorem setFill_memReads (s : State) (b : Bool) : (s.setFill b).memReads = s.memReads := rfl
@[simp] theorem setFill_raced (s : State) (b : Bool) : (s.setFill b).raced = s.raced := rfl
@[simp] theorem setFill_session (s : State) (b : Bool) : (s.setFill b).session = s.session := rfl

/-! ### `State.afterDcSkip` -/

@[simp] theorem afterDcSkip_ctrl (s : State) : s.afterDcSkip.ctrl = s.ctrl := by simp [State.afterDcSkip]
@[simp] theorem afterDcSkip_cmd (s : State) : s.afterDcSkip.cmd = s.cmd := by simp [State.afterDcSkip]
@[simp] theorem afterDcSkip_arg0 (s : State) : s.afterDcSkip.arg0 = s.arg0 := by simp [State.afterDcSkip]
@[simp] theorem afterDcSkip_result (s : State) : s.afterDcSkip.result = s.result := by simp [State.afterDcSkip]
@[simp] theorem afterDcSkip_winOrg (s : State) : s.afterDcSkip.winOrg = s.winOrg := by simp [State.afterDcSkip]
@[simp] theorem afterDcSkip_winLen (s : State) : s.afterDcSkip.winLen = s.winLen := by simp [State.afterDcSkip]
@[simp] theorem afterDcSkip_imgW (s : State) : s.afterDcSkip.imgW = s.imgW := by simp [State.afterDcSkip]
@[simp] theorem afterDcSkip_imgH (s : State) : s.afterDcSkip.imgH = s.imgH := by simp [State.afterDcSkip]
@[simp] theorem afterDcSkip_dstBase (s : State) : s.afterDcSkip.dstBase = s.dstBase := by simp [State.afterDcSkip]
@[simp] theorem afterDcSkip_blkX (s : State) : s.afterDcSkip.blkX = s.blkX := by simp [State.afterDcSkip]
@[simp] theorem afterDcSkip_blkY (s : State) : s.afterDcSkip.blkY = s.blkY := by simp [State.afterDcSkip]
@[simp] theorem afterDcSkip_errinfo (s : State) : s.afterDcSkip.errinfo = s.errinfo := by simp [State.afterDcSkip]
@[simp] theorem afterDcSkip_dc (s : State) : s.afterDcSkip.dc = s.dc := by simp [State.afterDcSkip]
@[simp] theorem afterDcSkip_coef (s : State) : s.afterDcSkip.coef = s.coef := by simp [State.afterDcSkip]
@[simp] theorem afterDcSkip_tmp (s : State) : s.afterDcSkip.tmp = s.tmp := by simp [State.afterDcSkip]
@[simp] theorem afterDcSkip_plane (s : State) : s.afterDcSkip.plane = s.plane := by simp [State.afterDcSkip]
@[simp] theorem afterDcSkip_pix (s : State) : s.afterDcSkip.pix = s.pix := by simp [State.afterDcSkip]
@[simp] theorem afterDcSkip_rom (s : State) : s.afterDcSkip.rom = s.rom := by simp [State.afterDcSkip]
@[simp] theorem afterDcSkip_src (s : State) : s.afterDcSkip.src = s.src := by simp [State.afterDcSkip]
@[simp] theorem afterDcSkip_dst (s : State) : s.afterDcSkip.dst = s.dst := by simp [State.afterDcSkip]
@[simp] theorem afterDcSkip_inReset (s : State) : s.afterDcSkip.inReset = s.inReset := by simp [State.afterDcSkip]
@[simp] theorem afterDcSkip_inputs (s : State) : s.afterDcSkip.inputs = s.inputs := by simp [State.afterDcSkip]
@[simp] theorem afterDcSkip_portData (s : State) : s.afterDcSkip.portData = s.portData := by simp [State.afterDcSkip]
@[simp] theorem afterDcSkip_lateW1C (s : State) : s.afterDcSkip.lateW1C = s.lateW1C := by simp [State.afterDcSkip]
@[simp] theorem afterDcSkip_lateOvr (s : State) : s.afterDcSkip.lateOvr = s.lateOvr := by simp [State.afterDcSkip]
@[simp] theorem afterDcSkip_raced (s : State) : s.afterDcSkip.raced = s.raced := by simp [State.afterDcSkip]
@[simp] theorem afterDcSkip_session (s : State) : s.afterDcSkip.session = s.session := by simp [State.afterDcSkip]

/-! ### `State.afterDcCode` -/

@[simp] theorem afterDcCode_ctrl (s : State) : s.afterDcCode.ctrl = s.ctrl := by unfold State.afterDcCode; split <;> simp
@[simp] theorem afterDcCode_cmd (s : State) : s.afterDcCode.cmd = s.cmd := by unfold State.afterDcCode; split <;> simp
@[simp] theorem afterDcCode_arg0 (s : State) : s.afterDcCode.arg0 = s.arg0 := by unfold State.afterDcCode; split <;> simp
@[simp] theorem afterDcCode_result (s : State) : s.afterDcCode.result = s.result := by unfold State.afterDcCode; split <;> simp
@[simp] theorem afterDcCode_winOrg (s : State) : s.afterDcCode.winOrg = s.winOrg := by unfold State.afterDcCode; split <;> simp
@[simp] theorem afterDcCode_winLen (s : State) : s.afterDcCode.winLen = s.winLen := by unfold State.afterDcCode; split <;> simp
@[simp] theorem afterDcCode_imgW (s : State) : s.afterDcCode.imgW = s.imgW := by unfold State.afterDcCode; split <;> simp
@[simp] theorem afterDcCode_imgH (s : State) : s.afterDcCode.imgH = s.imgH := by unfold State.afterDcCode; split <;> simp
@[simp] theorem afterDcCode_dstBase (s : State) : s.afterDcCode.dstBase = s.dstBase := by unfold State.afterDcCode; split <;> simp
@[simp] theorem afterDcCode_blkX (s : State) : s.afterDcCode.blkX = s.blkX := by unfold State.afterDcCode; split <;> simp
@[simp] theorem afterDcCode_blkY (s : State) : s.afterDcCode.blkY = s.blkY := by unfold State.afterDcCode; split <;> simp
@[simp] theorem afterDcCode_errinfo (s : State) : s.afterDcCode.errinfo = s.errinfo := by unfold State.afterDcCode; split <;> simp
@[simp] theorem afterDcCode_dc (s : State) : s.afterDcCode.dc = s.dc := by unfold State.afterDcCode; split <;> simp
@[simp] theorem afterDcCode_coef (s : State) : s.afterDcCode.coef = s.coef := by unfold State.afterDcCode; split <;> simp
@[simp] theorem afterDcCode_tmp (s : State) : s.afterDcCode.tmp = s.tmp := by unfold State.afterDcCode; split <;> simp
@[simp] theorem afterDcCode_plane (s : State) : s.afterDcCode.plane = s.plane := by unfold State.afterDcCode; split <;> simp
@[simp] theorem afterDcCode_pix (s : State) : s.afterDcCode.pix = s.pix := by unfold State.afterDcCode; split <;> simp
@[simp] theorem afterDcCode_rom (s : State) : s.afterDcCode.rom = s.rom := by unfold State.afterDcCode; split <;> simp
@[simp] theorem afterDcCode_src (s : State) : s.afterDcCode.src = s.src := by unfold State.afterDcCode; split <;> simp
@[simp] theorem afterDcCode_dst (s : State) : s.afterDcCode.dst = s.dst := by unfold State.afterDcCode; split <;> simp
@[simp] theorem afterDcCode_inReset (s : State) : s.afterDcCode.inReset = s.inReset := by unfold State.afterDcCode; split <;> simp
@[simp] theorem afterDcCode_inputs (s : State) : s.afterDcCode.inputs = s.inputs := by unfold State.afterDcCode; split <;> simp
@[simp] theorem afterDcCode_portData (s : State) : s.afterDcCode.portData = s.portData := by unfold State.afterDcCode; split <;> simp
@[simp] theorem afterDcCode_lateW1C (s : State) : s.afterDcCode.lateW1C = s.lateW1C := by unfold State.afterDcCode; split <;> simp
@[simp] theorem afterDcCode_lateOvr (s : State) : s.afterDcCode.lateOvr = s.lateOvr := by unfold State.afterDcCode; split <;> simp
@[simp] theorem afterDcCode_raced (s : State) : s.afterDcCode.raced = s.raced := by unfold State.afterDcCode; split <;> simp
@[simp] theorem afterDcCode_session (s : State) : s.afterDcCode.session = s.session := by unfold State.afterDcCode; split <;> simp

/-! ### `State.testFill` -/

@[simp] theorem testFill_ctrl (s : State) : s.testFill.ctrl = s.ctrl := by unfold State.testFill; split <;> simp
@[simp] theorem testFill_cmd (s : State) : s.testFill.cmd = s.cmd := by unfold State.testFill; split <;> simp
@[simp] theorem testFill_arg0 (s : State) : s.testFill.arg0 = s.arg0 := by unfold State.testFill; split <;> simp
@[simp] theorem testFill_result (s : State) : s.testFill.result = s.result := by unfold State.testFill; split <;> simp
@[simp] theorem testFill_winOrg (s : State) : s.testFill.winOrg = s.winOrg := by unfold State.testFill; split <;> simp
@[simp] theorem testFill_winLen (s : State) : s.testFill.winLen = s.winLen := by unfold State.testFill; split <;> simp
@[simp] theorem testFill_imgW (s : State) : s.testFill.imgW = s.imgW := by unfold State.testFill; split <;> simp
@[simp] theorem testFill_imgH (s : State) : s.testFill.imgH = s.imgH := by unfold State.testFill; split <;> simp
@[simp] theorem testFill_dstBase (s : State) : s.testFill.dstBase = s.dstBase := by unfold State.testFill; split <;> simp
@[simp] theorem testFill_blkX (s : State) : s.testFill.blkX = s.blkX := by unfold State.testFill; split <;> simp
@[simp] theorem testFill_blkY (s : State) : s.testFill.blkY = s.blkY := by unfold State.testFill; split <;> simp
@[simp] theorem testFill_errinfo (s : State) : s.testFill.errinfo = s.errinfo := by unfold State.testFill; split <;> simp
@[simp] theorem testFill_dc (s : State) : s.testFill.dc = s.dc := by unfold State.testFill; split <;> simp
@[simp] theorem testFill_coef (s : State) : s.testFill.coef = s.coef := by unfold State.testFill; split <;> simp
@[simp] theorem testFill_tmp (s : State) : s.testFill.tmp = s.tmp := by unfold State.testFill; split <;> simp
@[simp] theorem testFill_plane (s : State) : s.testFill.plane = s.plane := by unfold State.testFill; split <;> simp
@[simp] theorem testFill_pix (s : State) : s.testFill.pix = s.pix := by unfold State.testFill; split <;> simp
@[simp] theorem testFill_rom (s : State) : s.testFill.rom = s.rom := by unfold State.testFill; split <;> simp
@[simp] theorem testFill_src (s : State) : s.testFill.src = s.src := by unfold State.testFill; split <;> simp
@[simp] theorem testFill_dst (s : State) : s.testFill.dst = s.dst := by unfold State.testFill; split <;> simp
@[simp] theorem testFill_inReset (s : State) : s.testFill.inReset = s.inReset := by unfold State.testFill; split <;> simp
@[simp] theorem testFill_inputs (s : State) : s.testFill.inputs = s.inputs := by unfold State.testFill; split <;> simp
@[simp] theorem testFill_portData (s : State) : s.testFill.portData = s.portData := by unfold State.testFill; split <;> simp
@[simp] theorem testFill_lateW1C (s : State) : s.testFill.lateW1C = s.lateW1C := by unfold State.testFill; split <;> simp
@[simp] theorem testFill_lateOvr (s : State) : s.testFill.lateOvr = s.lateOvr := by unfold State.testFill; split <;> simp
@[simp] theorem testFill_raced (s : State) : s.testFill.raced = s.raced := by unfold State.testFill; split <;> simp
@[simp] theorem testFill_session (s : State) : s.testFill.session = s.session := by unfold State.testFill; split <;> simp

/-! ### `State.advanceTile` -/

@[simp] theorem advanceTile_ctrl (s : State) : s.advanceTile.ctrl = s.ctrl := by unfold State.advanceTile; split <;> rfl
@[simp] theorem advanceTile_status (s : State) : s.advanceTile.status = s.status := by unfold State.advanceTile; split <;> rfl
@[simp] theorem advanceTile_cmd (s : State) : s.advanceTile.cmd = s.cmd := by unfold State.advanceTile; split <;> rfl
@[simp] theorem advanceTile_arg0 (s : State) : s.advanceTile.arg0 = s.arg0 := by unfold State.advanceTile; split <;> rfl
@[simp] theorem advanceTile_result (s : State) : s.advanceTile.result = s.result := by unfold State.advanceTile; split <;> rfl
@[simp] theorem advanceTile_pos (s : State) : s.advanceTile.pos = s.pos := by unfold State.advanceTile; split <;> rfl
@[simp] theorem advanceTile_winOrg (s : State) : s.advanceTile.winOrg = s.winOrg := by unfold State.advanceTile; split <;> rfl
@[simp] theorem advanceTile_winLen (s : State) : s.advanceTile.winLen = s.winLen := by unfold State.advanceTile; split <;> rfl
@[simp] theorem advanceTile_imgW (s : State) : s.advanceTile.imgW = s.imgW := by unfold State.advanceTile; split <;> rfl
@[simp] theorem advanceTile_imgH (s : State) : s.advanceTile.imgH = s.imgH := by unfold State.advanceTile; split <;> rfl
@[simp] theorem advanceTile_dstBase (s : State) : s.advanceTile.dstBase = s.dstBase := by unfold State.advanceTile; split <;> rfl
@[simp] theorem advanceTile_errinfo (s : State) : s.advanceTile.errinfo = s.errinfo := by unfold State.advanceTile; split <;> rfl
@[simp] theorem advanceTile_dc (s : State) : s.advanceTile.dc = s.dc := by unfold State.advanceTile; split <;> rfl
@[simp] theorem advanceTile_coef (s : State) : s.advanceTile.coef = s.coef := by unfold State.advanceTile; split <;> rfl
@[simp] theorem advanceTile_tmp (s : State) : s.advanceTile.tmp = s.tmp := by unfold State.advanceTile; split <;> rfl
@[simp] theorem advanceTile_plane (s : State) : s.advanceTile.plane = s.plane := by unfold State.advanceTile; split <;> rfl
@[simp] theorem advanceTile_pix (s : State) : s.advanceTile.pix = s.pix := by unfold State.advanceTile; split <;> rfl
@[simp] theorem advanceTile_pageValid (s : State) : s.advanceTile.pageValid = s.pageValid := by unfold State.advanceTile; split <;> rfl
@[simp] theorem advanceTile_pageBase (s : State) : s.advanceTile.pageBase = s.pageBase := by unfold State.advanceTile; split <;> rfl
@[simp] theorem advanceTile_page (s : State) : s.advanceTile.page = s.page := by unfold State.advanceTile; split <;> rfl
@[simp] theorem advanceTile_rom (s : State) : s.advanceTile.rom = s.rom := by unfold State.advanceTile; split <;> rfl
@[simp] theorem advanceTile_src (s : State) : s.advanceTile.src = s.src := by unfold State.advanceTile; split <;> rfl
@[simp] theorem advanceTile_dst (s : State) : s.advanceTile.dst = s.dst := by unfold State.advanceTile; split <;> rfl
@[simp] theorem advanceTile_inReset (s : State) : s.advanceTile.inReset = s.inReset := by unfold State.advanceTile; split <;> rfl
@[simp] theorem advanceTile_inputs (s : State) : s.advanceTile.inputs = s.inputs := by unfold State.advanceTile; split <;> rfl
@[simp] theorem advanceTile_portData (s : State) : s.advanceTile.portData = s.portData := by unfold State.advanceTile; split <;> rfl
@[simp] theorem advanceTile_lateW1C (s : State) : s.advanceTile.lateW1C = s.lateW1C := by unfold State.advanceTile; split <;> rfl
@[simp] theorem advanceTile_lateOvr (s : State) : s.advanceTile.lateOvr = s.lateOvr := by unfold State.advanceTile; split <;> rfl
@[simp] theorem advanceTile_draws (s : State) : s.advanceTile.draws = s.draws := by unfold State.advanceTile; split <;> rfl
@[simp] theorem advanceTile_memReads (s : State) : s.advanceTile.memReads = s.memReads := by unfold State.advanceTile; split <;> rfl
@[simp] theorem advanceTile_raced (s : State) : s.advanceTile.raced = s.raced := by unfold State.advanceTile; split <;> rfl
@[simp] theorem advanceTile_session (s : State) : s.advanceTile.session = s.session := by unfold State.advanceTile; split <;> rfl

/-! ### `State.startImage` -/

@[simp] theorem startImage_ctrl (s : State) : s.startImage.ctrl = s.ctrl := rfl
@[simp] theorem startImage_status (s : State) : s.startImage.status = s.status := rfl
@[simp] theorem startImage_cmd (s : State) : s.startImage.cmd = s.cmd := rfl
@[simp] theorem startImage_arg0 (s : State) : s.startImage.arg0 = s.arg0 := rfl
@[simp] theorem startImage_result (s : State) : s.startImage.result = s.result := rfl
@[simp] theorem startImage_pos (s : State) : s.startImage.pos = s.pos := rfl
@[simp] theorem startImage_winOrg (s : State) : s.startImage.winOrg = s.winOrg := rfl
@[simp] theorem startImage_winLen (s : State) : s.startImage.winLen = s.winLen := rfl
@[simp] theorem startImage_imgW (s : State) : s.startImage.imgW = s.imgW := rfl
@[simp] theorem startImage_imgH (s : State) : s.startImage.imgH = s.imgH := rfl
@[simp] theorem startImage_dstBase (s : State) : s.startImage.dstBase = s.dstBase := rfl
@[simp] theorem startImage_errinfo (s : State) : s.startImage.errinfo = s.errinfo := rfl
@[simp] theorem startImage_coef (s : State) : s.startImage.coef = s.coef := rfl
@[simp] theorem startImage_tmp (s : State) : s.startImage.tmp = s.tmp := rfl
@[simp] theorem startImage_plane (s : State) : s.startImage.plane = s.plane := rfl
@[simp] theorem startImage_pix (s : State) : s.startImage.pix = s.pix := rfl
@[simp] theorem startImage_pageBase (s : State) : s.startImage.pageBase = s.pageBase := rfl
@[simp] theorem startImage_page (s : State) : s.startImage.page = s.page := rfl
@[simp] theorem startImage_rom (s : State) : s.startImage.rom = s.rom := rfl
@[simp] theorem startImage_src (s : State) : s.startImage.src = s.src := rfl
@[simp] theorem startImage_dst (s : State) : s.startImage.dst = s.dst := rfl
@[simp] theorem startImage_inReset (s : State) : s.startImage.inReset = s.inReset := rfl
@[simp] theorem startImage_inputs (s : State) : s.startImage.inputs = s.inputs := rfl
@[simp] theorem startImage_portData (s : State) : s.startImage.portData = s.portData := rfl
@[simp] theorem startImage_lateW1C (s : State) : s.startImage.lateW1C = s.lateW1C := rfl
@[simp] theorem startImage_lateOvr (s : State) : s.startImage.lateOvr = s.lateOvr := rfl
@[simp] theorem startImage_draws (s : State) : s.startImage.draws = s.draws := rfl
@[simp] theorem startImage_memReads (s : State) : s.startImage.memReads = s.memReads := rfl
@[simp] theorem startImage_raced (s : State) : s.startImage.raced = s.raced := rfl
@[simp] theorem startImage_session (s : State) : s.startImage.session = s.session := rfl

/-! ### `State.settle` -/

@[simp] theorem settle_ctrl (s : State) : s.settle.ctrl = s.ctrl := rfl
@[simp] theorem settle_cmd (s : State) : s.settle.cmd = s.cmd := rfl
@[simp] theorem settle_arg0 (s : State) : s.settle.arg0 = s.arg0 := rfl
@[simp] theorem settle_result (s : State) : s.settle.result = s.result := rfl
@[simp] theorem settle_pos (s : State) : s.settle.pos = s.pos := rfl
@[simp] theorem settle_winOrg (s : State) : s.settle.winOrg = s.winOrg := rfl
@[simp] theorem settle_winLen (s : State) : s.settle.winLen = s.winLen := rfl
@[simp] theorem settle_imgW (s : State) : s.settle.imgW = s.imgW := rfl
@[simp] theorem settle_imgH (s : State) : s.settle.imgH = s.imgH := rfl
@[simp] theorem settle_dstBase (s : State) : s.settle.dstBase = s.dstBase := rfl
@[simp] theorem settle_blkX (s : State) : s.settle.blkX = s.blkX := rfl
@[simp] theorem settle_blkY (s : State) : s.settle.blkY = s.blkY := rfl
@[simp] theorem settle_errinfo (s : State) : s.settle.errinfo = s.errinfo := rfl
@[simp] theorem settle_dc (s : State) : s.settle.dc = s.dc := rfl
@[simp] theorem settle_coef (s : State) : s.settle.coef = s.coef := rfl
@[simp] theorem settle_tmp (s : State) : s.settle.tmp = s.tmp := rfl
@[simp] theorem settle_plane (s : State) : s.settle.plane = s.plane := rfl
@[simp] theorem settle_pix (s : State) : s.settle.pix = s.pix := rfl
@[simp] theorem settle_pageValid (s : State) : s.settle.pageValid = s.pageValid := rfl
@[simp] theorem settle_pageBase (s : State) : s.settle.pageBase = s.pageBase := rfl
@[simp] theorem settle_page (s : State) : s.settle.page = s.page := rfl
@[simp] theorem settle_rom (s : State) : s.settle.rom = s.rom := rfl
@[simp] theorem settle_src (s : State) : s.settle.src = s.src := rfl
@[simp] theorem settle_dst (s : State) : s.settle.dst = s.dst := rfl
@[simp] theorem settle_inReset (s : State) : s.settle.inReset = s.inReset := rfl
@[simp] theorem settle_inputs (s : State) : s.settle.inputs = s.inputs := rfl
@[simp] theorem settle_portData (s : State) : s.settle.portData = s.portData := rfl
@[simp] theorem settle_draws (s : State) : s.settle.draws = s.draws := rfl
@[simp] theorem settle_memReads (s : State) : s.settle.memReads = s.memReads := rfl
@[simp] theorem settle_raced (s : State) : s.settle.raced = s.raced := rfl
@[simp] theorem settle_session (s : State) : s.settle.session = s.session := rfl

/-! ### `State.acceptCmd` -/

@[simp] theorem acceptCmd_ctrl (s : State) (c : Word) : (s.acceptCmd c).ctrl = s.ctrl := by unfold State.acceptCmd; split <;> rfl
@[simp] theorem acceptCmd_arg0 (s : State) (c : Word) : (s.acceptCmd c).arg0 = s.arg0 := by unfold State.acceptCmd; split <;> rfl
@[simp] theorem acceptCmd_result (s : State) (c : Word) : (s.acceptCmd c).result = s.result := by unfold State.acceptCmd; split <;> rfl
@[simp] theorem acceptCmd_pos (s : State) (c : Word) : (s.acceptCmd c).pos = s.pos := by unfold State.acceptCmd; split <;> rfl
@[simp] theorem acceptCmd_winOrg (s : State) (c : Word) : (s.acceptCmd c).winOrg = s.winOrg := by unfold State.acceptCmd; split <;> rfl
@[simp] theorem acceptCmd_winLen (s : State) (c : Word) : (s.acceptCmd c).winLen = s.winLen := by unfold State.acceptCmd; split <;> rfl
@[simp] theorem acceptCmd_imgW (s : State) (c : Word) : (s.acceptCmd c).imgW = s.imgW := by unfold State.acceptCmd; split <;> rfl
@[simp] theorem acceptCmd_imgH (s : State) (c : Word) : (s.acceptCmd c).imgH = s.imgH := by unfold State.acceptCmd; split <;> rfl
@[simp] theorem acceptCmd_dstBase (s : State) (c : Word) : (s.acceptCmd c).dstBase = s.dstBase := by unfold State.acceptCmd; split <;> rfl
@[simp] theorem acceptCmd_blkX (s : State) (c : Word) : (s.acceptCmd c).blkX = s.blkX := by unfold State.acceptCmd; split <;> rfl
@[simp] theorem acceptCmd_blkY (s : State) (c : Word) : (s.acceptCmd c).blkY = s.blkY := by unfold State.acceptCmd; split <;> rfl
@[simp] theorem acceptCmd_errinfo (s : State) (c : Word) : (s.acceptCmd c).errinfo = s.errinfo := by unfold State.acceptCmd; split <;> rfl
@[simp] theorem acceptCmd_dc (s : State) (c : Word) : (s.acceptCmd c).dc = s.dc := by unfold State.acceptCmd; split <;> rfl
@[simp] theorem acceptCmd_coef (s : State) (c : Word) : (s.acceptCmd c).coef = s.coef := by unfold State.acceptCmd; split <;> rfl
@[simp] theorem acceptCmd_tmp (s : State) (c : Word) : (s.acceptCmd c).tmp = s.tmp := by unfold State.acceptCmd; split <;> rfl
@[simp] theorem acceptCmd_plane (s : State) (c : Word) : (s.acceptCmd c).plane = s.plane := by unfold State.acceptCmd; split <;> rfl
@[simp] theorem acceptCmd_pix (s : State) (c : Word) : (s.acceptCmd c).pix = s.pix := by unfold State.acceptCmd; split <;> rfl
@[simp] theorem acceptCmd_pageValid (s : State) (c : Word) : (s.acceptCmd c).pageValid = s.pageValid := by unfold State.acceptCmd; split <;> rfl
@[simp] theorem acceptCmd_pageBase (s : State) (c : Word) : (s.acceptCmd c).pageBase = s.pageBase := by unfold State.acceptCmd; split <;> rfl
@[simp] theorem acceptCmd_page (s : State) (c : Word) : (s.acceptCmd c).page = s.page := by unfold State.acceptCmd; split <;> rfl
@[simp] theorem acceptCmd_rom (s : State) (c : Word) : (s.acceptCmd c).rom = s.rom := by unfold State.acceptCmd; split <;> rfl
@[simp] theorem acceptCmd_src (s : State) (c : Word) : (s.acceptCmd c).src = s.src := by unfold State.acceptCmd; split <;> rfl
@[simp] theorem acceptCmd_dst (s : State) (c : Word) : (s.acceptCmd c).dst = s.dst := by unfold State.acceptCmd; split <;> rfl
@[simp] theorem acceptCmd_inReset (s : State) (c : Word) : (s.acceptCmd c).inReset = s.inReset := by unfold State.acceptCmd; split <;> rfl
@[simp] theorem acceptCmd_inputs (s : State) (c : Word) : (s.acceptCmd c).inputs = s.inputs := by unfold State.acceptCmd; split <;> rfl
@[simp] theorem acceptCmd_portData (s : State) (c : Word) : (s.acceptCmd c).portData = s.portData := by unfold State.acceptCmd; split <;> rfl
@[simp] theorem acceptCmd_lateW1C (s : State) (c : Word) : (s.acceptCmd c).lateW1C = s.lateW1C := by unfold State.acceptCmd; split <;> rfl
@[simp] theorem acceptCmd_lateOvr (s : State) (c : Word) : (s.acceptCmd c).lateOvr = s.lateOvr := by unfold State.acceptCmd; split <;> rfl
@[simp] theorem acceptCmd_draws (s : State) (c : Word) : (s.acceptCmd c).draws = s.draws := by unfold State.acceptCmd; split <;> rfl
@[simp] theorem acceptCmd_memReads (s : State) (c : Word) : (s.acceptCmd c).memReads = s.memReads := by unfold State.acceptCmd; split <;> rfl
@[simp] theorem acceptCmd_raced (s : State) (c : Word) : (s.acceptCmd c).raced = s.raced := by unfold State.acceptCmd; split <;> rfl

/-! ### `State.hostSrcWrite` -/

@[simp] theorem hostSrcWrite_ctrl (s : State) (a : Word) (v : Byte) : (s.hostSrcWrite a v).ctrl = s.ctrl := by
  unfold State.hostSrcWrite; split <;> rfl
@[simp] theorem hostSrcWrite_status (s : State) (a : Word) (v : Byte) : (s.hostSrcWrite a v).status = s.status := by
  unfold State.hostSrcWrite; split <;> rfl
@[simp] theorem hostSrcWrite_cmd (s : State) (a : Word) (v : Byte) : (s.hostSrcWrite a v).cmd = s.cmd := by
  unfold State.hostSrcWrite; split <;> rfl
@[simp] theorem hostSrcWrite_arg0 (s : State) (a : Word) (v : Byte) : (s.hostSrcWrite a v).arg0 = s.arg0 := by
  unfold State.hostSrcWrite; split <;> rfl
@[simp] theorem hostSrcWrite_result (s : State) (a : Word) (v : Byte) : (s.hostSrcWrite a v).result = s.result := by
  unfold State.hostSrcWrite; split <;> rfl
@[simp] theorem hostSrcWrite_pos (s : State) (a : Word) (v : Byte) : (s.hostSrcWrite a v).pos = s.pos := by
  unfold State.hostSrcWrite; split <;> rfl
@[simp] theorem hostSrcWrite_winOrg (s : State) (a : Word) (v : Byte) : (s.hostSrcWrite a v).winOrg = s.winOrg := by
  unfold State.hostSrcWrite; split <;> rfl
@[simp] theorem hostSrcWrite_winLen (s : State) (a : Word) (v : Byte) : (s.hostSrcWrite a v).winLen = s.winLen := by
  unfold State.hostSrcWrite; split <;> rfl
@[simp] theorem hostSrcWrite_imgW (s : State) (a : Word) (v : Byte) : (s.hostSrcWrite a v).imgW = s.imgW := by
  unfold State.hostSrcWrite; split <;> rfl
@[simp] theorem hostSrcWrite_imgH (s : State) (a : Word) (v : Byte) : (s.hostSrcWrite a v).imgH = s.imgH := by
  unfold State.hostSrcWrite; split <;> rfl
@[simp] theorem hostSrcWrite_dstBase (s : State) (a : Word) (v : Byte) : (s.hostSrcWrite a v).dstBase = s.dstBase := by
  unfold State.hostSrcWrite; split <;> rfl
@[simp] theorem hostSrcWrite_blkX (s : State) (a : Word) (v : Byte) : (s.hostSrcWrite a v).blkX = s.blkX := by
  unfold State.hostSrcWrite; split <;> rfl
@[simp] theorem hostSrcWrite_blkY (s : State) (a : Word) (v : Byte) : (s.hostSrcWrite a v).blkY = s.blkY := by
  unfold State.hostSrcWrite; split <;> rfl
@[simp] theorem hostSrcWrite_errinfo (s : State) (a : Word) (v : Byte) : (s.hostSrcWrite a v).errinfo = s.errinfo := by
  unfold State.hostSrcWrite; split <;> rfl
@[simp] theorem hostSrcWrite_dc (s : State) (a : Word) (v : Byte) : (s.hostSrcWrite a v).dc = s.dc := by
  unfold State.hostSrcWrite; split <;> rfl
@[simp] theorem hostSrcWrite_coef (s : State) (a : Word) (v : Byte) : (s.hostSrcWrite a v).coef = s.coef := by
  unfold State.hostSrcWrite; split <;> rfl
@[simp] theorem hostSrcWrite_tmp (s : State) (a : Word) (v : Byte) : (s.hostSrcWrite a v).tmp = s.tmp := by
  unfold State.hostSrcWrite; split <;> rfl
@[simp] theorem hostSrcWrite_plane (s : State) (a : Word) (v : Byte) : (s.hostSrcWrite a v).plane = s.plane := by
  unfold State.hostSrcWrite; split <;> rfl
@[simp] theorem hostSrcWrite_pix (s : State) (a : Word) (v : Byte) : (s.hostSrcWrite a v).pix = s.pix := by
  unfold State.hostSrcWrite; split <;> rfl
@[simp] theorem hostSrcWrite_pageValid (s : State) (a : Word) (v : Byte) : (s.hostSrcWrite a v).pageValid = s.pageValid := by
  unfold State.hostSrcWrite; split <;> rfl
@[simp] theorem hostSrcWrite_pageBase (s : State) (a : Word) (v : Byte) : (s.hostSrcWrite a v).pageBase = s.pageBase := by
  unfold State.hostSrcWrite; split <;> rfl
@[simp] theorem hostSrcWrite_page (s : State) (a : Word) (v : Byte) : (s.hostSrcWrite a v).page = s.page := by
  unfold State.hostSrcWrite; split <;> rfl
@[simp] theorem hostSrcWrite_rom (s : State) (a : Word) (v : Byte) : (s.hostSrcWrite a v).rom = s.rom := by
  unfold State.hostSrcWrite; split <;> rfl
@[simp] theorem hostSrcWrite_dst (s : State) (a : Word) (v : Byte) : (s.hostSrcWrite a v).dst = s.dst := by
  unfold State.hostSrcWrite; split <;> rfl
@[simp] theorem hostSrcWrite_inReset (s : State) (a : Word) (v : Byte) : (s.hostSrcWrite a v).inReset = s.inReset := by
  unfold State.hostSrcWrite; split <;> rfl
@[simp] theorem hostSrcWrite_inputs (s : State) (a : Word) (v : Byte) : (s.hostSrcWrite a v).inputs = s.inputs := by
  unfold State.hostSrcWrite; split <;> rfl
@[simp] theorem hostSrcWrite_portData (s : State) (a : Word) (v : Byte) : (s.hostSrcWrite a v).portData = s.portData := by
  unfold State.hostSrcWrite; split <;> rfl
@[simp] theorem hostSrcWrite_lateW1C (s : State) (a : Word) (v : Byte) : (s.hostSrcWrite a v).lateW1C = s.lateW1C := by
  unfold State.hostSrcWrite; split <;> rfl
@[simp] theorem hostSrcWrite_lateOvr (s : State) (a : Word) (v : Byte) : (s.hostSrcWrite a v).lateOvr = s.lateOvr := by
  unfold State.hostSrcWrite; split <;> rfl
@[simp] theorem hostSrcWrite_draws (s : State) (a : Word) (v : Byte) : (s.hostSrcWrite a v).draws = s.draws := by
  unfold State.hostSrcWrite; split <;> rfl
@[simp] theorem hostSrcWrite_memReads (s : State) (a : Word) (v : Byte) : (s.hostSrcWrite a v).memReads = s.memReads := by
  unfold State.hostSrcWrite; split <;> rfl
@[simp] theorem hostSrcWrite_session (s : State) (a : Word) (v : Byte) : (s.hostSrcWrite a v).session = s.session := by
  unfold State.hostSrcWrite; split <;> rfl

/-! ### The values that the updates set -/

@[simp] theorem complete_status (s : State) :
    s.complete.status = { s.status with done := true, busy := false } := rfl
@[simp] theorem raise_status (s : State) (code : ErrCode) (info : Word) :
    (s.raise code info).status = { s.status with err := true, code := code, busy := false } := rfl
@[simp] theorem raise_errinfo (s : State) (code : ErrCode) (info : Word) : (s.raise code info).errinfo = info := rfl
@[simp] theorem consume_pos (s : State) (c : Nat) : (s.consume c).pos = s.pos + BitVec.ofNat 32 c := rfl
theorem consume_status (s : State) (c : Nat) :
    (s.consume c).status =
      { s.status with pastEnd := s.status.pastEnd || s.passesEnd (s.pos + BitVec.ofNat 32 c).toNat } := rfl
@[simp] theorem consume_fill (s : State) (c : Nat) : (s.consume c).status.fill = s.status.fill := rfl
@[simp] theorem invalidatePage_pageValid (s : State) : s.invalidatePage.pageValid = false := rfl
@[simp] theorem endSession_pageValid (s : State) : s.endSession.pageValid = false := rfl
@[simp] theorem endSession_raced (s : State) : s.endSession.raced = [] := rfl
@[simp] theorem endSession_session (s : State) : s.endSession.session = false := rfl
@[simp] theorem setDc_dc (s : State) (p : Plane) (v : Word) : (s.setDc p v).dc = s.dc.set p v := rfl
@[simp] theorem setPlane_plane (s : State) (p : Plane) (b : Cells 64) : (s.setPlane p b).plane = s.plane.set p b := rfl
@[simp] theorem setCoef_coef (s : State) (i : Fin 64) (v : Word) :
    (s.setCoef i v).coef = s.coef.set i (some v) := rfl
@[simp] theorem clobber_coef (s : State) (w : Writes) : (s.clobber w).coef = Vector.replicate 64 none := rfl
@[simp] theorem takeError_errinfo (s : State) (code : ErrCode) (info : Word) (w : Writes) :
    (s.takeError code info w).errinfo = info := rfl
@[simp] theorem takeError_err (s : State) (code : ErrCode) (info : Word) (w : Writes) :
    (s.takeError code info w).status.err = true := rfl
@[simp] theorem takeError_code (s : State) (code : ErrCode) (info : Word) (w : Writes) :
    (s.takeError code info w).status.code = code := rfl
@[simp] theorem takeError_busy (s : State) (code : ErrCode) (info : Word) (w : Writes) :
    (s.takeError code info w).status.busy = false := rfl
@[simp] theorem takeError_done (s : State) (code : ErrCode) (info : Word) (w : Writes) :
    (s.takeError code info w).status.done = s.status.done := by unfold State.takeError; split <;> rfl
@[simp] theorem accumulateDc_dc (s : State) (p : Plane) (delta : Int) :
    (s.accumulateDc p delta).dc = s.dc.set p (s.dcOf p + BitVec.ofInt 32 delta) := rfl
@[simp] theorem accumulateDc_result (s : State) (p : Plane) (delta : Int) :
    (s.accumulateDc p delta).result = BitVec.ofInt 32 delta := rfl
@[simp] theorem setFill_fill (s : State) (b : Bool) : (s.setFill b).status.fill = b := rfl
@[simp] theorem startImage_pageValid (s : State) : s.startImage.pageValid = false := rfl
@[simp] theorem refill_pageValid (s : State) (w : Nat) : (s.refill w).pageValid = true := rfl
@[simp] theorem refill_pageBase (s : State) (w : Nat) : (s.refill w).pageBase = w := rfl

end Sys2Proof.Machine
end

