-- ==== Sys2Proof/Laws/Tables.lean ====
section
/-! SUPPORT. Laws of the tables and buffers: vectors given cell by cell, the completeness of the configuration's terms
(log entry 2), the classes of a peek, buffer reads. -/

namespace Sys2Proof.Machine

/-! ### Vectors given cell by cell -/

theorem tabList_getElem {α : Type} {n : Nat} (f : Fin n → α) :
    ∀ (m : Nat) (h : m ≤ n) (i : Nat) (hi : i < (tabList f m h).length),
      (tabList f m h)[i] = f ⟨n - m + i, by rw [tabList_length] at hi; omega⟩ := by
  intro m
  induction m with
  | zero => intro h i hi; simp [tabList] at hi
  | succ m ih =>
    intro h i hi
    cases i with
    | zero => simp [tabList]
    | succ i =>
      have hi' : i < (tabList f m (by omega)).length := by
        rw [tabList_length] at hi ⊢; omega
      have := ih (by omega) i hi'
      simp only [tabList, List.getElem_cons_succ, this]
      congr 1
      apply Fin.ext
      simp only
      omega

@[simp] theorem getElem_tab {α : Type} {n : Nat} (f : Fin n → α) (i : Nat) (h : i < n) :
    (tab f)[i] = f ⟨i, h⟩ := by
  simp only [tab, Vector.getElem_mk, List.getElem_toArray, tabList_getElem]
  congr 1
  apply Fin.ext
  simp

@[simp] theorem getElem_tab_fin {α : Type} {n : Nat} (f : Fin n → α) (i : Fin n) : (tab f)[i] = f i :=
  getElem_tab f i.val i.isLt

theorem tab_eq_ofFn {α : Type} {n : Nat} (f : Fin n → α) : tab f = Vector.ofFn f := by
  ext i h
  simp

/-! ### The configuration's terms denote every function (log entry 2) -/

theorem evalFn_complete_on (f : Word → Word) (l : List Word) :
    ∃ t : Fn, ∀ x ∈ l, evalFn x t = f x := by
  induction l with
  | nil => exact ⟨.arg, fun x hx => absurd hx (by simp)⟩
  | cons a rest ih =>
    obtain ⟨t, ht⟩ := ih
    refine ⟨.ifEq .arg (.lit a) (.lit (f a)) t, ?_⟩
    intro x hx
    by_cases h : x = a
    · subst h; simp [evalFn]
    · have hx' : x ∈ rest := by simpa [h] using hx
      simp [evalFn, h, ht x hx']

/-- Every function `Int32 -> Int32` is the value of a term. -/
theorem Fn.complete (f : Word → Word) : ∃ t : Fn, ∀ x, evalFn x t = f x := by
  obtain ⟨t, ht⟩ := evalFn_complete_on f ((Finset.univ : Finset (Fin (2 ^ 32))).toList.map BitVec.ofFin)
  refine ⟨t, fun x => ht x ?_⟩
  exact List.mem_map.2 ⟨x.toFin, by simp, rfl⟩

/-- The test `x = a` on all eight inputs, as nested terms. -/
def eqChain (a : Vector Word 8) (yes no : KernelTerm) : List (Fin 8) → KernelTerm
  | [] => yes
  | i :: rest => .ifEq (.input i) (.lit a[i]) (eqChain a yes no rest) no

theorem evalKernel_eqChain (c : Cfg) (a x : Vector Word 8) (yes no : KernelTerm) (l : List (Fin 8)) :
    evalKernel c x (eqChain a yes no l) =
      if ∀ i ∈ l, x[i] = a[i] then evalKernel c x yes else evalKernel c x no := by
  induction l with
  | nil => simp [eqChain]
  | cons i rest ih =>
    simp only [eqChain, evalKernel, ih, List.forall_mem_cons]
    by_cases h : x[i] = a[i]
    · simp only [h, true_and, if_true]
    · simp only [h, false_and, if_false]

/-- Every function of the eight inputs of the kernel is the value of a term on any finite list of inputs. -/
theorem KernelTerm.complete_on (c : Cfg) (f : Vector Word 8 → Word) (l : List (Vector Word 8)) :
    ∃ t : KernelTerm, ∀ x ∈ l, evalKernel c x t = f x := by
  induction l with
  | nil => exact ⟨.input 0, fun x hx => absurd hx (by simp)⟩
  | cons a rest ih =>
    obtain ⟨t, ht⟩ := ih
    refine ⟨eqChain a (.lit (f a)) t (List.finRange 8), ?_⟩
    intro x hx
    rw [evalKernel_eqChain]
    by_cases h : x = a
    · subst h; simp [evalKernel]
    · have hx' : x ∈ rest := by simpa [h] using hx
      have hn : ¬ ∀ i ∈ List.finRange 8, x[i] = a[i] := by
        intro hall
        apply h
        exact Vector.ext fun j hj => hall ⟨j, hj⟩ (List.mem_finRange _)
      rw [if_neg hn]
      exact ht x hx'

/-- Every function of the eight inputs of the kernel is the value of a term. -/
theorem KernelTerm.complete (c : Cfg) (f : Vector Word 8 → Word) :
    ∃ t : KernelTerm, ∀ x, evalKernel c x t = f x := by
  obtain ⟨t, ht⟩ := KernelTerm.complete_on c f
    ((Finset.univ : Finset (Fin 8 → Fin (2 ^ 32))).toList.map fun g => Vector.ofFn fun i => BitVec.ofFin (g i))
  refine ⟨t, fun x => ht x ?_⟩
  refine List.mem_map.2 ⟨fun i => x[i].toFin, by simp, ?_⟩
  ext j hj
  simp

/-- The rows for the values below `n`, largest first. -/
def rowsBelow (f : BitVec 17 → ControlWord) : Nat → List (BitVec 17 × ControlWord)
  | 0 => []
  | n + 1 => (BitVec.ofNat 17 n, f (BitVec.ofNat 17 n)) :: rowsBelow f n

theorem lookupRows_rowsBelow (f : BitVec 17 → ControlWord) (last : ControlWord) (r : BitVec 17) :
    ∀ n, n ≤ 2 ^ 17 → r.toNat < n → lookupRows last r (rowsBelow f n) = f r := by
  intro n
  induction n with
  | zero => intro _ h; omega
  | succ n ih =>
    intro hn hr
    have hlo : (BitVec.ofNat 17 n).toNat = n := by
      rw [BitVec.toNat_ofNat]; exact Nat.mod_eq_of_lt (by omega)
    simp only [rowsBelow, lookupRows, hlo]
    split
    · have hrn : r = BitVec.ofNat 17 n := by
        apply BitVec.eq_of_toNat_eq; rw [hlo]; omega
      rw [hrn]
    · exact ih (by omega) (by omega)

/-- Every function of the 17-bit value is a sub-table. -/
theorem CtTable.complete (f : BitVec 17 → ControlWord) : ∃ t : CtTable, ∀ r, lookupRows t.last r t.rows = f r :=
  ⟨⟨rowsBelow f (2 ^ 17), f 0⟩, fun r => lookupRows_rowsBelow f _ r _ (Nat.le_refl _) r.isLt⟩

/-! ### Classes of a peek -/

/-- A peek has no class exactly when it is below 0x20 (30_encoding.md rule R84). -/
theorem classOf_eq_none_iff (r : BitVec 17) : classOf r = none ↔ r.toNat < 0x20 := by
  unfold classOf
  repeat' split
  all_goals (simp; omega)

/-! ### Buffer reads -/

/-- A buffer read succeeds exactly when every cell holds a value, and gives those values (60_exceptions.md
rule R212). -/
theorem cellValues_eq_some_iff {n : Nat} (b : Cells n) (v : Vector Word n) :
    cellValues b = some v ↔ ∀ i : Fin n, b[i] = some v[i] := by
  have hall : b.toList.all Option.isSome = true ↔ ∀ i : Fin n, (b[i]).isSome = true := by
    rw [List.all_eq_true]
    constructor
    · intro h i
      exact h b[i] (by simp)
    · intro h x hx
      obtain ⟨i, hi, rfl⟩ := List.mem_iff_getElem.1 hx
      have hi' : i < n := by simpa using hi
      simpa using h ⟨i, hi'⟩
  unfold cellValues
  constructor
  · intro h i
    split at h
    · rename_i hs
      have hv := hall.1 hs i
      obtain ⟨w, hw⟩ := Option.isSome_iff_exists.1 hv
      have := Option.some.inj h
      subst this
      simp only [getElem_tab_fin, hw, Option.getD_some]
    · cases h
  · intro h
    have hs : ∀ i : Fin n, (b[i]).isSome = true := fun i => by simp [h i]
    rw [if_pos (hall.2 hs)]
    congr 1
    ext i hi
    have := h ⟨i, hi⟩
    simp only [Fin.getElem_fin] at this
    simp [this]

/-- A buffer of stored values reads back. -/
theorem cellValues_of_tab_some {n : Nat} (f : Fin n → Word) : cellValues (tab fun i => some (f i)) = some (tab f) :=
  (cellValues_eq_some_iff _ _).2 fun i => by simp

/-- A buffer read fails when some cell holds no value. -/
theorem cellValues_eq_none_of_cell {n : Nat} {b : Cells n} {i : Fin n} (h : b[i] = none) : cellValues b = none := by
  cases hc : cellValues b with
  | none => rfl
  | some v =>
    have := (cellValues_eq_some_iff b v).1 hc i
    rw [h] at this
    cases this

/-! ### Bytes -/

/-- The clamp as a number (00_scope.md rule R5). -/
theorem clampByte_toNat (v : Int) : ((clampByte v).toNat : Int) = min (max v 0) 255 := by
  unfold clampByte
  rw [BitVec.toNat_ofInt]
  omega

end Sys2Proof.Machine
end

