-- ==== Sys2Proof/Laws/Commands.lean ====
section
/-! SUPPORT. What the shared operations of the commands can do, said once: how a command ends, the sequence of its parts,
one iteration of ENTDEC, and one step of the machine. -/

namespace Sys2Proof.Machine

/-- A command that answers a next state completed or took an error (40_control.md rule R92). -/
theorem finish_eq_next_iff {r : Res} {w : Writes} {t : State} :
    r.finish w = .next t ↔
      (∃ s, r = .ok s ∧ t = s.complete) ∨ (∃ code info s, r = .err code info s ∧ t = s.takeError code info w) := by
  cases r with
  | ok s =>
    simp only [Res.finish, Host.Outcome.next.injEq, Res.ok.injEq, exists_eq_left']
    constructor
    · intro h; exact .inl h.symm
    · rintro (h | ⟨_, _, _, h, _⟩)
      · exact h.symm
      · cases h
  | err code info s =>
    simp only [Res.finish, Host.Outcome.next.injEq]
    constructor
    · intro h; exact .inr ⟨code, info, s, rfl, h.symm⟩
    · rintro (⟨_, h, _⟩ | ⟨_, _, _, h, ht⟩)
      · cases h
      · cases h; exact ht.symm
  | fault f s =>
    simp only [Res.finish]
    constructor
    · intro h; cases h
    · rintro (⟨_, h, _⟩ | ⟨_, _, _, h, _⟩) <;> cases h

@[simp] theorem bind_ok (s : State) (f : State → Res) : (Res.ok s).bind f = f s := rfl

/-- A sequence is done exactly when both parts are. -/
theorem bind_eq_ok_iff {r : Res} {f : State → Res} {t : State} :
    r.bind f = .ok t ↔ ∃ s, r = .ok s ∧ f s = .ok t := by
  cases r with
  | ok s => simp [Res.bind]
  | err code info s => simp [Res.bind]
  | fault g s => simp [Res.bind]

/-- A property that the first part establishes at its end and the second part keeps holds at the end of both. -/
theorem bind_state_of {P : State → Prop} {r : Res} {f : State → Res} (hr : P r.state)
    (hf : ∀ s, r = .ok s → P s → P (f s).state) : P (r.bind f).state := by
  cases r with
  | ok s => exact hf s rfl hr
  | err code info s => exact hr
  | fault g s => exact hr

/-! ### ENTDEC -/

/-- The index step lowers the counter by `run`, and succeeds only from a counter of at least 0
(42_entropy.md rule R122). -/
theorem nextIndex_eq_some {c : Cfg} {k k' : Int} {run : Nat} {i : Fin 64} (h : nextIndex c k run = some (i, k')) :
    k' = k - run ∧ 0 ≤ k := by
  unfold nextIndex at h
  split at h
  · split at h
    · cases h
    · cases h
      exact ⟨rfl, by omega⟩
  · split at h
    · cases h
    · cases h
      exact ⟨rfl, by omega⟩

/-- A store lowers the counter by `run`. -/
theorem storeAc_eq_stored {start : Word} {k k' : Int} {run : Nat} {val : Int} {s t : State}
    (h : storeAc start k run val s = .stored k' t) :
    k' = k - run ∧ 0 ≤ k ∧ ∃ i, t = s.setCoef i (BitVec.ofInt 32 (val * s.rom.scale[i].toInt)) := by
  unfold storeAc at h
  split at h
  · cases h
  · rename_i i k₁ hn
    cases h
    exact ⟨(nextIndex_eq_some hn).1, (nextIndex_eq_some hn).2, i, rfl⟩

/-- An iteration that stores lowers the counter by at least 1 (42_entropy.md rule R124). -/
theorem entStep_stored_lt {k k' : Int} {s t : State} (h : entStep k s = .stored k' t) : k' < k ∧ 0 ≤ k := by
  unfold entStep at h
  dsimp only at h
  split at h
  · cases h
  · split at h
    · cases h
    · have := storeAc_eq_stored h
      omega
    · have := storeAc_eq_stored h
      omega

/-- More fuel than `k + 2` changes nothing: the loop ends by itself (42_entropy.md rule R124; log entry 26). -/
theorem entLoop_fuel_enough (fuel : Nat) :
    ∀ (k : Int) (count : Nat) (s : State), 1 ≤ fuel → k + 2 ≤ fuel →
      entLoop (fuel + 1) k count s = entLoop fuel k count s := by
  induction fuel with
  | zero => intro k count s h; omega
  | succ fuel ih =>
    intro k count s _ h
    rw [entLoop, entLoop]
    split
    · rfl
    · rename_i k' t hstep
      have hlt := entStep_stored_lt hstep
      exact ih k' (count + 1) t (by omega) (by omega)
    · rfl

/-! ### One step of the machine -/

/-- What a step can be: the engine's step, an idle step, or the first pending host action. -/
theorem step_cases (s : State) :
    (s.engineTurn = true ∧ (step s = engineStep s ∨ step s = settleOutcome (engineStep s))) ∨
      (s.engineTurn = false ∧ s.inputs = [] ∧ step s = .next s) ∨
      (s.engineTurn = false ∧ ∃ i rest, s.inputs = i :: rest ∧ step s = hostStep i.op { s with inputs := rest }) := by
  unfold step
  split
  · rename_i h
    refine .inl ⟨h, ?_⟩
    split
    · exact .inl rfl
    · exact .inr rfl
  · rename_i h
    have hf : s.engineTurn = false := by simpa using h
    cases hi : s.inputs with
    | nil => exact .inr (.inl ⟨hf, rfl, rfl⟩)
    | cons i rest => exact .inr (.inr ⟨hf, i, rest, rfl, rfl⟩)

end Sys2Proof.Machine
end

