-- ==== Sys2Proof/Laws/Frames.lean ====
section
/-! SUPPORT. What the parts of a command leave alone, said once for the entropy decoder and once for a plane: the state
with the parts they may write forgotten is the same before and after. A field that is not forgotten is then equal by
`congrArg` (10_state.md rules R25 to R36). -/

namespace Sys2Proof.Machine

/-- The state without what reading the stream and storing coefficients may change: the page and its counters, POS, RESULT,
PAST_END and COEF. -/
def forgetDecode (s : State) : State :=
  { s with
    pageValid := false, pageBase := 0, page := Vector.replicate 256 0, memReads := 0, draws := 0, pos := 0, result := 0
    coef := Vector.replicate 64 none, status := { s.status with pastEnd := false } }

/-- The state without what decoding a plane may change: besides that, the DC accumulators, FILL, TMP and the planes. -/
def forgetPlane (s : State) : State :=
  { forgetDecode s with
    dc := Vector.replicate 4 0, tmp := Vector.replicate 72 none
    plane := Vector.replicate 4 (Vector.replicate 64 none), status := { s.status with pastEnd := false, fill := false } }

theorem forgetPlane_of_forgetDecode {s t : State} (h : forgetDecode s = forgetDecode t) :
    forgetPlane s = forgetPlane t := by
  have hs := congrArg (fun u : State => { u.status with fill := false }) h
  unfold forgetPlane
  rw [h]
  simp only [forgetDecode] at hs
  rw [hs]

/-! ### The entropy decoder -/

@[simp] theorem refill_forgetDecode (s : State) (w : Nat) : forgetDecode (s.refill w) = forgetDecode s := rfl

@[simp] theorem lookupPage_forgetDecode (s : State) (w : Nat) : forgetDecode (s.lookupPage w) = forgetDecode s := by
  unfold State.lookupPage
  split <;> rfl

@[simp] theorem afterRead_forgetDecode (s : State) (off : Word) : forgetDecode (s.afterRead off) = forgetDecode s := by
  have h := lookupPage_forgetDecode s (wordOf off)
  unfold State.afterRead
  dsimp only
  split
  · exact h
  · exact h

@[simp] theorem consume_forgetDecode (s : State) (c : Nat) : forgetDecode (s.consume c) = forgetDecode s := rfl
@[simp] theorem setCoef_forgetDecode (s : State) (i : Fin 64) (v : Word) :
    forgetDecode (s.setCoef i v) = forgetDecode s := rfl
@[simp] theorem initCoef_forgetDecode (s : State) (p : Plane) : forgetDecode (s.initCoef p) = forgetDecode s := rfl

/-- The state in which an iteration of ENTDEC ends. -/
def EntStep.state : EntStep → State
  | .stop s => s
  | .stored _ s => s
  | .err _ _ s => s

theorem storeAc_forgetDecode (start : Word) (k : Int) (run : Nat) (val : Int) (s : State) :
    forgetDecode (storeAc start k run val s).state = forgetDecode s := by
  unfold storeAc
  split <;> rfl

/-- An iteration of ENTDEC, however it ends, changes only the page, POS, PAST_END and COEF
(42_entropy.md rule R115). -/
theorem entStep_forgetDecode (k : Int) (s : State) : forgetDecode (entStep k s).state = forgetDecode s := by
  unfold entStep
  dsimp only
  split
  · exact afterRead_forgetDecode s s.pos
  · split
    · simp [EntStep.state]
    · rw [storeAc_forgetDecode]
      simp
    · rw [storeAc_forgetDecode]
      simp

/-- The loop of ENTDEC changes besides that only RESULT. -/
theorem entLoop_forgetDecode (fuel : Nat) :
    ∀ (k : Int) (count : Nat) (s : State), forgetDecode (entLoop fuel k count s).state = forgetDecode s := by
  induction fuel with
  | zero => intro k count s; rfl
  | succ fuel ih =>
    intro k count s
    have h := entStep_forgetDecode k s
    rw [entLoop]
    split
    · rename_i t ht
      rw [ht] at h
      exact h
    · rename_i k' t ht
      rw [ht] at h
      exact (ih k' (count + 1) t).trans h
    · rename_i code start t ht
      rw [ht] at h
      exact h

/-- ENTDEC, however it ends, changes only the page, POS, RESULT, PAST_END and COEF (42_entropy.md rule R115). -/
theorem entdec_forgetDecode (p : Plane) (s : State) : forgetDecode (entdec p s).state = forgetDecode s :=
  entLoop_forgetDecode 65 63 0 (s.initCoef p)

/-- An iteration of ENTDEC raises NO_CODE or POS_UNDERFLOW only, at the position it started from
(42_entropy.md rule R126). -/
theorem entStep_err {k : Int} {s t : State} {code : ErrCode} {start : Word} (h : entStep k s = .err code start t) :
    (code = .noCode ∨ code = .posUnderflow) ∧ start = s.pos := by
  have hs : ∀ {st k run val u}, storeAc st k run val u = .err code start t → code = .posUnderflow ∧ start = st := by
    intro st k run val u h
    unfold storeAc at h
    split at h
    · cases h; exact ⟨rfl, rfl⟩
    · cases h
  unfold entStep at h
  dsimp only at h
  split at h
  · cases h; exact ⟨.inl rfl, rfl⟩
  · split at h
    · cases h
    · exact ⟨.inr (hs h).1, (hs h).2⟩
    · exact ⟨.inr (hs h).1, (hs h).2⟩

/-! ### A plane -/

@[simp] theorem accumulateDc_forgetPlane (s : State) (p : Plane) (d : Int) :
    forgetPlane (s.accumulateDc p d) = forgetPlane s := rfl
@[simp] theorem setFill_forgetPlane (s : State) (b : Bool) : forgetPlane (s.setFill b) = forgetPlane s := rfl
@[simp] theorem setPlane_forgetPlane (s : State) (p : Plane) (b : Cells 64) :
    forgetPlane (s.setPlane p b) = forgetPlane s := rfl
@[simp] theorem consume_forgetPlane (s : State) (c : Nat) : forgetPlane (s.consume c) = forgetPlane s := rfl
@[simp] theorem afterRead_forgetPlane (s : State) (off : Word) : forgetPlane (s.afterRead off) = forgetPlane s :=
  forgetPlane_of_forgetDecode (afterRead_forgetDecode s off)

/-- DCDEC changes only the page, POS, RESULT, PAST_END, FILL and DC_P (43_plane.md rule R140). -/
theorem dcdec_forgetPlane (p : Plane) (s : State) : forgetPlane (dcdec p s) = forgetPlane s := by
  have hskip : forgetPlane s.afterDcSkip = forgetPlane s := by simp [State.afterDcSkip]
  have hcode : forgetPlane s.afterDcCode = forgetPlane s := by
    unfold State.afterDcCode
    split
    · exact hskip
    · simpa using hskip
  unfold dcdec State.testFill
  split
  · simpa using hcode
  · simpa using hcode

/-- The row pass changes only TMP (44_transform.md rule R163). -/
theorem idctr_forgetPlane (s : State) : forgetPlane (idctr s).state = forgetPlane s := by
  unfold idctr
  split <;> rfl

/-- The column pass changes only its plane (44_transform.md rule R164). -/
theorem idctc_forgetPlane (p : Plane) (s : State) : forgetPlane (idctc p s).state = forgetPlane s := by
  unfold idctc
  split <;> rfl

/-- The decode of a plane, however it ends, changes only the page, POS, RESULT, PAST_END, FILL, the DC accumulators, COEF,
TMP and the planes (43_plane.md rule R146). -/
theorem plane_forgetPlane (p : Plane) (s : State) : forgetPlane (plane p s).state = forgetPlane s := by
  unfold plane
  dsimp only
  split
  · exact dcdec_forgetPlane p s
  · refine bind_state_of (P := fun u => forgetPlane u = forgetPlane s)
      (bind_state_of (P := fun u => forgetPlane u = forgetPlane s) ?_ ?_) ?_
    · exact (forgetPlane_of_forgetDecode (entdec_forgetDecode p (dcdec p s))).trans (dcdec_forgetPlane p s)
    · intro u _ h
      exact (idctr_forgetPlane u).trans h
    · intro u _ h
      exact (idctc_forgetPlane p u).trans h

/-- The decode of a plane keeps the other planes' samples and accumulators (43_plane.md rule R147). -/
theorem dcdec_dc_other {p q : Plane} (h : q ≠ p) (s : State) : (dcdec p s).dc[q] = s.dc[q] := by
  have hc : s.afterDcCode.dc = s.dc := by simp
  have hne : p.val ≠ q.val := fun e => h (Fin.ext e.symm)
  simp only [dcdec, testFill_dc, State.accumulateDc, State.setDc, Fin.getElem_fin, hc]
  exact Vector.getElem_set_ne _ _ hne

end Sys2Proof.Machine
end

