-- ==== Sys2Proof/Laws/Memory.lean ====
section
/-! SUPPORT. Laws of the byte memories: read after write, and every write keeps the canonical form. -/

namespace Sys2Proof.Machine

theorem Memory.read_eq_unlisted_of_wfFrom {m : Memory} :
    ∀ {lo a : Nat}, Memory.wfFrom lo m = true → a < lo → m.read a = unlisted := by
  induction m with
  | nil => intros; rfl
  | cons c rest ih =>
    obtain ⟨b, v⟩ := c
    intro lo a h hlt
    simp only [Memory.wfFrom, Bool.and_eq_true, decide_eq_true_eq] at h
    have hne : a ≠ b := by omega
    simpa [Memory.read, hne] using ih h.2 (by omega)

theorem Memory.wfFrom_mono {m : Memory} {lo lo' : Nat} (h : Memory.wfFrom lo m = true) (hle : lo' ≤ lo) :
    Memory.wfFrom lo' m = true := by
  cases m with
  | nil => rfl
  | cons c rest =>
    obtain ⟨b, v⟩ := c
    simp only [Memory.wfFrom, Bool.and_eq_true, decide_eq_true_eq] at h ⊢
    exact ⟨⟨⟨by omega, h.1.1.2⟩, h.1.2⟩, h.2⟩

/-- A read after a write to the same address gives the byte written. -/
theorem Memory.read_write_same {m : Memory} (a : Nat) (v : Byte) :
    ∀ {lo : Nat}, Memory.wfFrom lo m = true → (m.write a v).read a = v := by
  induction m with
  | nil =>
    intro lo _
    by_cases h : v = unlisted
    · simp [Memory.write, Memory.read, h]
    · simp [Memory.write, Memory.read, h]
  | cons c rest ih =>
    obtain ⟨b, w⟩ := c
    intro lo h
    have hrest := h
    simp only [Memory.wfFrom, Bool.and_eq_true, decide_eq_true_eq] at hrest
    unfold Memory.write
    split
    · rename_i hlt
      split
      · rename_i hv
        rw [hv]
        have hne : a ≠ b := by omega
        simpa [Memory.read, hne] using Memory.read_eq_unlisted_of_wfFrom hrest.2 (by omega)
      · simp [Memory.read]
    · split
      · rename_i heq
        split
        · rename_i hv
          rw [hv]
          exact Memory.read_eq_unlisted_of_wfFrom hrest.2 (by omega)
        · simp [Memory.read]
      · rename_i hne
        simpa [Memory.read, hne] using ih hrest.2

/-- A write leaves every other address alone. -/
theorem Memory.read_write_other {m : Memory} {a x : Nat} (v : Byte) (hx : x ≠ a) : (m.write a v).read x = m.read x := by
  induction m with
  | nil =>
    by_cases h : v = unlisted
    · simp [Memory.write, h]
    · simp [Memory.write, Memory.read, h, hx]
  | cons c rest ih =>
    obtain ⟨b, w⟩ := c
    unfold Memory.write
    split
    · split
      · rfl
      · simp [Memory.read, hx]
    · split
      · rename_i heq
        have hxb : x ≠ b := by omega
        split
        · simp [Memory.read, hxb]
        · simp [Memory.read, hx, hxb]
      · simp only [Memory.read]
        split
        · rfl
        · exact ih

theorem Memory.wfFrom_write {m : Memory} {a : Nat} (v : Byte) (ha : a < 2 ^ 32) :
    ∀ {lo : Nat}, Memory.wfFrom lo m = true → lo ≤ a → Memory.wfFrom lo (m.write a v) = true := by
  induction m with
  | nil =>
    intro lo _ hlo
    by_cases h : v = unlisted
    · simp [Memory.write, Memory.wfFrom, h]
    · simp only [Memory.write, h, if_false, Memory.wfFrom, Bool.and_eq_true, decide_eq_true_eq]
      exact ⟨⟨⟨hlo, ha⟩, h⟩, trivial⟩
  | cons c rest ih =>
    obtain ⟨b, w⟩ := c
    intro lo h hlo
    have hrest := h
    simp only [Memory.wfFrom, Bool.and_eq_true, decide_eq_true_eq] at hrest
    unfold Memory.write
    split
    · split
      · exact h
      · rename_i hv
        simp only [Memory.wfFrom, Bool.and_eq_true, decide_eq_true_eq]
        exact ⟨⟨⟨hlo, ha⟩, hv⟩, ⟨⟨⟨by omega, hrest.1.1.2⟩, hrest.1.2⟩, hrest.2⟩⟩
    · split
      · rename_i heq
        split
        · exact Memory.wfFrom_mono hrest.2 (by omega)
        · rename_i hv
          simp only [Memory.wfFrom, Bool.and_eq_true, decide_eq_true_eq]
          exact ⟨⟨⟨hlo, ha⟩, hv⟩, by rw [heq]; exact hrest.2⟩
      · simp only [Memory.wfFrom, Bool.and_eq_true, decide_eq_true_eq]
        exact ⟨hrest.1, ih hrest.2 (by omega)⟩

/-- A write of a byte below 2^32 keeps the canonical form. -/
theorem Memory.wf_write {m : Memory} (a : Word) (v : Byte) (h : m.wf = true) : (m.write a.toNat v).wf = true :=
  Memory.wfFrom_write v a.isLt h (Nat.zero_le _)

theorem Memory.wf_write_nat {m : Memory} {a : Nat} (v : Byte) (ha : a < 2 ^ 32) (h : m.wf = true) :
    (m.write a v).wf = true :=
  Memory.wfFrom_write v ha h (Nat.zero_le _)

theorem Memory.read_write_same_of_wf {m : Memory} (a : Nat) (v : Byte) (h : m.wf = true) :
    (m.write a v).read a = v := Memory.read_write_same a v h

/-- Every listed address of a canonical memory is a 32-bit address. -/
theorem Memory.lt_of_mem_of_wfFrom {m : Memory} {a : Nat} :
    ∀ {lo : Nat}, Memory.wfFrom lo m = true → a ∈ m.map Prod.fst → a < 2 ^ 32 := by
  induction m with
  | nil => intro lo _ h; simp at h
  | cons c rest ih =>
    obtain ⟨b, v⟩ := c
    intro lo h hm
    simp only [Memory.wfFrom, Bool.and_eq_true, decide_eq_true_eq] at h
    simp only [List.map_cons, List.mem_cons] at hm
    rcases hm with rfl | hm
    · exact h.1.1.2
    · exact ih h.2 hm

/-- Canonical memories that read alike are the same data. -/
theorem Memory.ext_of_wfFrom {m : Memory} :
    ∀ {n : Memory} {lo : Nat}, Memory.wfFrom lo m = true → Memory.wfFrom lo n = true →
      (∀ a, m.read a = n.read a) → m = n := by
  induction m with
  | nil =>
    intro n lo _ hn h
    cases n with
    | nil => rfl
    | cons c rest =>
      obtain ⟨b, v⟩ := c
      simp only [Memory.wfFrom, Bool.and_eq_true, decide_eq_true_eq] at hn
      have := h b
      simp only [Memory.read, if_true] at this
      exact absurd this.symm hn.1.2
  | cons c rest ih =>
    obtain ⟨b, v⟩ := c
    intro n lo hm hn h
    simp only [Memory.wfFrom, Bool.and_eq_true, decide_eq_true_eq] at hm
    cases n with
    | nil =>
      have := h b
      simp only [Memory.read, if_true] at this
      exact absurd this hm.1.2
    | cons d rest' =>
      obtain ⟨b', v'⟩ := d
      simp only [Memory.wfFrom, Bool.and_eq_true, decide_eq_true_eq] at hn
      have hb : b = b' := by
        rcases Nat.lt_trichotomy b b' with hlt | heq | hgt
        · have h1 := h b
          have hne : b ≠ b' := by omega
          have h2 := Memory.read_eq_unlisted_of_wfFrom hn.2 (a := b) (by omega)
          simp only [Memory.read, if_true, hne, if_false] at h1
          exact absurd (h1.trans h2) hm.1.2
        · exact heq
        · have h1 := h b'
          have hne : b' ≠ b := by omega
          have h2 := Memory.read_eq_unlisted_of_wfFrom hm.2 (a := b') (by omega)
          simp only [Memory.read, if_true, hne, if_false] at h1
          exact absurd (h1.symm.trans h2) hn.1.2
      subst hb
      have hv : v = v' := by simpa [Memory.read] using h b
      subst hv
      have hr : rest = rest' := by
        refine ih hm.2 hn.2 ?_
        intro a
        by_cases ha : a = b
        · subst ha
          rw [Memory.read_eq_unlisted_of_wfFrom hm.2 (by omega), Memory.read_eq_unlisted_of_wfFrom hn.2 (by omega)]
        · simpa [Memory.read, ha] using h a
      rw [hr]

/-- A reset that cuts a command short keeps the canonical form. -/
theorem mixBytes_wf {draw : Nat} {new : Memory} {l : List Nat} :
    ∀ {m : Memory}, (∀ a ∈ l, a < 2 ^ 32) → m.wf = true → (mixBytes draw new l m).wf = true := by
  induction l with
  | nil => intro m _ h; exact h
  | cons a rest ih =>
    intro m hl h
    unfold mixBytes
    refine ih (fun x hx => hl x (List.mem_cons_of_mem _ hx)) ?_
    split
    · exact Memory.wf_write_nat _ (hl a List.mem_cons_self) h
    · exact h

/-- The byte that a `MemWrite` of one byte leaves at its address. -/
theorem storeByte_read_same {s : State} (a : Word) (v : Byte) (h : s.dst.wf = true) :
    (s.storeByte a v).dst.read a.toNat = v := Memory.read_write_same_of_wf _ _ h

/-- A `MemWrite` of one byte leaves every other address alone. -/
theorem storeByte_read_other {s : State} {a : Word} {x : Nat} (v : Byte) (hx : x ≠ a.toNat) :
    (s.storeByte a v).dst.read x = s.dst.read x := Memory.read_write_other v hx

theorem storeByte_dst_wf {s : State} (a : Word) (v : Byte) (h : s.dst.wf = true) :
    (s.storeByte a v).dst.wf = true := Memory.wf_write _ _ h

/-- `MemWrite` keeps the canonical form. -/
theorem memWrite_dst_wf {s : State} (a v : Word) (h : s.dst.wf = true) : (s.memWrite a v).dst.wf = true := by
  unfold State.memWrite
  exact storeByte_dst_wf _ _ (storeByte_dst_wf _ _ (storeByte_dst_wf _ _ (storeByte_dst_wf _ _ h)))

/-- `MemWrite` leaves alone every address outside its four bytes (20_memory.md rule R62). -/
theorem memWrite_read_other {s : State} {a v : Word} {x : Nat}
    (hx : ∀ k : Fin 4, x ≠ (a + BitVec.ofNat 32 k.val).toNat) : (s.memWrite a v).dst.read x = s.dst.read x := by
  have h0 : x ≠ a.toNat := by simpa using hx 0
  have h1 : x ≠ (a + 1).toNat := hx 1
  have h2 : x ≠ (a + 2).toNat := hx 2
  have h3 : x ≠ (a + 3).toNat := hx 3
  unfold State.memWrite
  rw [storeByte_read_other _ h3, storeByte_read_other _ h2, storeByte_read_other _ h1, storeByte_read_other _ h0]

end Sys2Proof.Machine
end

