-- ==== Sys2Proof/Laws/PerInstr.lean ====
section
/-! SUPPORT. The family `TableRow`: the encoded word of a well-formed command is a word of its row of
spec/opcode_table.json, by the row's mask and match (30_encoding.md rule R73). -/

namespace Sys2Proof.Laws

/-- The row's mask in spec/opcode_table.json. -/
def rowMask : Instr → Word
  | .nop => 0xFFFFFFFF
  | .srst => 0xFFFFFFFF
  | .bread _ => 0xFFFFE0FF
  | .dcdec _ => 0xFFFCFFFF
  | .fill _ => 0xFFFCFFFF
  | .entdec _ => 0xFFFCFFFF
  | .idctr => 0xFFFFFFFF
  | .idctc _ => 0xFFFCFFFF
  | .plane _ => 0xFFFCFFFF
  | .cconv => 0xFFFFFFFF
  | .wrblk => 0xFFFFFFFF
  | .block => 0xFFFFFFFF
  | .image => 0xFFFFFFFF

/-- The row's match in spec/opcode_table.json. -/
def rowMatch : Instr → Word
  | .nop => 0x00000000
  | .srst => 0x00000001
  | .bread _ => 0x00000002
  | .dcdec _ => 0x00000003
  | .fill _ => 0x00000004
  | .entdec _ => 0x00000005
  | .idctr => 0x00000006
  | .idctc _ => 0x00000007
  | .plane _ => 0x00000008
  | .cconv => 0x00000009
  | .wrblk => 0x0000000A
  | .block => 0x0000000B
  | .image => 0x0000000C

/-- The encoded word is a word of the command's row. -/
def TableRow.Statement (i : Instr) : Prop := i.wellFormed = true → encode i &&& rowMask i = rowMatch i

theorem TableRow.nop : TableRow.Statement .nop := fun _ => by decide
theorem TableRow.srst : TableRow.Statement .srst := fun _ => by decide
theorem TableRow.bread (n : Nat) : TableRow.Statement (.bread n) := fun h => by
  have hn : n < 32 := by simpa [Instr.wellFormed] using h
  revert h
  revert n
  decide
theorem TableRow.dcdec (p : Plane) : TableRow.Statement (.dcdec p) := fun _ => by revert p; decide
theorem TableRow.fill (p : Plane) : TableRow.Statement (.fill p) := fun _ => by revert p; decide
theorem TableRow.entdec (p : Plane) : TableRow.Statement (.entdec p) := fun _ => by revert p; decide
theorem TableRow.idctr : TableRow.Statement .idctr := fun _ => by decide
theorem TableRow.idctc (p : Plane) : TableRow.Statement (.idctc p) := fun _ => by revert p; decide
theorem TableRow.plane (p : Plane) : TableRow.Statement (.plane p) := fun _ => by revert p; decide
theorem TableRow.cconv : TableRow.Statement .cconv := fun _ => by decide
theorem TableRow.wrblk : TableRow.Statement .wrblk := fun _ => by decide
theorem TableRow.block : TableRow.Statement .block := fun _ => by decide
theorem TableRow.image : TableRow.Statement .image := fun _ => by decide

end Sys2Proof.Laws
end

