-- ==== Sys2Proof/Laws/Reader.lean ====
section
/-! SUPPORT. Laws of the bit reader: what a lookup leaves in the page, and which state a read keeps
(20_memory.md rules R57 and R58). -/

namespace Sys2Proof.Machine

/-- The window words depend on the window and the source bytes only. -/
theorem wordAt_congr {s t : State} (ho : t.winOrg = s.winOrg) (hl : t.winLen = s.winLen) (hs : t.src = s.src)
    (w : Nat) : t.wordAt w = s.wordAt w := by
  simp only [State.wordAt, State.srcByte, State.windowAddr, ho, hl, hs]

@[simp] theorem refill_wordAt (s : State) (w v : Nat) : (s.refill w).wordAt v = s.wordAt v :=
  wordAt_congr (by simp) (by simp) (by simp) v

@[simp] theorem lookupPage_wordAt (s : State) (w v : Nat) : (s.lookupPage w).wordAt v = s.wordAt v :=
  wordAt_congr (by simp) (by simp) (by simp) v

@[simp] theorem afterRead_wordAt (s : State) (off : Word) (v : Nat) : (s.afterRead off).wordAt v = s.wordAt v :=
  wordAt_congr (by simp) (by simp) (by simp) v

@[simp] theorem consume_wordAt (s : State) (c v : Nat) : (s.consume c).wordAt v = s.wordAt v :=
  wordAt_congr (by simp) (by simp) (by simp) v

/-- After the lookup both words are in the page (rule R57). -/
theorem lookupPage_hit (s : State) (w : Nat) : (s.lookupPage w).pageHit w = true := by
  unfold State.lookupPage
  split
  · assumption
  · simp [State.pageHit]

/-- A refill leaves a page that holds the window. -/
theorem refill_pageHolds (s : State) (w : Nat) : (s.refill w).PageHolds := by
  intro _ j
  rw [refill_wordAt]
  simp [State.refill]

/-- A lookup keeps the page a copy of the window. -/
theorem lookupPage_pageHolds {s : State} (h : s.PageHolds) (w : Nat) : (s.lookupPage w).PageHolds := by
  unfold State.lookupPage
  split
  · exact h
  · exact refill_pageHolds s w

/-- A read keeps the page a copy of the window. -/
theorem afterRead_pageHolds {s : State} (h : s.PageHolds) (off : Word) : (s.afterRead off).PageHolds := by
  have hl := lookupPage_pageHolds h (wordOf off)
  unfold State.afterRead
  dsimp only
  split
  · exact hl
  · exact hl

/-- A word in the page is the window's word. -/
theorem pageWord_of_hit {s : State} (h : s.PageHolds) {w v : Nat} (hit : s.pageHit w = true) (hv : v = w ∨ v = w + 1) :
    s.pageWord v = s.wordAt v := by
  simp only [State.pageHit, Bool.and_eq_true, decide_eq_true_eq] at hit
  have hlt : v - s.pageBase < 256 := by omega
  have := h hit.1.1 ⟨v - s.pageBase, hlt⟩
  have hb : s.pageBase + (v - s.pageBase) = v := by omega
  simp only [Fin.getElem_fin, hb] at this
  simpa only [State.pageWord, Nat.mod_eq_of_lt hlt] using this

/-- Extracted bits are below 2^n (41_bitreader.md rule R101). -/
theorem extractBits_lt (hi lo : Word) (b n : Nat) (hn : n ≤ 24) : (extractBits hi lo b n).toNat < 2 ^ n := by
  have hp : 2 ^ n ≤ 2 ^ 24 := Nat.pow_le_pow_right (by decide) hn
  have hpos : 0 < 2 ^ n := Nat.two_pow_pos n
  have hm : (BitVec.ofNat 32 (2 ^ n - 1)).toNat = 2 ^ n - 1 := by
    rw [BitVec.toNat_ofNat]; exact Nat.mod_eq_of_lt (by omega)
  unfold extractBits
  rw [BitVec.toNat_and, hm]
  exact Nat.lt_of_le_of_lt Nat.and_le_right (by omega)

end Sys2Proof.Machine
end

