-- ==== Sys2Proof/Laws/Safety.lean ====
section
/-! SUPPORT. Laws of Sys2Proof/Safety.lean: which values a page and a read can show (20_memory.md rules R56, R58 and R60),
and that the result of a run is one state (70_reset_and_hazards.md rule R245). -/

namespace Sys2Proof.Machine

/-! ### The page in a session with changed source bytes -/

/-- The bytes of four joined bytes. -/
theorem append_bytes (a b c d : Byte) :
    (a ++ b ++ c ++ d).extractLsb' 24 8 = a ∧ (a ++ b ++ c ++ d).extractLsb' 16 8 = b ∧
      (a ++ b ++ c ++ d).extractLsb' 8 8 = c ∧ (a ++ b ++ c ++ d).extractLsb' 0 8 = d := by
  refine ⟨?_, ?_, ?_, ?_⟩ <;>
  · apply BitVec.eq_of_getLsbD_eq
    intro i hi
    simp only [BitVec.getLsbD_extractLsb', BitVec.getLsbD_append, hi, decide_true, Bool.true_and]
    repeat' split
    all_goals first | omega | (congr 1; omega)

/-- The bytes of a window word are its window bytes, the first one most significant (20_memory.md rule R53). -/
theorem wordAt_byte (s : State) (w : Nat) (k : Fin 4) :
    (s.wordAt w).extractLsb' (24 - 8 * k.val) 8 = s.srcByte (4 * w + k.val) := by
  obtain ⟨h0, h1, h2, h3⟩ :=
    append_bytes (s.srcByte (4 * w)) (s.srcByte (4 * w + 1)) (s.srcByte (4 * w + 2)) (s.srcByte (4 * w + 3))
  match k with
  | 0 => exact h0
  | 1 => exact h1
  | 2 => exact h2
  | 3 => exact h3

/-- A refill reads the source as it is now, so its page is fair (20_memory.md rule R57). -/
theorem refill_pageFair (s : State) (w : Nat) : (s.refill w).PageFair := by
  intro _ j k
  have hp : (s.refill w).page[j] = (s.refill w).wordAt ((s.refill w).pageBase + j.val) := refill_pageHolds s w rfl j
  rw [hp, wordAt_byte]
  exact .inl rfl

/-- A page stays fair where the window and the source stay and no value of an affected byte is forgotten. -/
theorem pageFair_congr {s t : State} (h : s.PageFair) (hv : t.pageValid = true → s.pageValid = true)
    (hb : t.pageBase = s.pageBase) (hp : t.page = s.page) (ho : t.winOrg = s.winOrg) (hl : t.winLen = s.winLen)
    (hs : t.src = s.src) (hr : ∀ c ∈ s.raced, c ∈ t.raced) : t.PageFair := by
  intro hval j k
  have hbyte : ∀ i, t.srcByte i = s.srcByte i := fun i => by
    simp only [State.srcByte, State.windowAddr, ho, hl, hs]
  rcases h (hv hval) j k with hnow | ⟨hlt, hmem⟩
  · exact .inl (by simpa only [hb, hp, hbyte] using hnow)
  · refine .inr ⟨by simpa only [hb, hl] using hlt, ?_⟩
    simp only [State.raceValues, State.windowAddr, List.mem_map, List.mem_filter] at hmem ⊢
    obtain ⟨c, ⟨hc, ha⟩, hv⟩ := hmem
    exact ⟨c, ⟨hr c hc, by simpa only [hb, ho] using ha⟩, by simpa only [hp] using hv⟩

/-- A lookup keeps the page fair. -/
theorem lookupPage_pageFair {s : State} (h : s.PageFair) (w : Nat) : (s.lookupPage w).PageFair := by
  unfold State.lookupPage
  split
  · exact h
  · exact refill_pageFair s w

/-- A read keeps the page fair. -/
theorem afterRead_pageFair {s : State} (h : s.PageFair) (off : Word) : (s.afterRead off).PageFair := by
  have hl := lookupPage_pageFair h (wordOf off)
  unfold State.afterRead
  dsimp only
  split
  · exact hl
  · exact hl

/-- A host write of a source byte changes no window byte outside a session without recording it: each window byte is as it
was, or it is recorded with the value it had (20_memory.md rule R60). -/
theorem hostSrcWrite_srcByte (s : State) (a : Word) (v : Byte) (i : Nat) (hs : s.session = true) :
    (s.hostSrcWrite a v).srcByte i = s.srcByte i ∨
      (i < s.winLen.toNat ∧ (s.windowAddr i) = a ∧ (a.toNat, s.srcByte i) ∈ (s.hostSrcWrite a v).raced) := by
  by_cases hi : i < s.winLen.toNat
  · by_cases ha : s.windowAddr i = a
    · by_cases hv : v = s.src.read a.toNat
      · left; simp [State.hostSrcWrite, ← hv]
      · right
        have hin : s.inWindow a = true := by
          have : (a - s.winOrg).toNat = i := by
            rw [← ha, State.windowAddr]
            have : s.winOrg + BitVec.ofNat 32 i - s.winOrg = BitVec.ofNat 32 i := by
              rw [BitVec.add_comm, BitVec.add_sub_cancel]
            rw [this, BitVec.toNat_ofNat]
            exact Nat.mod_eq_of_lt (Nat.lt_trans hi s.winLen.isLt)
          simp [State.inWindow, this, hi]
        refine ⟨hi, ha, ?_⟩
        simp [State.hostSrcWrite, hv, hs, hin, State.srcByte, hi, ha]
    · left
      have hne : (s.windowAddr i).toNat ≠ a.toNat := fun h => ha (BitVec.eq_of_toNat_eq h)
      unfold State.hostSrcWrite
      split
      · rfl
      · simp only [State.srcByte, State.windowAddr] at hne ⊢
        rw [Memory.read_write_other v hne]
  · left
    simp [State.srcByte, hi]

/-- A choice among the values of a window byte is one of its values (20_memory.md rule R60). -/
theorem racedByte_windowValue {s : State} {i : Nat} {b : Byte} (h : s.WindowValue i b) :
    s.WindowValue i (s.racedByte i b) := by
  unfold State.racedByte
  split
  · rename_i hi
    dsimp only
    split
    · exact h
    · rename_i v vs hv
      have hmem : ∀ c ∈ b :: s.src.read (s.windowAddr i).toNat :: v :: vs, s.WindowValue i c := by
        intro c hc
        rcases List.mem_cons.1 hc with rfl | hc
        · exact h
        · rcases List.mem_cons.1 hc with rfl | hc
          · exact .inl (by simp [State.srcByte, hi])
          · exact .inr ⟨hi, hv ▸ hc⟩
      apply hmem
      rw [List.getD_eq_getElem _ _ (Nat.mod_lt _ (by simp))]
      exact List.getElem_mem _
  · exact h

/-! ### Runs -/

/-- Only the offset of CMD selects CMD in an access that is not refused (10_state.md rule R20, 20_memory.md rule R69). -/
theorem portReg_eq_cmd : ∀ {off : BitVec 12}, off.toNat % 4 = 0 → portReg off = .cmd → off = 0x008 := by
  decide +kernel

/-- Only a write of CMD starts a command (10_state.md rule R24). -/
theorem portWrite_busy {s : State} {off : BitVec 12} {v : Word} (ha : off.toNat % 4 = 0)
    (h : (s.portWrite (portReg off) v).status.busy = true) :
    s.status.busy = true ∨ off = 0x008 := by
  by_cases hb : s.status.busy = true
  · exact .inl hb
  · right
    apply portReg_eq_cmd ha
    revert h
    unfold State.portWrite
    rw [if_neg hb]
    cases portReg off <;> simp_all [State.writeReg, Status.w1c]

/-- A host action: a command runs after it only if one ran before it or the action is a write of CMD. -/
theorem hostStep_busy {op : HostOp} {s u : State} (h : hostStep op s = .next u) (hu : u.status.busy = true) :
    s.status.busy = true ∨ ∃ n v, op = .write 0x008 n v := by
  match op with
  | .write off n v =>
    simp only [hostStep] at h
    split at h
    · cases h; exact .inl hu
    · split at h
      · rename_i ha
        cases h
        rcases portWrite_busy (of_decide_eq_true (Bool.and_eq_true_iff.1 ha).2) hu with hb | rfl
        · exact .inl hb
        · exact .inr ⟨n, v, rfl⟩
      · cases h
  | .read off n =>
    simp only [hostStep] at h
    split at h
    · cases h; exact .inl hu
    · split at h
      · cases h; exact .inl (by simpa [State.portRead] using hu)
      · cases h
  | .srcWrite a v => simp only [hostStep] at h; cases h; exact .inl (by simpa using hu)
  | .reset true => simp only [hostStep] at h; cases h; simp [State.assertReset, State.reset] at hu
  | .reset false => simp only [hostStep] at h; cases h; exact .inl hu

/-- In a run that starts with the host waiting while a command runs, the host waits whenever a command runs: it sees BUSY = 0
after each command before it stops waiting (70_reset_and_hazards.md rule R240). -/
theorem waitsAfter_of_busy {w : Bool} {s u : State} (hw : s.status.busy = true → w = true) (h : step s = .next u)
    (hu : u.status.busy = true) : s.waitsAfter w = true := by
  unfold step at h
  unfold State.waitsAfter State.nextOp
  split at h
  · rename_i ht
    rw [if_pos ht]
    exact hw (by simp_all [State.engineTurn])
  · rename_i ht
    rw [if_neg ht]
    split at h
    · rename_i hi
      cases h
      simpa [hi] using hw hu
    · rename_i i rest hi
      rcases hostStep_busy h hu with hb | ⟨n, v, hop⟩
      · have hb' : s.status.busy = true := hb
        rw [hi]
        cases hop : i.op <;> simp [hop, hw hb', hb']
      · simp [hi, hop]

/-- A core with nothing to do stays as it is (70_reset_and_hazards.md rule R226). -/
theorem step_of_runEnded {s : State} (h : s.RunEnded) : step s = .next s := by
  have ht : s.engineTurn = false := by simp [State.engineTurn, h.2]
  simp [step, ht, h.1]

/-- A run from an ended state stays there. -/
theorem safeRun_of_runEnded {k : Nat} : ∀ {w : Bool} {s t : State}, s.RunEnded → SafeRun k w s t → t = s := by
  induction k with
  | zero => intro w s t _ h; exact h.1.symm
  | succ k ih =>
    intro w s t he h
    obtain ⟨_, _, _, u, hu, hr⟩ := h
    rw [step_of_runEnded he] at hu
    cases hu
    exact ih he hr

/-- Two runs of a program that reach an end reach the same one. -/
theorem safeRun_ended_unique {k : Nat} : ∀ {k' : Nat} {w : Bool} {s t t' : State},
    SafeRun k w s t → t.RunEnded → SafeRun k' w s t' → t'.RunEnded → t = t' := by
  induction k with
  | zero =>
    intro k' w s t t' h he h' _
    obtain ⟨rfl, _⟩ := h
    exact (safeRun_of_runEnded he h').symm
  | succ k ih =>
    intro k' w s t t' h he h' he'
    cases k' with
    | zero =>
      obtain ⟨rfl, _⟩ := h'
      exact safeRun_of_runEnded he' h
    | succ k' =>
      obtain ⟨_, _, _, u, hu, hr⟩ := h
      obtain ⟨_, _, _, u', hu', hr'⟩ := h'
      rw [hu] at hu'
      cases hu'
      exact ih hr he hr' he'

/-- The end of a host program is one state, and so is its result (70_reset_and_hazards.md rule R245). -/
theorem definedRun_unique {s t t' : State} (h : DefinedRun s t) (h' : DefinedRun s t') : t = t' := by
  obtain ⟨_, hr, he⟩ := h
  obtain ⟨_, hr', he'⟩ := h'
  exact safeRun_ended_unique hr he hr' he'

end Sys2Proof.Machine
end

