-- ==== Sys2Proof/Machine/HostSeq.lean ====
section
/-! DEFINITION. The host's side of the interface: the pseudo-instructions as port accesses (30_encoding.md rules R78 and
R79) and the duties that turn container fields into register values (70_reset_and_hazards.md rules R233 to R238). No step
of the core calls them (log entry 27). -/

namespace Sys2Proof.Machine

/-- `N_CORES`, at least 1 (00_scope.md rule R3). -/
def numCores : Nat := Config.otherCores + 1

/-- The port offset of a host address: the port takes 0x1000 bytes from REG_BASE on (20_memory.md rule R68). The 32-bit host
address and the port that wraps past its end are the model's choice (DESIGN CHOICE, log entry 24). -/
def portOffset (addr : Word) : Option (BitVec 12) :=
  if (addr - Config.regBase).toNat < 0x1000 then some ((addr - Config.regBase).setWidth 12) else none

/-- `WR off, v`: a 32-bit port write that lands when the core is idle, after the host's WAIT (rule R78). -/
def wr (off : BitVec 12) (v : Word) : Input := { op := .write off 4 v, early := false }

/-- `RD off` (rule R78). -/
def rd (off : BitVec 12) : Input := { op := .read off 4, early := false }

/-- The read of STATUS that ends a `WAIT`: it lands when the core is idle (rule R78). The reads before it that see BUSY = 1
change nothing (70_reset_and_hazards.md rule R243). -/
def waitIdle : Input := rd 0x004

/-- A command line: `WR CMD, encoding` then `WAIT` (rule R78). -/
def issue (i : Instr) : List Input := [wr 0x008 (encode i), waitIdle]

/-- `READBITS off, n` (30_encoding.md rule R79). -/
def readBitsSeq (off : Word) (n : Nat) : List Input := wr 0x00C off :: issue (.bread n) ++ [rd 0x010]

/-- `SETWIN org, len` (rule R79). -/
def setWinSeq (org len : Word) : List Input := [wr 0x018 org, wr 0x01C len]

/-- `SETIMG w, h, dst, alpha` (rule R79), with the value of CTRL that the host has read. -/
def setImgSeq (ctrl w h dst : Word) (alpha : Bool) : List Input :=
  [wr 0x020 w, wr 0x024 h, wr 0x028 dst, wr 0x000 (ctrl &&& 1 ||| bitAt alpha 1)]

/-- `LEVEL org, len, w, h, dst, alpha` (rule R79). -/
def levelSeq (ctrl org len w h dst : Word) (alpha : Bool) : List Input :=
  issue .srst ++ setWinSeq org len ++ setImgSeq ctrl w h dst alpha ++ issue .image ++ [rd 0x004]

/-- `CLEARST` (rule R79). -/
def clearStSeq : List Input := [wr 0x004 0x0000002E]

/-- WIN_ORG for an entry at `dataOffset` of a data file placed at `file` (70_reset_and_hazards.md rule R233). -/
def winOrgOf (file dataOffset : Word) : Word := file + dataOffset + 20

/-- WIN_LEN from `storedLength`; an entry with less than 8 is not decoded (rule R234). -/
def winLenOf (storedLength : Int) : Option Word :=
  if storedLength < 8 then none else some (BitVec.ofInt 32 (storedLength - 8))

/-- IMG_W or IMG_H from a header size; a size of 0, negative or at least 2^16 is not decoded (rule R235). -/
def imgSizeOf (size : Int) : Option (BitVec 16) :=
  if size ≤ 0 ∨ 65536 ≤ size then none else some (BitVec.ofInt 16 size)

/-- CTRL.ALPHA is bit 7 of the header's flags word (rule R236). -/
def alphaOf (flags : Word) : Bool := flags.getLsbD 7

/-- The size a mip level must have, `max(1, floor(d0 / 2^level))` (rule R237). -/
def levelSize (d0 level : Nat) : Nat := max 1 (d0 / 2 ^ level)

/-- A level fails the whole texture (rules R237 and R238): MalformedStreamError. -/
def levelFails (t : Status) : Bool := t.err || t.pastEnd

end Sys2Proof.Machine
end

