-- ==== Sys2Proof/Tests/Slice0.lean ====
section
/-! SUPPORT. Tests by named theorems: the WellFormed smoke tests, words written out from the spec's encodings, vectors of
95_test_vectors.md (named after their ids there), and for every obligation with hypotheses a concrete case that meets
them (`witness_...`). The expected values are the spec's. -/

namespace Sys2Proof.Tests

set_option Elab.async false

open Sys2Proof Sys2Proof.Machine Sys2Proof.Spec

/-! ## WellFormed -/

theorem test_wf_refuses_wide_count : (Instr.bread 32).wellFormed = false := by decide
theorem test_wf_takes_every_count_of_the_field : ∀ n < 32, (Instr.bread n).wellFormed = true := by decide
theorem test_assembler_refuses_zero : (Instr.bread 0).assemblerLegal = false := by decide
theorem test_assembler_refuses_25 : (Instr.bread 25).assemblerLegal = false := by decide

/-! ## Encodings: words written out from 30_encoding.md rules R70 to R74 -/

theorem test_decode_nop : decode 0b00000000000000000000000000000000 = .ok .nop := by decide
theorem test_decode_srst : decode 0b00000000000000000000000000000001 = .ok .srst := by decide
theorem test_decode_bread : decode 0b00000000000000000001000100000010 = .ok (.bread 17) := by decide
theorem test_decode_dcdec : decode 0b00000000000000010000000000000011 = .ok (.dcdec 1) := by decide
theorem test_decode_fill : decode 0b00000000000000100000000000000100 = .ok (.fill 2) := by decide
theorem test_decode_entdec : decode 0b00000000000000110000000000000101 = .ok (.entdec 3) := by decide
theorem test_decode_idctr : decode 0b00000000000000000000000000000110 = .ok .idctr := by decide
theorem test_decode_idctc : decode 0b00000000000000100000000000000111 = .ok (.idctc 2) := by decide
theorem test_decode_plane : decode 0b00000000000000010000000000001000 = .ok (.plane 1) := by decide
theorem test_decode_cconv : decode 0b00000000000000000000000000001001 = .ok .cconv := by decide
theorem test_decode_wrblk : decode 0b00000000000000000000000000001010 = .ok .wrblk := by decide
theorem test_decode_block : decode 0b00000000000000000000000000001011 = .ok .block := by decide
theorem test_decode_image : decode 0b00000000000000000000000000001100 = .ok .image := by decide
theorem test_ER1 : decode 0x0000000D = .error .illegalOp := by decide
theorem test_ER2 : decode 0x000000FF = .error .illegalOp := by decide
theorem test_ER3 : decode 0x00000100 = .error .reservedBits := by decide
theorem test_ER4 : decode 0x80000000 = .error .reservedBits := by decide
theorem test_ER5 : decode 0x00040003 = .error .reservedBits := by decide
theorem test_ER6 : decode 0x00010009 = .error .reservedBits := by decide
theorem test_BR20 : decode 0x00002002 = .error .reservedBits := by decide
theorem test_BR21 : decode 0x00010802 = .error .reservedBits := by decide
theorem test_BR3_encoding : encode (.bread 24) = 0x00001802 := by decide
theorem test_P4_encoding : encode (.idctc 2) = 0x00020007 := by decide

/-! ## The test configuration TC1 of 95_test_vectors.md section 1 -/

/-- `DC_JUMP` of TC1. -/
def jump (v : Fin 256) : DcEntry :=
  if v.val < 0x40 then ⟨2, 0⟩
  else if v.val < 0x80 then ⟨2, 1⟩
  else if v.val < 0xC0 then ⟨2, 2⟩
  else if v.val < 0xE0 then ⟨3, 3⟩
  else ⟨3, 8⟩

/-- A sub-table of TC1 for the classes 2 to 7. -/
def longTerminal : CtTable := ⟨[], .terminal 17⟩

/-- TC1. An escape reads 8 bits there; its value is the two's complement of the 8 bits. -/
def tc1 : Cfg where
  dcJump := tab jump
  ct := ⟨#[⟨[(0x10000, .terminal 1)], .table 1 1 0⟩,
    ⟨[(0x4000, .table 2 2 1), (0x2000, .escape 4 0 0)], .terminal 6⟩,
    longTerminal, longTerminal, longTerminal, longTerminal, longTerminal, longTerminal], rfl⟩
  scale := Vector.replicate 64 0x10000
  idx := tab fun k => ⟨63 - k.val, by omega⟩
  signNeg := true
  escVal := Vector.replicate 7 (.sar (.mul .arg (.lit 0x1000000)) 24)
  runOrder := .before
  t8 := tab fun k => if k = 0 then .input 0 else .add (.input 0) (.input k)
  kSqrtHalf := 0xB504F333
  mulC541 := .arg
  mulC1307 := .arg
  mulC383 := .arg
  rowOutStride := .nine
  ccMul := tab fun c => tab fun j => if c = j then .arg else .lit 0
  ccBias := 0x8000
  alphaConv := .sar (.add .arg (.lit 0x8000)) 16

/-- TC1-REV. -/
def tc1Rev : Cfg := { tc1 with t8 := tab fun k => .input ⟨7 - k.val, by omega⟩ }

/-- TC1-REV with `ROW_OUT_STRIDE = 8` (vector TR6). -/
def tc1Rev8 : Cfg := { tc1Rev with rowOutStride := .eight }

/-- TC1 with a run of 64 in the table code of class 0, so that the first such code underflows. -/
def tcLong : Cfg := { tc1 with ct := tc1.ct.set 0 ⟨[(0x10000, .terminal 1)], .table 1 1 63⟩ }

/-- The bytes in a memory, from address `a` on. -/
def put : Nat → List Nat → Memory
  | _, [] => []
  | a, b :: rest => if b = 0 then put (a + 1) rest else (a, BitVec.ofNat 8 b) :: put (a + 1) rest

/-- A running core with TC1 and the stream as its window. -/
def st (bytes : List Nat) : State :=
  { State.reset with
    rom := tc1, src := put 0 bytes, winLen := BitVec.ofNat 32 bytes.length, status.busy := true, session := true }

/-- The outcome is a next state that passes the test. -/
def nxt (o : Host.Outcome State Fault Refusal) (f : State → Bool) : Bool :=
  match o with
  | .next t => f t
  | .fault _ => false
  | .refused _ => false

theorem exists_of_nxt {o : Host.Outcome State Fault Refusal} {f : State → Bool} (h : nxt o f = true) :
    ∃ t, o = .next t ∧ f t = true := by
  cases o with
  | next t => exact ⟨t, rfl, h⟩
  | fault _ => cases h
  | refused _ => cases h

/-- COEF[i] = i (vector TR1). -/
def countCells : Cells 64 := tab fun i => some (BitVec.ofNat 32 i.val)

/-! ## Vectors of 95_test_vectors.md -/

/-- The window of section 4. -/
def br : State := st [0xA5, 0x3C, 0xF0, 0x0F, 0x12, 0x34, 0x56, 0x78, 0x9A]

theorem test_CT2 : nxt (exec .nop State.reset) (fun t => t.status.word == 0x2#32) = true := by decide +kernel
theorem test_CT3 : nxt (exec .srst
    { State.reset with dc := #v[5, 0, 0, 0], pos := 100, errinfo := 7, status.err := true, status.code := .noCode })
    (fun t => t.dc == #v[0, 0, 0, 0] && t.pos == 0 && t.errinfo == 0 && t.status.word == 0x2#32) = true := by
  decide +kernel

/-- Program P5: after a data error, where RESULT is unspecified, the values that the last SRST sets, RESULT = 0 among them. -/
theorem test_P5_srst : nxt (exec (.entdec 0) { State.reset with rom := tc1, winOrg := 0x3000, winLen := 8 })
    (fun t => t.status.err && t.status.code == .noCode && t.errinfo == 0 && nxt (exec .srst t) fun u =>
      u.result == 0 && u.pos == 0 && u.dc == #v[0, 0, 0, 0] && u.blkX == 0 && u.blkY == 0
        && u.status.word == 0x2#32 && !u.pageValid && u.coef[0] == none) = true := by decide +kernel

theorem test_BR23 : (br.afterRead 0).memReads = 9 ∧ ((br.afterRead 0).afterRead 60).memReads = 9 := by decide +kernel
theorem test_BR4 : br.readBits 28 8 = 0xF1 := by decide +kernel
theorem test_BR9 : nxt (exec (.bread 8) { br with arg0 := 65 })
    (fun t => t.result == 0x34#32 && t.status.word == 0xA#32 && t.memReads == 1) = true := by decide +kernel
theorem test_BR13 : br.readBits 7 24 = 0x009E7807 := by decide +kernel
theorem test_BR16 : br.readBits 0xFFFFFFF0 8 = 0 := by decide +kernel
theorem test_BR17 : nxt (exec (.bread 0) { br with cmd := 2, result := 5 })
    (fun t => t.status.word == 0x204#32 && t.errinfo == 2 && t.result == 5) = true := by decide +kernel
theorem test_DCD2 : nxt (exec (.dcdec 1) { st [0xE0, 0x18] with dc := #v[0, 10, 0, 0] })
    (fun t => t.dc == #v[0, 0xFFFFFF0B, 0, 0] && t.result == 0xFFFFFF01#32 && t.pos == 11 && t.status.word == 0x2#32)
    = true := by decide +kernel
theorem test_DCD5 : nxt (exec (.dcdec 1) { st [0x50] with dc := #v[0, 0x80000000, 0, 0] })
    (fun t => t.dc == #v[0, 0x7FFFFFFF, 0, 0] && t.result == 0xFFFFFFFF#32 && t.pos == 5 && t.status.word == 0x12#32)
    = true := by decide +kernel
theorem test_DC_delta_24 : dcDelta 24 0 = -16777215 ∧ dcDelta 24 0x7FFFFF = -8388608 ∧ dcDelta 24 0x800000 = 8388608 := by
  decide
theorem test_FL2 : nxt (exec (.fill 3) { State.reset with dc := #v[1, 2, 3, 0xFFFFFFFF] })
    (fun t => t.plane[3] == Vector.replicate 64 (some 0xFFFF0000#32) && t.plane[2][0] == none) = true := by
  decide +kernel
theorem test_EN2 : nxt (exec (.entdec 0) { st [0x68, 0xC7, 0xEE] with pos := 3, dc := #v[1, 0, 0, 0] })
    (fun t => t.coef.toList.take 6 ==
        [some 0x10000#32, some 0x10000#32, some 0#32, some 0xFFFE0000#32, some 0xFFFB0000#32, some 0#32]
      && t.result == 3 && t.pos == 23 && t.status.word == 0x2#32) = true := by decide +kernel
theorem test_EN13 : nxt (exec (.entdec 0) { st [0, 0, 0] with errinfo := 9 })
    (fun t => { t.status with pastEnd := false }.word == 0x304#32 && t.errinfo == 0 && t.coef[5] == none) = true := by
  decide +kernel
theorem test_PL2 : nxt (exec (.plane 0) (st [0x68, 0xC7, 0xEE]))
    (fun t => (t.plane[0].toList.drop 56) ==
        [some 0x10000#32, some 0x20000#32, some 0x10000#32, some 0xFFFF0000#32, some 0xFFFC0000#32, some 0x10000#32,
          some 0x10000#32, some 0x10000#32] && t.pos == 23 && t.result == 3 && t.status.word == 0x2#32) = true := by
  decide +kernel
theorem test_MulSqrtHalf : mulSqrtHalf 0xB504F333 0x7FFFFFFF = 1518500248 ∧
    mulSqrtHalf 0xB504F334 0x7FFFFFFF = 1518500249 ∧ mulSqrtHalf 0xB504F333 (-65536) = -46341 := by decide
theorem test_TR1 : nxt (exec .idctr { State.reset with rom := tc1Rev, coef := countCells })
    (fun t => t.tmp[0] == some 7#32 && t.tmp[7] == some 0#32 && t.tmp[8] == none && t.tmp[9] == some 15#32
      && t.tmp[70] == some 56#32) = true := by decide +kernel
theorem test_TR2 : nxt (exec (.idctc 0)
      { State.reset with rom := tc1Rev, tmp := tab fun j => some (BitVec.ofInt 32 (8 * (j.val / 9) + 7 - j.val % 9)) })
    (fun t => t.plane[0] == tab fun i => some (BitVec.ofNat 32 (63 - i.val))) = true := by decide +kernel
theorem test_CC11 : channelByte tc1 0 0x7FFFFFFF 0 0 = 0 ∧ channelByte tc1 0 0x8000 0 0 = 1 ∧
    channelByte tc1 0 0x1000000 0 0 = 255 := by decide
theorem test_CC13 : nxt (exec .cconv { State.reset with
      rom := tc1, plane := #v[Vector.replicate 64 (some 0xC80000), Vector.replicate 64 (some 0x50000),
        Vector.replicate 64 (some 0), Vector.replicate 64 none] })
    (fun t => t.pix == Vector.replicate 64 (some 0xFF0005C8#32)) = true := by decide +kernel

/-- PIX[i] = 0xFF000000 | i (section 9). -/
def wb (w h bx y : Nat) (base : Word) : State :=
  { State.reset with
    pix := tab fun i => some (0xFF000000#32 ||| BitVec.ofNat 32 i.val)
    imgW := BitVec.ofNat 16 w, imgH := BitVec.ofNat 16 h, dstBase := base
    blkX := BitVec.ofNat 13 bx, blkY := BitVec.ofNat 13 y }

theorem test_WB3 : nxt (exec .wrblk (wb 12 10 1 1 0x8000))
    (fun t => t.dst.length == 15 && t.dst.read 0x81A0 == 0 && t.dst.read 0x81A4 == 1 && t.dst.read 0x81DC == 11
      && t.dst.read 0x81DF == 0xFF && t.blkX == 0 && t.blkY == 2) = true := by decide +kernel
theorem test_WB4 : nxt (exec .wrblk (wb 12 10 0 2 0x8000))
    (fun t => t.status.word == 0x504#32 && t.errinfo == 0x80020000#32 && t.dst == []) = true := by decide +kernel
theorem test_IM2 : nxt (exec .block (wb 16 8 0 1 0))
    (fun t => t.status.word == 0x504#32 && t.errinfo == 0x80010000#32 && t.pos == 0) = true := by decide +kernel
theorem test_IM3 : nxt (exec .image { wb 16 0 3 0 0 with dc := #v[9, 0, 0, 0] })
    (fun t => t.status.word == 0x504#32 && t.errinfo == 0x10#32 && t.dc[0] == 9 && t.blkX == 3) = true := by
  decide +kernel

/-- The stream of program P2 with an image of one pixel. -/
def p2 : State := { st [0xF9, 0x16, 0xB1, 0x00] with imgW := 1, imgH := 1, dstBase := 0x8000 }

theorem test_P2_block : nxt (exec .block p2)
    (fun t => t.dc == #v[200, 5, 0, 0] && t.result == 0 && t.pos == 25 && t.status.word == 0x12#32
      && t.pix[63] == some 0xFF0005C8#32 && t.coef[0] == none && t.blkX == 0 && t.blkY == 1
      && t.dst == [(0x8000, 0xC8#8), (0x8001, 0x05#8), (0x8003, 0xFF#8)]) = true := by decide +kernel

/-! ### The port and the lifecycle -/

/-- One host action. -/
def host (op : HostOp) (s : State) : State := { s with inputs := [{ op := op, early := true }] }

/-- STATUS = 0x304 (section 3). -/
def failed : State := { State.reset with status.err := true, status.code := .noCode, cmd := 5 }

theorem test_CT4 : nxt (step (host (.write 0x008 4 0) failed))
    (fun t => t.status.word == 0x304#32 && t.cmd == 5) = true := by decide +kernel
theorem test_CT5 : nxt (engineStep (failed.acceptCmd 0x101))
    (fun t => t.status.word == 0x104#32 && t.errinfo == 0x101#32 && t.cmd == 0x101#32) = true := by decide +kernel
theorem test_CT6 : nxt (step (host (.write 0x004 4 0x2E) { State.reset with status.done := true, status.pastEnd := true }))
    (fun t => t.status.word == 0#32) = true := by decide +kernel
theorem test_CT8 : nxt (step (host (.write 0x004 4 0x10) { State.reset with status.done := true, status.fill := true }))
    (fun t => t.status.word == 0x12#32) = true := by decide +kernel
theorem test_CT9 : nxt (exec .nop { State.reset with ctrl.ie := true }) (fun t => t.irq) = true := by decide +kernel
theorem test_CT12 : nxt (step (host (.write 0x014 4 7) (st [1])))
    (fun t => t.status.word == 0x21#32 && t.pos == 0) = true := by decide +kernel
theorem test_CT13 : nxt (step (host (.write 0x038 4 0xFFFFFFFF) State.reset))
    (fun t => t.regValue 0 .ident == 0x54434843#32) = true := by decide +kernel
theorem test_read_tmp_71 : portReg 0x31C = .tmp 71 := by decide
theorem test_S7 : winOrgOf 0x00100000 0x40 = 0x00100054 ∧ winLenOf 1008 = some 1000 ∧ alphaOf 0x80 = true := by decide
theorem test_S5 : levelSize 16 3 = 2 ∧ levelSize 1 2 = 1 := by decide

/-! ## Witnesses: the hypotheses of the obligations are met -/

theorem readable_of_fresh {s : State} (hv : s.pageValid = false) (hr : s.raced = []) : Readable s :=
  ⟨fun h => absurd (hv.symm.trans h) (by decide), hr⟩

theorem readable_refill {s : State} (w : Nat) (hr : s.raced = []) : Readable (s.refill w) :=
  ⟨refill_pageHolds s w, hr⟩

/-- The work of a command is done. -/
def isOk (r : Res) : Bool :=
  match r with
  | .ok _ => true
  | .err _ _ _ => false
  | .fault _ _ => false

theorem eq_ok_of_isOk {r : Res} (h : isOk r = true) : r = .ok r.state := by
  cases r with
  | ok s => rfl
  | err _ _ _ => cases h
  | fault _ _ => cases h

/-- A loop that ends well is a run of codes. -/
theorem entRun_of_entLoop {fuel : Nat} : ∀ {k : Int} {count : Nat} {s t : State},
    entLoop fuel k count s = .ok t → EntRun k count s t := by
  induction fuel with
  | zero => intro k count s t h; cases h
  | succ fuel ih =>
    intro k count s t h
    rw [entLoop] at h
    split at h
    · rename_i u hs
      cases h
      exact .stop hs
    · rename_i k' u hs
      exact .store hs (ih h)
    · cases h

/-- A plane whose decode ends well is decoded. -/
theorem planeRun_of_plane {p : Plane} {s w : State} (h : plane p s = .ok w) : PlaneRun p s w := by
  unfold plane at h
  dsimp only at h
  split at h
  · rename_i hf
    cases h
    exact .fill hf
  · rename_i hf
    obtain ⟨v, hv, hc⟩ := bind_eq_ok_iff.1 h
    obtain ⟨u, hu, hr⟩ := bind_eq_ok_iff.1 hv
    exact .coded (by simpa using hf) (entRun_of_entLoop hu) hr hc

/-! ### Encoding and the lifecycle -/

theorem witness_DecodeEncodeRoundTrip : (Instr.bread 31).wellFormed = true ∧ (Instr.plane 3).wellFormed = true := by
  decide
theorem witness_EncodeDecodeRoundTrip : decode 0x00001F02 = .ok (.bread 31) ∧ decode 0x00030008 = .ok (.plane 3) := by
  decide

/-- A core that runs PLANE 0 next. -/
def running : State := State.reset.withFetchWord 32 0x00000008

theorem witness_StepRunsDecodedCommand :
    running.engineTurn = true ∧ (Instr.plane 0).wellFormed = true ∧ decode running.cmd = .ok (.plane 0) := by decide +kernel
theorem witness_StepRaisesIllegalCmd :
    (State.reset.withFetchWord 32 0x0D).engineTurn = true ∧ IllegalWord (State.reset.withFetchWord 32 0x0D).cmd ∧
      (State.reset.withFetchWord 32 0x0D).lateW1C = 0 ∧ (State.reset.withFetchWord 32 0x0D).lateOvr = false :=
  ⟨by decide +kernel, .inl (by decide +kernel), rfl, rfl⟩
theorem witness_IllegalWord_reserved : IllegalWord 0x00002002 ∧ ¬ IllegalWord 0x00001F02 ∧ ¬ IllegalWord 0x0000000C := by
  refine ⟨.inr (by decide), ?_, ?_⟩ <;> (rintro (h | h) <;> revert h <;> decide)
theorem witness_CommandWriteStartsEngine :
    (host (.write 0x008 4 0x0D) State.reset).inputs = [{ op := .write 0x008 4 0x0D, early := true }] ∧
      State.reset.inReset = false ∧ State.reset.status.busy = false ∧ State.reset.status.err = false :=
  ⟨rfl, rfl, rfl, rfl⟩
theorem witness_CommandDiscardedAfterError :
    failed.inReset = false ∧ failed.status.busy = false ∧ failed.status.err = true ∧
      (0x00000100#32).extractLsb' 0 8 ≠ 1#8 ∧ (0x00000101#32).extractLsb' 0 8 = 1#8 ∧ (0x00000004#32).getLsbD 2 = true ∧
      (host (.write 0x004 4 4) failed).inputs = [{ op := .write 0x004 4 4, early := true }] :=
  ⟨rfl, rfl, rfl, by decide, by decide, by decide, rfl⟩
theorem witness_BusyWriteIsDiscarded :
    (host (.write 0x8FC 4 7) running).inputs = [{ op := .write 0x8FC 4 7, early := true }] ∧ running.inReset = false ∧
      running.status.busy = true ∧ (0x8FC#12).toNat % 4 = 0 ∧ (0x004#12).toNat % 4 = 0 :=
  ⟨rfl, rfl, rfl, by decide, by decide⟩
/-- A reserved offset, where rule R95 is read as in log entry 19. -/
theorem witness_BusyWriteIsDiscarded_reserved :
    (host (.write 0x050 4 7) running).inputs = [{ op := .write 0x050 4 7, early := true }] ∧ portReg 0x050 = .reserved ∧
      (0x050#12).toNat % 4 = 0 := ⟨rfl, by decide, by decide⟩

/-- A command that completes, and one that records an error. -/
theorem witness_EveryCommandEndsIdle :
    (∃ t, exec .cconv { State.reset with plane := Vector.replicate 4 (Vector.replicate 64 (some 0)) } = .next t) ∧
      ∃ t, exec (.bread 25) br = .next t ∧ t.status.err = true := by
  refine ⟨?_, ?_⟩
  · obtain ⟨t, h, _⟩ := exists_of_nxt (o := exec .cconv
      { State.reset with plane := Vector.replicate 4 (Vector.replicate 64 (some 0)) }) (f := fun _ => true)
      (by decide +kernel)
    exact ⟨t, h⟩
  · exact exists_of_nxt (by decide +kernel)

/-! ### The bit reader -/

theorem br_readable : Readable br := readable_of_fresh rfl rfl
theorem witness_BitReadIsStreamField : Readable br ∧ (1 ≤ 1 ∧ 1 ≤ 24) ∧ (1 ≤ 24 ∧ 24 ≤ 24) :=
  ⟨br_readable, by decide, by decide⟩

/-- A window of 9 bytes: offset 72 is at its end, offset 68 reads four bits inside and four beyond. -/
theorem witness_ReadPastWindowIsZero :
    Readable br ∧ 8 * br.winLen.toNat ≤ (72#32).toNat ∧ 8 * br.winLen.toNat ≤ (68#32).toNat + 4 ∧
      (68#32).toNat + 3 < 8 * br.winLen.toNat := ⟨br_readable, by decide, by decide, by decide⟩
theorem witness_ReadSameWhateverPage :
    Readable br ∧ Readable (br.refill 1) ∧ forgetPage br = forgetPage (br.refill 1) :=
  ⟨br_readable, readable_refill 1 rfl, rfl⟩

/-- With the page at word 0, word 254 hits and word 255 misses. -/
theorem witness_ReadRefillsPage :
    (br.refill 0).SourceStable ∧
      ((br.refill 0).pageValid = true ∧ (br.refill 0).pageBase ≤ (8159#32).toNat / 32 ∧
        (8159#32).toNat / 32 + 1 ≤ (br.refill 0).pageBase + 255) ∧
      ¬ ((br.refill 0).pageValid = true ∧ (br.refill 0).pageBase ≤ (8160#32).toNat / 32 ∧
        (8160#32).toNat / 32 + 1 ≤ (br.refill 0).pageBase + 255) := by
  refine ⟨rfl, ⟨rfl, Nat.zero_le _, by decide +kernel⟩, ?_⟩
  rintro ⟨_, _, h⟩
  revert h
  decide +kernel
theorem witness_BreadReadsStreamBits : Readable { br with arg0 := 65 } ∧ 1 ≤ 8 ∧ 8 ≤ 24 :=
  ⟨readable_of_fresh rfl rfl, by decide, by decide⟩

/-- The window of section 4 after its byte 1 changed within the session, with a page filled before. -/
def affected : State := (br.refill 0).hostSrcWrite 1 0xFF

theorem affected_raced : affected.raced = [(1, 0x3C#8)] := by decide +kernel
theorem witness_BreadReadsStreamBits_raced : affected.PageFair := by
  have hp : affected.page = (br.refill 0).page := by simp [affected]
  intro _ j k
  have hb : affected.pageBase = 0 := rfl
  rcases hostSrcWrite_srcByte (br.refill 0) 1 0xFF (4 * (affected.pageBase + j.val) + k.val) rfl with h | ⟨hi, ha, hm⟩
  · left
    rw [hp, refill_pageHolds br 0 rfl j, wordAt_byte]
    exact h.symm
  · right
    refine ⟨hi, ?_⟩
    rw [hp, refill_pageHolds br 0 rfl j, wordAt_byte]
    simp only [State.raceValues, List.mem_map, List.mem_filter]
    refine ⟨_, ⟨hm, ?_⟩, rfl⟩
    have : affected.windowAddr (4 * (affected.pageBase + j.val) + k.val) = 1 := ha
    simp [this]
/-- Bits 8 to 15 are byte 1, whose old and new values differ. -/
theorem test_R60_values : affected.raceValues 1 = [0x3C] ∧ affected.src.read 1 = 0xFF := by decide +kernel
theorem test_R60_outside : ((br.refill 0).hostSrcWrite 9 0xFF).raced = [] ∧ (br.hostSrcWrite 1 0x3C) = br := by
  refine ⟨by decide +kernel, ?_⟩
  unfold State.hostSrcWrite
  exact if_pos (by decide +kernel)
theorem witness_BreadRejectsBadCount : ((0 : Nat) = 0 ∨ 24 < 0) ∧ ((25 : Nat) = 0 ∨ 24 < 25) := by decide

/-! ### DCDEC, FILL and PLANE -/

theorem witness_DcdecAccumulatesDelta : Readable (st [0xE0, 0x18]) := readable_of_fresh rfl rfl
theorem witness_DcDeltaRange : (0 < 2 ^ 1 ∧ 0 < 2 ^ (1 - 1)) ∧ (1 < 2 ^ 1 ∧ 2 ^ (1 - 1) ≤ 1) ∧
    (0x7FFFFF < 2 ^ (24 - 1) ∧ 2 ^ (24 - 1) ≤ 0x800000 ∧ 0x800000 < 2 ^ 24) := by decide
theorem witness_PlaneFillPath : (dcdec 1 (st [0x88])).status.fill = true := by decide +kernel

/-- The state of vector PL2. -/
def pl2 : State := st [0x68, 0xC7, 0xEE]

theorem pl2_entdec : isOk (entdec 0 (dcdec 0 pl2)) = true := by decide +kernel
theorem witness_PlaneCodedPath :
    (dcdec 0 pl2).status.fill = false ∧ pl2.rom.rowOutStride = .nine ∧
      ∃ u, EntRun 63 0 ((dcdec 0 pl2).initCoef 0) u :=
  ⟨by decide +kernel, rfl, _, entRun_of_entLoop (eq_ok_of_isOk pl2_entdec)⟩

/-- The same stream with `ROW_OUT_STRIDE = 8`; the host has written TMP[64..70], or nothing. -/
def pl2Eight (tail : Bool) : State :=
  { pl2 with
    rom := { tc1 with rowOutStride := .eight }
    tmp := tab fun j => if tail && decide (64 ≤ j.val ∧ j.val ≤ 70) then some 3 else none }

theorem pl2Eight_entdec : isOk (entdec 0 (dcdec 0 (pl2Eight true))) = true := by decide +kernel
theorem pl2EightFault_entdec : isOk (entdec 0 (dcdec 0 (pl2Eight false))) = true := by decide +kernel

/-- A decode under stride 8 that completes, and one that faults, with their hypotheses. -/
theorem witness_PlaneCodedPath_eight :
    ((dcdec 0 (pl2Eight true)).status.fill = false ∧ (pl2Eight true).rom.rowOutStride = .eight ∧
      (∃ u, EntRun 63 0 ((dcdec 0 (pl2Eight true)).initCoef 0) u) ∧
      ∀ j : Fin 72, 64 ≤ j.val → j.val ≤ 70 → (pl2Eight true).tmp[j] = some 3) ∧
    ((dcdec 0 (pl2Eight false)).status.fill = false ∧ (pl2Eight false).rom.rowOutStride = .eight ∧
      (∃ u, EntRun 63 0 ((dcdec 0 (pl2Eight false)).initCoef 0) u) ∧
      64 ≤ (70 : Fin 72).val ∧ (70 : Fin 72).val ≤ 70 ∧ (pl2Eight false).tmp[(70 : Fin 72)] = none) :=
  ⟨⟨by decide +kernel, rfl, ⟨_, entRun_of_entLoop (eq_ok_of_isOk pl2Eight_entdec)⟩, by decide +kernel⟩,
    by decide +kernel, rfl, ⟨_, entRun_of_entLoop (eq_ok_of_isOk pl2EightFault_entdec)⟩, by decide, by decide, by decide +kernel⟩

/-- The values of rule R166 there: a completed PLANE, and the fault. -/
theorem test_R166 :
    nxt (exec (.plane 0) (pl2Eight true)) (fun t => t.plane[0][63].isSome && t.tmp[71] == none) = true := by
  decide +kernel
theorem test_R166_fault : (match exec (.plane 0) (pl2Eight false) with
    | .fault f => f == .tmpNoValue
    | .next _ => false
    | .refused _ => false) = true := by decide +kernel
theorem witness_PlaneConsumesAtMost2033Bits :
    pl2.status.err = false ∧ ∃ t, exec (.plane 0) pl2 = .next t ∧ (!t.status.err) = true :=
  ⟨rfl, exists_of_nxt (by decide +kernel)⟩

/-! ### ENTDEC -/

theorem witness_EntdecTerminalFirst :
    Readable (st [0x80]) ∧ classOf (BitVec.ofNat 17 (streamField (st [0x80]) 0 17)) = some 0 ∧
      controlWord (st [0x80]).rom 0 (BitVec.ofNat 17 (streamField (st [0x80]) 0 17)) = .terminal 1 :=
  ⟨readable_of_fresh rfl rfl, by decide +kernel, by decide +kernel⟩
theorem en2_loop : isOk (entdec 0 { st [0x68, 0xC7, 0xEE] with pos := 3 }) = true := by decide +kernel
theorem witness_EntdecFollowsCodes :
    ∃ t, EntRun 63 0 ({ st [0x68, 0xC7, 0xEE] with pos := 3 }.initCoef 0) t :=
  ⟨_, entRun_of_entLoop (eq_ok_of_isOk en2_loop)⟩

/-- Both run orders. -/
theorem after_loop : isOk (entdec 0 { st [0x70] with rom := { tc1 with runOrder := .after } }) = true := by decide +kernel
theorem witness_EntdecTerminates :
    (∃ t, EntRun 63 0 ({ st [0x68, 0xC7, 0xEE] with pos := 3 }.initCoef 0) t) ∧
      ∃ t, EntRun 63 0 ({ st [0x70] with rom := { tc1 with runOrder := .after } }.initCoef 0) t :=
  ⟨witness_EntdecFollowsCodes, _, entRun_of_entLoop (eq_ok_of_isOk after_loop)⟩

/-- A negative counter and the last one, 62, that the code of vector EN3 can use, under both run orders. -/
theorem witness_TableCodeStoresCoefficient :
    Readable (st [0x70]) ∧ (63 : Int) ≤ 63 ∧ classOf (BitVec.ofNat 17 (streamField (st [0x70]) 0 17)) = some 0 ∧
      controlWord (st [0x70]).rom 0 (BitVec.ofNat 17 (streamField (st [0x70]) 0 17)) = .table 1 1 0 ∧
      lookupAt tc1 0 (0 + 1) < 0 ∧ lookupAt tc1 63 (0 + 1) = ((62 : Fin 64).val : Int) ∧
      lookupAt tc1 1 (0 + 1) = ((0 : Fin 64).val : Int) ∧
      lookupAt { tc1 with runOrder := .after } 63 (0 + 1) = ((63 : Fin 64).val : Int) :=
  ⟨readable_of_fresh rfl rfl, by decide, by decide +kernel, by decide +kernel, by decide +kernel, by decide +kernel,
    by decide +kernel, by decide +kernel⟩
theorem witness_EscapeCodeStoresCoefficient :
    Readable (st [0x10, 0x18]) ∧ (63 : Int) ≤ 63 ∧
      classOf (BitVec.ofNat 17 (streamField (st [0x10, 0x18]) 0 17)) = some 1 ∧
      controlWord (st [0x10, 0x18]).rom 1 (BitVec.ofNat 17 (streamField (st [0x10, 0x18]) 0 17)) = .escape 4 0 0 ∧
      lookupAt tc1 0 (0 + 1) < 0 ∧ lookupAt tc1 63 (0 + 1) = ((62 : Fin 64).val : Int) :=
  ⟨readable_of_fresh rfl rfl, by decide, by decide +kernel, by decide +kernel, by decide +kernel, by decide +kernel⟩

/-- How an iteration of ENTDEC raises. -/
def entRaises (e : EntStep) : Option (ErrCode × Word) :=
  match e with
  | .stop _ => none
  | .stored _ _ => none
  | .err code start _ => some (code, start)

theorem entErr_of_raises {k : Int} {s : State} {code : ErrCode} {start : Word}
    (h : entRaises (entStep k s) = some (code, start)) : EntErr k s code start := by
  unfold entRaises at h
  split at h
  · cases h
  · cases h
  · rename_i c u t he
    cases h
    exact .raise he

/-- Vector EN13, and a first code whose run passes the counter. -/
theorem witness_EntdecReportsDataError :
    EntErr 63 ((st [0, 0, 0]).initCoef 0) .noCode 0 ∧
      EntErr 63 ({ st [0x40] with rom := tcLong }.initCoef 0) .posUnderflow 0 :=
  ⟨entErr_of_raises (by decide +kernel), entErr_of_raises (by decide +kernel)⟩

/-- Vectors EN14 and EN16: a peek of 0x1F and one of 0x20. -/
theorem witness_EntdecNoCodeBelow0x20 :
    Readable (st [0x00, 0x0F, 0x80]) ∧ streamField (st [0x00, 0x0F, 0x80]) 0 17 < 0x20 ∧
      Readable (st [0x00, 0x10]) ∧ streamField (st [0x00, 0x10]) 0 17 = 0x20 :=
  ⟨readable_of_fresh rfl rfl, by decide +kernel, readable_of_fresh rfl rfl, by decide +kernel⟩

/-! ### The transform -/

/-- COEF[i] = i. -/
def tr (c : Cfg) : State := { State.reset with rom := c, coef := countCells }

/-- The values of `countCells`. -/
def countValues : Vector Word 64 := tab fun i => BitVec.ofNat 32 i.val

theorem tr_coef (c : Cfg) : ∀ i : Fin 64, (tr c).coef[i] = some countValues[i] := by
  intro i
  show countCells[i] = some countValues[i]
  revert i
  decide +kernel
theorem witness_IdctrTransformsRows :
    (∀ i : Fin 64, (tr tc1).coef[i] = some countValues[i]) ∧ (70 : Fin 72).val = strideOf tc1 * (7 : Fin 8).val + (7 : Fin 8).val ∧
      (∀ r k : Fin 8, (71 : Fin 72).val ≠ strideOf tc1 * r.val + k.val) :=
  ⟨tr_coef tc1, by decide +kernel, by decide +kernel⟩
theorem witness_IdctcTransformsColumns :
    ∀ c j : Fin 8, ({ State.reset with tmp := Vector.replicate 72 (some 5) } : State).tmp[c.val + 9 * j.val] =
      some (Vector.replicate 8 (Vector.replicate 8 5#32))[c][j] := by decide +kernel
theorem witness_TransformIsSeparable :
    (tr tc1Rev).rom.rowOutStride = .nine ∧ ∀ i : Fin 64, (tr tc1Rev).coef[i] = some countValues[i] :=
  ⟨rfl, tr_coef tc1Rev⟩
theorem witness_StrideEightLeavesCells :
    (tr tc1Rev8).rom.rowOutStride = .eight ∧ (∀ i : Fin 64, (tr tc1Rev8).coef[i] = some countValues[i]) ∧
      (64 ≤ (64 : Fin 72).val ∧ (tr tc1Rev8).tmp[(64 : Fin 72)] = none) ∧
      ((70 : Fin 72).val ≤ 70 ∧ (tr tc1Rev8).tmp[(70 : Fin 72)] = none) :=
  ⟨rfl, tr_coef tc1Rev8, ⟨by decide, by decide +kernel⟩, by decide, by decide +kernel⟩

/-! ### Colour conversion, tiles, blocks and images -/

theorem wb_inImage : TileInImage (wb 12 10 1 1 0x8000) := by
  refine ⟨?_, ?_, ?_, ?_⟩ <;> decide +kernel

/-- Vectors TR7, TR8, CC18 and WB9: the clauses of rule R212. -/
theorem witness_MissingValueFaults :
    State.reset.coef[(0 : Fin 64)] = none ∧ State.reset.tmp[(70 : Fin 72)] = none ∧
      State.reset.plane[(2 : Fin 4)][(63 : Fin 64)] = none ∧
      TileInImage { wb 12 10 1 1 0x8000 with pix := Vector.replicate 64 none } ∧
      { wb 12 10 1 1 0x8000 with pix := Vector.replicate 64 none }.pixelInside 11 = true ∧
      { wb 12 10 1 1 0x8000 with pix := Vector.replicate 64 none }.pix[(11 : Fin 64)] = none :=
  ⟨by decide +kernel, by decide +kernel, by decide +kernel, wb_inImage, by decide +kernel, by decide +kernel⟩

/-- All planes hold values; CTRL.ALPHA is as given. -/
def planes (alpha : Bool) : State :=
  { State.reset with ctrl.alpha := alpha, plane := Vector.replicate 4 (Vector.replicate 64 (some 7)) }

theorem witness_CconvConvertsPixels :
    ∀ (q : Plane) (i : Fin 64), (planes true).plane[q][i] = some (Vector.replicate 4 (Vector.replicate 64 7#32))[q][i] := by
  decide +kernel

/-- With CTRL.ALPHA = 0 the alpha plane need not hold a value. -/
theorem witness_CconvConvertsPixels_no_alpha :
    ∀ (q : Plane) (i : Fin 64), q ≠ 3 ∨ ({ planes false with plane := (planes false).plane.set 3 (Vector.replicate 64 none) } : State).ctrl.alpha = true →
      ({ planes false with plane := (planes false).plane.set 3 (Vector.replicate 64 none) } : State).plane[q][i] =
        some (Vector.replicate 4 (Vector.replicate 64 7#32))[q][i] := by
  decide +kernel

/-- The pixels of `wb`. -/
def wbPixels : Vector Word 64 := tab fun i => 0xFF000000#32 ||| BitVec.ofNat 32 i.val

/-- Vectors WB3 and WB8: the last tile of a row, and one that is not. -/
theorem witness_WrblkWritesTile :
    (wb 12 10 1 1 0x8000).dst.wf = true ∧ TileInImage (wb 12 10 1 1 0x8000) ∧
      (∀ i : Fin 64, (wb 12 10 1 1 0x8000).pix[i] = some wbPixels[i]) ∧
      (wb 12 10 1 1 0x8000).blkX.toNat + 1 = ((wb 12 10 1 1 0x8000).imgW.toNat + 7) / 8 ∧
      TileInImage (wb 16 8 0 0 0x8000) ∧
      (wb 16 8 0 0 0x8000).blkX.toNat + 1 ≠ ((wb 16 8 0 0 0x8000).imgW.toNat + 7) / 8 :=
  ⟨rfl, wb_inImage, by decide +kernel, by decide +kernel, by refine ⟨?_, ?_, ?_, ?_⟩ <;> decide +kernel,
    by decide +kernel⟩

/-- Vectors WB6 and WB4: an empty image, and the first tile row below the image. -/
theorem witness_GeometryIsChecked :
    (wb 0 7 0 0 0).imgW.toNat = 0 ∧ (wb 12 10 0 2 0).imgW.toNat ≠ 0 ∧ (wb 12 10 0 2 0).imgH.toNat ≠ 0 ∧
      ((wb 12 10 0 2 0).imgH.toNat + 7) / 8 ≤ (wb 12 10 0 2 0).blkY.toNat ∧
      ((wb 16 8 2 0 0).imgW.toNat + 7) / 8 ≤ (wb 16 8 2 0 0).blkX.toNat := by decide +kernel

/-- Program P2 after its planes 0, 1 and 2. -/
def p2a : State := (plane 0 p2).state
def p2b : State := (plane 1 p2a).state
def p2c : State := (plane 2 p2b).state

theorem p2a_ok : isOk (plane 0 p2) = true := by decide +kernel
theorem p2b_ok : isOk (plane 1 p2a) = true := by decide +kernel
theorem p2c_ok : isOk (plane 2 p2b) = true := by decide +kernel
theorem p2_planes : PlanesRun p2 p2c :=
  ⟨p2a, p2b, p2c, planeRun_of_plane (eq_ok_of_isOk p2a_ok), planeRun_of_plane (eq_ok_of_isOk p2b_ok),
    planeRun_of_plane (eq_ok_of_isOk p2c_ok), .inr ⟨rfl, rfl⟩⟩
theorem witness_BlockDecodesAndWrites : p2.dst.wf = true ∧ TileInImage p2 ∧ PlanesRun p2 p2c :=
  ⟨rfl, by refine ⟨?_, ?_, ?_, ?_⟩ <;> decide +kernel, p2_planes⟩

/-- The stream of vector IM4, with alpha, and an image of two tiles. -/
def im4 : State := { st [0xF9, 0x16, 0xB1, 0x78, 0x08, 0x38] with imgW := 16, imgH := 8, ctrl := { ie := false, alpha := true } }
def im4a : State := (plane 0 im4).state
def im4b : State := (plane 1 im4a).state
def im4c : State := (plane 2 im4b).state

/-- A block with its alpha plane, on a tile that is not the last of its row. -/
theorem witness_BlockDecodesAndWrites_alpha :
    im4.dst.wf = true ∧ TileInImage im4 ∧ PlanesRun im4 (plane 3 im4c).state ∧
      im4.blkX.toNat + 1 ≠ (im4.imgW.toNat + 7) / 8 :=
  ⟨rfl, by refine ⟨?_, ?_, ?_, ?_⟩ <;> decide +kernel,
    ⟨im4a, im4b, im4c, planeRun_of_plane (eq_ok_of_isOk (by decide +kernel)),
      planeRun_of_plane (eq_ok_of_isOk (by decide +kernel)), planeRun_of_plane (eq_ok_of_isOk (by decide +kernel)),
      .inl ⟨rfl, planeRun_of_plane (eq_ok_of_isOk (by decide +kernel))⟩⟩, by decide +kernel⟩

/-- Vector IM4: the pixels of its block. -/
theorem test_IM4 : nxt (exec .block im4) (fun t => t.dc == #v[200, 5, 0, 128] && t.pos == 38 &&
    t.pix[63] == some 0x800005C8#32 && t.blkX == 1) = true := by decide +kernel
theorem witness_ImageDecodesBlocks :
    p2.imgW.toNat ≠ 0 ∧ p2.imgH.toNat ≠ 0 ∧
      BlocksRun ((p2.imgW.toNat + 7) / 8 * ((p2.imgH.toNat + 7) / 8))
        { p2 with dc := Vector.replicate 4 0, blkX := 0, blkY := 0, pageValid := false } (finishBlock p2c) :=
  ⟨by decide +kernel, by decide +kernel, .block p2_planes .done⟩
theorem witness_StoresStayInsideImage :
    p2.dst.wf = true ∧ (∃ t, exec .image p2 = .next t ∧ (!t.status.err) = true) ∧
      ∀ px py : Nat, px < p2.imgW.toNat → py < p2.imgH.toNat → ∀ k : Fin 4,
        (0x8004 : Nat) ≠ byteAddr (p2.dstBase + BitVec.ofNat 32 (4 * (py * p2.imgW.toNat + px))) k := by
  refine ⟨rfl, exists_of_nxt (by decide +kernel), ?_⟩
  intro px py hx hy k
  have h1 : p2.imgW.toNat = 1 := by decide +kernel
  have h2 : p2.imgH.toNat = 1 := by decide +kernel
  have hpx : px = 0 := by omega
  have hpy : py = 0 := by omega
  subst hpx hpy
  revert k
  decide +kernel

/-- Zero bits as the stream of an image of one pixel (vector PL3). -/
def zeros : State := { p2 with src := [] }

theorem zeros_err : PlaneErr 0 zeros .noCode 2 := ⟨by decide +kernel, entErr_of_raises (by decide +kernel)⟩

/-- The first block of the image fails, and the third plane of a block after two that fill. -/
theorem witness_DataErrorAbortsBlock :
    PlaneErr 0 zeros .noCode 2 ∧ TileInImage zeros ∧ PlanesErr zeros .noCode 2 ∧
      (0 < (zeros.imgW.toNat + 7) / 8 * ((zeros.imgH.toNat + 7) / 8) ∧
        BlocksRun 0 { zeros with dc := Vector.replicate 4 0, blkX := 0, blkY := 0, pageValid := false } zeros) ∧
      PlanesErr { p2 with winLen := 3, src := put 0 [0xF9, 0x16, 0xB0] } .noCode 23 := by
  refine ⟨zeros_err, by refine ⟨?_, ?_, ?_, ?_⟩ <;> decide +kernel, .inl zeros_err, ⟨by decide +kernel, .done⟩, ?_⟩
  refine .inr ⟨_, planeRun_of_plane (eq_ok_of_isOk (by decide +kernel)), .inr ⟨_,
    planeRun_of_plane (eq_ok_of_isOk (by decide +kernel)), .inl ⟨by decide +kernel, entErr_of_raises (by decide +kernel)⟩⟩⟩

/-- The same image after another session. -/
def p2Again : State := { p2 with dc := #v[1, 2, 3, 4], blkX := 5, result := 6, pageBase := 9 }

theorem witness_ImageForgetsEarlierSession :
    p2.rom.rowOutStride = .nine ∧ p2.status.err = false ∧
      p2Again = { p2 with
        dc := p2Again.dc, blkX := p2Again.blkX, blkY := p2Again.blkY, result := p2Again.result,
        errinfo := p2Again.errinfo, arg0 := p2Again.arg0, coef := p2Again.coef, tmp := p2Again.tmp,
        plane := p2Again.plane, pix := p2Again.pix, pageValid := p2Again.pageValid, pageBase := p2Again.pageBase,
        page := p2Again.page, memReads := p2Again.memReads } ∧
      ∃ t, exec .image p2 = .next t ∧ (!t.status.err) = true :=
  ⟨rfl, rfl, rfl, exists_of_nxt (by decide +kernel)⟩

/-! ### The whole machine, reset and the port -/

/-- Commands that answer a next state: one that stores pixels, one that does not, and a BLOCK without alpha. -/
theorem witness_CommandFootprints :
    (∃ t, exec .image p2 = .next t ∧ (!t.status.err) = true) ∧ (∃ t, exec (.bread 24) br = .next t ∧ (!t.status.err) = true) ∧
      p2.ctrl.alpha = false ∧ ∃ t, exec .block p2 = .next t ∧ (!t.status.err) = true :=
  ⟨exists_of_nxt (by decide +kernel), exists_of_nxt (by decide +kernel), rfl, exists_of_nxt (by decide +kernel)⟩
theorem witness_ResetInputStopsCommand :
    (host (.reset true) running).engineTurn = false ∧
      (host (.reset true) running).inputs = [{ op := .reset true, early := true }] ∧
      (host (.write 0x000 4 1) { State.reset with inReset := true }).inReset = true ∧
      (host (.reset true) State.reset).status.busy = false ∧
      (host (.reset false) { State.reset with inReset := true }).inReset = true ∧
      AsReset (host (.reset false) { State.reset with inReset := true }) ∧
      ∃ t, step (host (.srcWrite 5 5) { State.reset with inReset := true }) = .next t :=
  ⟨by decide +kernel, rfl, rfl, rfl, rfl, rfl, _, rfl⟩

/-- A BLOCK cut short by reset. -/
theorem witness_ResetCutMixesBytes :
    (host (.reset true) { p2 with cmd := 0x0B }).dst.wf = true ∧
      (host (.reset true) { p2 with cmd := 0x0B }).status.busy = true ∧
      decode (host (.reset true) { p2 with cmd := 0x0B }).cmd = .ok .block ∧
      (∃ t, step (host (.reset true) { p2 with cmd := 0x0B }) = .next t) ∧
      ∃ u, exec .block { p2 with cmd := 0x0B } = .next u ∧ (!u.status.err) = true :=
  ⟨rfl, rfl, by decide +kernel, ⟨_, rfl⟩, exists_of_nxt (by decide +kernel)⟩
theorem witness_PortAccessRules :
    (host (.read 0xFFC 4) State.reset).engineTurn = false ∧ State.reset.inReset = false ∧ (0xFFC#12).toNat % 4 = 0 ∧
      (host (.read 0x002 2) running).engineTurn = false ∧ ((2 : Nat) ≠ 4 ∨ (0x002#12).toNat % 4 ≠ 0) ∧
      State.reset.status.busy = false :=
  ⟨by decide +kernel, rfl, by decide, by decide +kernel, by decide, rfl⟩
theorem witness_PortStoresDefinedBits :
    State.reset.status.busy = false ∧ isReadWrite (.tmp 71) = true ∧ PortReg.tmp 70 ≠ .tmp 71 ∧
      PortReg.tmp 71 ≠ .winOrg ∧ PortReg.tmp 71 ≠ .winLen := by decide +kernel

/-- A read from a valid page that completes. -/
theorem witness_PageIsInvalidated :
    (br.refill 0).pageValid = true ∧ (br.refill 0).status.err = false ∧
      ∃ t, exec (.bread 8) (br.refill 0) = .next t ∧ (!t.status.err) = true :=
  ⟨rfl, rfl, exists_of_nxt (by decide +kernel)⟩
theorem witness_IrqFollowsStatus :
    (failed.status.done = true → (4#32).getLsbD 1 = true) ∧ (failed.status.err = true → (4#32).getLsbD 2 = true) ∧
      State.reset.status.busy = false ∧ State.reset.status.err = false ∧ ∃ t, exec .srst failed = .next t :=
  ⟨by decide, by decide, rfl, rfl, _, rfl⟩
theorem witness_ConfigurationNeverChanges : ∃ t, step (host (.reset true) running) = .next t := ⟨_, rfl⟩

/-- A host write of CMD to a core with the interrupt enabled: the invariants hold before it, and it answers a next
state. -/
theorem witness_StepKeeps :
    (host (.write 0x008 4 5) { State.reset with ctrl.ie := true }).MemoriesOk ∧
      (host (.write 0x008 4 5) { State.reset with ctrl.ie := true }).PageOk ∧
      (host (.write 0x008 4 5) { State.reset with ctrl.ie := true }).StatusOk ∧
      ∃ t, step (host (.write 0x008 4 5) { State.reset with ctrl.ie := true }) = .next t := by
  refine ⟨⟨rfl, rfl⟩, ⟨?_, ?_, fun _ => ?_, ?_⟩, ?_, _, rfl⟩
  · intro h; cases h
  · intro h; cases h
  · intro h; cases h
  · intro h; cases h
  · simp [State.StatusOk, State.reset, host]

/-- A running command with a valid page: the invariants hold, and the engine's step answers a next state. -/
theorem witness_StepKeeps_engine :
    ((br.refill 0).MemoriesOk ∧ (br.refill 0).PageOk ∧ (br.refill 0).StatusOk) ∧ (br.refill 0).engineTurn = true ∧
      ∃ t, step { br.refill 0 with cmd := 0x00000802 } = .next t ∧ (t.result == 0xA5#32) = true := by
  refine ⟨⟨⟨by decide +kernel, by decide +kernel⟩, ⟨fun _ => rfl, fun _ => rfl, fun _ => refill_pageHolds br 0,
    refill_pageFair br 0⟩, ?_⟩,
    by decide +kernel, exists_of_nxt (by decide +kernel)⟩
  simp [State.StatusOk, br, st, State.reset]

/-- A program of one NOP with its WAIT: the host writes CMD, the engine runs, the host sees BUSY = 0. -/
theorem test_R245_nop : ∃ t, DefinedRun { State.reset with inputs := issue .nop } t ∧ t.status.done = true := by
  refine ⟨_, ⟨3, ⟨rfl, fun h => absurd h (by decide), fun h => absurd h (by decide), _, rfl, rfl,
    fun _ => ⟨⟨_, rfl⟩, fun h => ?_⟩, fun _ => trivial, _, rfl, rfl, fun h => absurd h (by decide), fun _ => trivial, _, rfl,
    rfl, rfl⟩, rfl, rfl⟩, rfl⟩
  rcases h with h | h | h <;> exact absurd h (by decide +kernel)

/-- A BLOCK that stores into its own window and is cut short by reset has no defined result (rule R241). -/
theorem test_R245_overlap (t : State) : ¬ DefinedRun (host (.reset true) { p2 with cmd := 0x0B, dstBase := 3 }) t := by
  rintro ⟨k, hr, he⟩
  cases k with
  | zero => obtain ⟨rfl, _⟩ := hr; exact absurd he.2 (by decide +kernel)
  | succ k =>
    have hin := (hr.2.1 rfl).2 (.inr (.inl (by decide +kernel))) 0 (by decide +kernel)
    exact absurd hin (by decide +kernel)

/-- A WRBLK whose pixels hold no value and that reset cuts short may have hit the model fault (rule R212). -/
theorem test_R245_cutFault (t : State) : ¬ DefinedRun (host (.reset true) { p2 with cmd := 0x0A }) t := by
  rintro ⟨k, hr, he⟩
  cases k with
  | zero => obtain ⟨rfl, _⟩ := hr; exact absurd he.2 (by decide +kernel)
  | succ k =>
    obtain ⟨u, hu⟩ := (hr.2.1 rfl).1
    have hn : nxt (engineStep (host (.reset true) { p2 with cmd := 0x0A })) (fun _ => true) = false := by decide +kernel
    rw [hu] at hn
    exact absurd hn (by simp [nxt])

/-- A host that writes POS after the command running at the start, without a read of STATUS between, breaks rule R240. -/
theorem test_R245_unseen (t : State) :
    ¬ DefinedRun { State.reset with status.busy := true, inputs := [wr 0x014 7] } t := by
  rintro ⟨k, hr, he⟩
  cases k with
  | zero => obtain ⟨rfl, _⟩ := hr; exact absurd he.1 (by decide)
  | succ k =>
    obtain ⟨_, _, _, u, hu, hr⟩ := hr
    cases hu
    cases k with
    | zero => obtain ⟨rfl, _⟩ := hr; exact absurd he.1 (by decide)
    | succ k =>
      have hoff : (0x014#12) = 0x004 := hr.2.2.1 rfl
      exact absurd hoff (by decide)

/-- A register write that lands while a command runs breaks rule R240; a read of STATUS, a write of STATUS and a write of a
source byte outside the window do not. -/
theorem test_R240 :
    ¬ (host (.write 0x014 4 7) br).KeepsBusyHazard false ∧ (host (.read 0x004 4) br).KeepsBusyHazard true ∧
      (host (.write 0x004 4 2) br).KeepsBusyHazard true ∧ (host (.srcWrite 9 1) br).KeepsBusyHazard true ∧
      ¬ (host (.srcWrite 8 1) br).KeepsBusyHazard true ∧ ¬ (host (.write 0x014 4 7) State.reset).KeepsBusyHazard true := by
  refine ⟨fun h => ?_, fun _ => trivial, fun _ => rfl, fun _ => (by decide +kernel : br.inWindow 9 = false), fun h => ?_,
    fun h => ?_⟩
  · have hoff : (0x014#12) = 0x004 := h rfl
    exact absurd hoff (by decide)
  · have hout : br.inWindow 8 = false := h rfl
    exact absurd hout (by decide +kernel)
  · have hoff : (0x014#12) = 0x004 := h rfl
    exact absurd hoff (by decide)
theorem witness_PageStateIsInvisible :
    br.PageHolds ∧ (br.refill 1).PageHolds ∧ forgetPage br = forgetPage (br.refill 1) :=
  ⟨br_readable.1, refill_pageHolds br 1, rfl⟩

end Sys2Proof.Tests
end

section
/-! The bits of a `BitRead`: the word pair it extracts from, each bit as a bit of the stream, and what the window end
does to it (20_memory.md rules R52 to R54 and R58, 41_bitreader.md rule R101). -/

namespace Sys2Proof.Machine

open Sys2Proof.Spec

/-! ### Stream bits -/

/-- A stream bit below the window end is the bit of its source byte (20_memory.md rules R51 and R52). -/
theorem streamBit_of_lt {s : State} {j : Nat} (h : j < 8 * s.winLen.toNat) :
    streamBit s j = (s.src.read (s.winOrg + BitVec.ofNat 32 (j / 8)).toNat).getLsbD (7 - j % 8) := by
  have hbyte : j / 8 < s.winLen.toNat := by omega
  simp only [streamBit, State.srcByte, if_pos hbyte, State.windowAddr]

/-- A stream bit at or past the window end is 0 (20_memory.md rule R54). -/
theorem streamBit_of_le {s : State} {j : Nat} (h : 8 * s.winLen.toNat ≤ j) : streamBit s j = false := by
  have hbyte : ¬ j / 8 < s.winLen.toNat := by omega
  simp [streamBit, State.srcByte, if_neg hbyte]

/-- A window word holds 32 stream bits, the first one most significant (20_memory.md rules R52 and R53). -/
theorem wordAt_getLsbD (s : State) (w : Nat) {i : Nat} (hi : i < 32) :
    (s.wordAt w).getLsbD (31 - i) = streamBit s (32 * w + i) := by
  have hbyte := congrArg (·.getLsbD (7 - i % 8)) (wordAt_byte s w ⟨i / 8, by omega⟩)
  have hbit : 24 - 8 * (i / 8) + (7 - i % 8) = 31 - i := by omega
  have hidx : (32 * w + i) / 8 = 4 * w + i / 8 ∧ (32 * w + i) % 8 = i % 8 := by omega
  have hlt : 7 - i % 8 < 8 := by omega
  simpa only [BitVec.getLsbD_extractLsb', hbit, hlt, decide_true, Bool.true_and, streamBit, hidx.1, hidx.2]
    using hbyte

/-- Two neighbouring window words hold 64 stream bits. -/
theorem wordPair_getLsbD (s : State) (w : Nat) {i : Nat} (hi : i < 64) :
    (s.wordAt w ++ s.wordAt (w + 1)).getLsbD (63 - i) = streamBit s (32 * w + i) := by
  rw [BitVec.getLsbD_append]
  by_cases hfirst : i < 32
  · have hbit : 63 - i - 32 = 31 - i := by omega
    rw [if_neg (by omega), hbit, wordAt_getLsbD s w hfirst]
  · have hbit : 63 - i = 31 - (i - 32) := by omega
    have hidx : 32 * (w + 1) + (i - 32) = 32 * w + i := by omega
    rw [if_pos (by omega), hbit, wordAt_getLsbD s (w + 1) (by omega), hidx]

/-! ### The extraction -/

/-- Bit `j` of an extraction: the bit of the word pair `64 - b - n` places up, and 0 from bit `n` on. -/
theorem extractBits_getLsbD (hi lo : Word) (b : Nat) {n : Nat} (hn : n ≤ 32) (j : Nat) :
    (extractBits hi lo b n).getLsbD j = ((hi ++ lo).getLsbD (64 - b - n + j) && decide (j < n)) := by
  have hmask : (BitVec.ofNat 32 (2 ^ n - 1)).getLsbD j = decide (j < n) := by
    rw [BitVec.getLsbD_ofNat, Nat.testBit_two_pow_sub_one]
    by_cases hj : j < n
    · simp [hj]; omega
    · simp [hj]
  rw [extractBits, BitVec.getLsbD_and, hmask, BitVec.getLsbD_setWidth, BitVec.getLsbD_ushiftRight]
  by_cases hj : j < n
  · have : j < 32 := by omega
    simp [this]
  · simp [hj]

/-! ### `BitRead` -/

/-- Without a changed source byte a read sees the word that the page holds. -/
theorem racedWord_of_sourceStable {s : State} (h : s.SourceStable) (w : Nat) (x : Word) : s.racedWord w x = x := by
  have hempty : s.raced.isEmpty = true := List.isEmpty_iff.2 h
  rw [State.racedWord, if_pos hempty]

/-- `BitRead` extracts from the window words, whatever the page was (20_memory.md rule R58). -/
theorem readBits_of_readable {s : State} (h : Readable s) (off : Word) (n : Nat) :
    s.readBits off n = extractBits (s.wordAt (wordOf off)) (s.wordAt (wordOf off + 1)) (off.toNat % 32) n := by
  obtain ⟨hpage, hstable⟩ := h
  have hstable' : (s.lookupPage (wordOf off)).SourceStable := (lookupPage_raced s _).trans hstable
  have hword : ∀ v, v = wordOf off ∨ v = wordOf off + 1 →
      (s.lookupPage (wordOf off)).pageWord v = s.wordAt v := fun v hv => by
    rw [pageWord_of_hit (lookupPage_pageHolds hpage _) (lookupPage_hit s _) hv, lookupPage_wordAt]
  simp only [State.readBits, racedWord_of_sourceStable hstable', hword _ (.inl rfl), hword _ (.inr rfl)]

/-- The bits of a `BitRead` are stream bits, the first one most significant (41_bitreader.md rule R101). -/
theorem readBits_getLsbD {s : State} (h : Readable s) (off : Word) {n i : Nat} (hn : n ≤ 24) (hi : i < n) :
    (s.readBits off n).getLsbD (n - 1 - i) = streamBit s (off.toNat + i) := by
  have hbit : 64 - off.toNat % 32 - n + (n - 1 - i) = 63 - (off.toNat % 32 + i) := by omega
  have hlt : n - 1 - i < n := by omega
  have hidx : 32 * wordOf off + (off.toNat % 32 + i) = off.toNat + i := by rw [wordOf]; omega
  rw [readBits_of_readable h, extractBits_getLsbD _ _ _ (by omega), hbit, wordPair_getLsbD _ _ (by omega), hidx,
    decide_eq_true hlt, Bool.and_true]

/-- A `BitRead` whose `n` bits are all 0 is 0: it has no bit from `n` on. -/
theorem readBits_eq_zero {s : State} (h : Readable s) {off : Word} {n : Nat} (hn : n ≤ 24)
    (hz : ∀ i, i < n → streamBit s (off.toNat + i) = false) : s.readBits off n = 0 := by
  refine BitVec.eq_of_getLsbD_eq fun j _ => ?_
  rw [BitVec.ofNat_eq_ofNat, BitVec.getLsbD_zero]
  by_cases hj : j < n
  · have hbit : j = n - 1 - (n - 1 - j) := by omega
    rw [hbit, readBits_getLsbD h off hn (by omega)]
    exact hz _ (by omega)
  · rw [readBits_of_readable h, extractBits_getLsbD _ _ _ (by omega), decide_eq_false hj, Bool.and_false]

/-- Settles O14: each bit of a read is a stream bit, and stream bits end with the window. -/
theorem readPastWindowIsZero : Obligations.ReadPastWindowIsZero := by
  intro s off n hs _ hn
  refine ⟨fun hpast => ?_, fun i hi hpast => ?_, fun i hi hin => ?_⟩
  · exact readBits_eq_zero hs hn fun i _ => streamBit_of_le (by omega)
  · rw [readBits_getLsbD hs off hn hi, streamBit_of_le hpast]
  · rw [readBits_getLsbD hs off hn hi, streamBit_of_lt hin]

/-- The window words do not depend on the page. -/
theorem wordAt_of_forgetPage_eq {s t : State} (h : forgetPage s = forgetPage t) (w : Nat) : s.wordAt w = t.wordAt w :=
  wordAt_congr (s := t) (t := s) (congrArg State.winOrg h :) (congrArg State.winLen h :) (congrArg State.src h :) w

/-- Settles O15: both reads extract from the window words, which the two states share. -/
theorem readSameWhateverPage : Obligations.ReadSameWhateverPage := by
  intro s t off n hs ht hpage
  refine ⟨?_, readBits_of_readable hs off n⟩
  rw [readBits_of_readable hs, readBits_of_readable ht, wordAt_of_forgetPage_eq hpage, wordAt_of_forgetPage_eq hpage]

end Sys2Proof.Machine
end

section
/-! The value of a `BitRead` as a number, and the state it leaves (41_bitreader.md rules R100 and R101). -/

namespace Sys2Proof.Machine

open Sys2Proof.Spec

/-! ### Fields of the stream -/

/-- The stream field is the field of the window bytes (20_memory.md rule R52). -/
theorem streamField_eq_fieldOf (s : State) (off n : Nat) : streamField s off n = fieldOf s.srcByte off n := by
  induction n with
  | zero => rfl
  | succ n ih => rw [streamField, fieldOf, ih, streamBit]

/-- A number below `2^n` whose bits are those of the row of bytes, the first one most significant, is the field: its last
bit is the last one of the field, and the half of it is the field without that bit. -/
theorem eq_fieldOf_of_testBit {b : Nat → Byte} {off n x : Nat} (hlt : x < 2 ^ n)
    (hbits : ∀ i, i < n → x.testBit (n - 1 - i) = (b ((off + i) / 8)).getLsbD (7 - (off + i) % 8)) :
    x = fieldOf b off n := by
  induction n generalizing x with
  | zero => rw [fieldOf]; omega
  | succ n ih =>
    have hhalf : x / 2 = fieldOf b off n := ih (by omega) fun i hi => by
      have hidx : n - 1 - i + 1 = n + 1 - 1 - i := by omega
      rw [Nat.testBit_div_two, hidx, hbits i (by omega)]
    have hlast : x % 2 = ((b ((off + n) / 8)).getLsbD (7 - (off + n) % 8)).toNat := by
      rw [← hbits n (by omega), Nat.add_sub_cancel, Nat.sub_self, Nat.toNat_testBit, pow_zero, Nat.div_one]
    rw [fieldOf, ← hhalf, ← hlast, Nat.div_add_mod]

/-! ### The value and the state after a `BitRead` -/

/-- A `BitRead` of at most 24 bits is below `2^n`, whatever the page holds (41_bitreader.md rule R101). -/
theorem readBits_lt (s : State) (off : Word) {n : Nat} (hn : n ≤ 24) : (s.readBits off n).toNat < 2 ^ n :=
  extractBits_lt _ _ _ n hn

/-- As a number a `BitRead` is the field of the stream (41_bitreader.md rule R101). -/
theorem readBits_toNat {s : State} (h : Readable s) (off : Word) {n : Nat} (hn : n ≤ 24) :
    (s.readBits off n).toNat = streamField s off.toNat n := by
  rw [streamField_eq_fieldOf]
  exact eq_fieldOf_of_testBit (readBits_lt s off hn) fun i hi => readBits_getLsbD h off hn hi

/-- A page lookup changes the page and the count of source reads only (20_memory.md rule R57). -/
theorem lookupPage_sameButPage (s : State) (w : Nat) : SameButPage s (s.lookupPage w) := by
  rw [State.lookupPage]
  split
  · rfl
  · rfl

/-- A read changes the page and the counters only: POS does not move (41_bitreader.md rule R100). -/
theorem afterRead_sameButPage (s : State) (off : Word) : SameButPage s (s.afterRead off) := by
  have hlookup := lookupPage_sameButPage s (wordOf off)
  rw [State.afterRead]
  split
  · exact hlookup
  · exact congrArg (fun t : State => { t with draws := (s.lookupPage (wordOf off)).draws + 1 }) hlookup

/-- Settles O13: the bits of a read are stream bits and it has no others, so its value is the stream field. -/
theorem bitReadIsStreamField : Obligations.BitReadIsStreamField := by
  intro s off n hs _ hn
  exact ⟨readBits_lt s off hn, fun i hi => readBits_getLsbD hs off hn hi, readBits_toNat hs off hn,
    afterRead_sameButPage s off⟩

end Sys2Proof.Machine
end

section
/-! DCDEC (43_plane.md rules R140 to R144): what the DC code and the fill-flag test read and consume, their values as
fields of the stream, and what the command leaves alone. -/

namespace Sys2Proof.Machine

open Sys2Proof.Spec

/-! ### Reading on in the stream -/

/-- The stream bits are those of the window: its origin, its length and its bytes. -/
theorem streamField_congr {s t : State} (ho : t.winOrg = s.winOrg) (hl : t.winLen = s.winLen) (hs : t.src = s.src)
    (off n : Nat) : streamField t off n = streamField s off n := by
  have hbyte : t.srcByte = s.srcByte := by
    funext i
    simp only [State.srcByte, State.windowAddr, ho, hl, hs]
  rw [streamField_eq_fieldOf, streamField_eq_fieldOf, hbyte]

/-- A read leaves the stream readable (20_memory.md rule R58). -/
theorem afterRead_readable {s : State} (h : Readable s) (off : Word) : Readable (s.afterRead off) := by
  obtain ⟨hpage, hstable⟩ := h
  exact ⟨afterRead_pageHolds hpage off, (afterRead_raced s off).trans hstable⟩

theorem consume_readable {s : State} (h : Readable s) (c : Nat) : Readable (s.consume c) := h

theorem accumulateDc_readable {s : State} (h : Readable s) (p : Plane) (delta : Int) :
    Readable (s.accumulateDc p delta) := h

/-- `consume(c)` raises PAST_END when the new position passes the window end (42_entropy.md rule R115). -/
@[simp] theorem consume_pastEnd (s : State) (c : Nat) :
    (s.consume c).status.pastEnd = (s.status.pastEnd || past s (s.pos + BitVec.ofNat 32 c).toNat) := rfl

theorem past_congr {s t : State} (hl : t.winLen = s.winLen) (pos : Nat) : past t pos = past s pos := by
  rw [past, past, hl]

/-! ### The DC jump table and its skip (rule R141) -/

@[simp] theorem afterDcSkip_pos (s : State) : s.afterDcSkip.pos = s.pos + BitVec.ofNat 32 s.dcJumpAt.skip.val := by
  simp [State.afterDcSkip]

@[simp] theorem afterDcSkip_pastEnd (s : State) :
    s.afterDcSkip.status.pastEnd = (s.status.pastEnd || past s s.afterDcSkip.pos.toNat) := by
  simp [State.afterDcSkip, past]

theorem afterDcSkip_readable {s : State} (h : Readable s) : Readable s.afterDcSkip :=
  consume_readable (afterRead_readable h s.pos) _

/-- The jump-table entry is that of the 8 stream bits at POS. -/
theorem dcJumpAt_eq {s : State} (h : Readable s) :
    s.dcJumpAt = s.rom.dcJump[streamField s s.pos.toNat 8 % 256]'(Nat.mod_lt _ (by decide)) := by
  simp [State.dcJumpAt, dcEntry, readBits_toNat h]

/-! ### The extra bits and the delta (rules R142 and R144) -/

/-- POS moves by `extra` also when no bits are read, since `extra` is then 0. -/
@[simp] theorem afterDcCode_pos (s : State) :
    s.afterDcCode.pos = s.afterDcSkip.pos + BitVec.ofNat 32 s.dcJumpAt.extra.val := by
  rw [State.afterDcCode]
  split
  next hextra => simp [hextra]
  next => simp

/-- Where no extra bits are read, POS passes the window end after them exactly when it does before them. -/
@[simp] theorem afterDcCode_pastEnd (s : State) :
    s.afterDcCode.status.pastEnd =
      (s.status.pastEnd || past s s.afterDcSkip.pos.toNat || past s s.afterDcCode.pos.toNat) := by
  rw [afterDcCode_pos, State.afterDcCode]
  split
  next hextra => simp [hextra]
  next => simp [past]

theorem afterDcCode_readable {s : State} (h : Readable s) : Readable s.afterDcCode := by
  rw [State.afterDcCode]
  split
  · exact afterDcSkip_readable h
  · exact consume_readable (afterRead_readable (afterDcSkip_readable h) _) _

/-- The delta is the signed value of the `extra` stream bits after the skip. -/
theorem dcDeltaAt_eq {s : State} (h : Readable s) :
    s.dcDeltaAt =
      dcDelta s.dcJumpAt.extra.val (streamField s s.afterDcSkip.pos.toNat s.dcJumpAt.extra.val) := by
  have hextra : s.dcJumpAt.extra.val ≤ 24 := Nat.le_of_lt_succ s.dcJumpAt.extra.isLt
  rw [State.dcDeltaAt, readBits_toNat (afterDcSkip_readable h) _ hextra,
    streamField_congr (afterDcSkip_winOrg s) (afterDcSkip_winLen s) (afterDcSkip_src s)]

/-! ### The fill flag (rule R143) -/

@[simp] theorem testFill_fill (s : State) : s.testFill.status.fill = s.fillFlagAt := by
  rw [State.testFill]
  split
  next hflag => exact hflag.symm
  next hflag => exact (Bool.eq_false_of_not_eq_true hflag).symm

@[simp] theorem testFill_pos (s : State) : s.testFill.pos = if s.fillFlagAt then s.pos + 2 else s.pos := by
  rw [State.testFill]
  split <;> simp

@[simp] theorem testFill_pastEnd (s : State) :
    s.testFill.status.pastEnd = (s.status.pastEnd || (s.fillFlagAt && past s s.testFill.pos.toNat)) := by
  rw [testFill_pos, State.testFill]
  split
  next hflag => simp [hflag, State.setFill, past]
  next hflag => simp [hflag, State.setFill]

/-- The fill flag is set when the two stream bits at POS are 2. -/
theorem fillFlagAt_eq {s : State} (h : Readable s) :
    s.fillFlagAt = decide (streamField s s.pos.toNat 2 = 2) := by
  rw [State.fillFlagAt, ← readBits_toNat h s.pos (by decide)]
  exact decide_eq_decide.2 BitVec.toNat_inj.symm

/-! ### The whole command -/

/-- Only the page, its counters, the DC accumulators, RESULT, POS, FILL and PAST_END differ. -/
def DcFrame (s t : State) : Prop :=
  SameButPage { s with
    dc := t.dc, result := t.result, pos := t.pos
    status := { s.status with fill := t.status.fill, pastEnd := t.status.pastEnd } } t

theorem DcFrame.trans {s t u : State} (hst : DcFrame s t) (htu : DcFrame t u) : DcFrame s u :=
  Eq.trans htu (congrArg (fun v : State => { v with
    dc := u.dc, result := u.result, pos := u.pos
    status := { v.status with fill := u.status.fill, pastEnd := u.status.pastEnd }
    pageValid := u.pageValid, pageBase := u.pageBase, page := u.page, memReads := u.memReads, draws := u.draws }) hst)

/-- The completion writes DONE and BUSY, and no other bit of STATUS (40_control.md rule R92). -/
theorem DcFrame.complete_status {s t : State} (h : DcFrame s t) :
    t.complete.status = { s.status with
      busy := false, done := true, fill := t.status.fill, pastEnd := t.status.pastEnd } :=
  (congrArg (fun u : State => u.complete.status) h :)

theorem DcFrame.complete_sameButPage {s t : State} (h : DcFrame s t) :
    SameButPage { s with dc := t.dc, result := t.result, pos := t.pos, status := t.complete.status } t.complete :=
  (congrArg (fun u : State => { u with status := t.complete.status }) h :)

theorem afterRead_dcFrame (s : State) (off : Word) : DcFrame s (s.afterRead off) := by
  have hread := afterRead_sameButPage s off
  simpa [DcFrame] using hread

theorem consume_dcFrame (s : State) (c : Nat) : DcFrame s (s.consume c) := rfl
theorem setFill_dcFrame (s : State) (b : Bool) : DcFrame s (s.setFill b) := rfl
theorem accumulateDc_dcFrame (s : State) (p : Plane) (delta : Int) : DcFrame s (s.accumulateDc p delta) := rfl

theorem afterDcSkip_dcFrame (s : State) : DcFrame s s.afterDcSkip :=
  (afterRead_dcFrame s s.pos).trans (consume_dcFrame _ _)

theorem afterDcCode_dcFrame (s : State) : DcFrame s s.afterDcCode := by
  rw [State.afterDcCode]
  split
  · exact afterDcSkip_dcFrame s
  · exact (afterDcSkip_dcFrame s).trans ((afterRead_dcFrame _ _).trans (consume_dcFrame _ _))

theorem testFill_dcFrame (s : State) : DcFrame s s.testFill := by
  have hread (b : Bool) : DcFrame s ((s.afterRead s.pos).setFill b) :=
    (afterRead_dcFrame s s.pos).trans (setFill_dcFrame _ b)
  rw [State.testFill]
  split
  · exact (hread true).trans (consume_dcFrame _ 2)
  · exact hread false

/-- DCDEC changes only the page, the DC accumulators, RESULT, POS, FILL and PAST_END (43_plane.md rule R140). -/
theorem dcdec_dcFrame (p : Plane) (s : State) : DcFrame s (dcdec p s) :=
  (afterDcCode_dcFrame s).trans ((accumulateDc_dcFrame _ p _).trans (testFill_dcFrame _))

/-- The accumulator of the plane moves by the delta (43_plane.md rule R144). -/
theorem dcdec_dc_self (p : Plane) (s : State) : (dcdec p s).dc[p] = s.dc[p] + BitVec.ofInt 32 s.dcDeltaAt := by
  simp [dcdec, State.dcOf]

theorem dcdec_result (p : Plane) (s : State) : (dcdec p s).result = BitVec.ofInt 32 s.dcDeltaAt := by
  simp [dcdec]

/-- FILL is the flag read from the two stream bits after the DC code. -/
theorem dcdec_fill {s : State} (h : Readable s) (p : Plane) :
    (dcdec p s).status.fill = decide (streamField s s.afterDcCode.pos.toNat 2 = 2) := by
  rw [dcdec, testFill_fill, fillFlagAt_eq (accumulateDc_readable (afterDcCode_readable h) p _),
    streamField_congr (s := s) (by simp) (by simp) (by simp), accumulateDc_pos]

/-- The flag is consumed only when it reads 2 (43_plane.md rule R143). -/
theorem dcdec_pos (p : Plane) (s : State) :
    (dcdec p s).pos = if (dcdec p s).status.fill then s.afterDcCode.pos + 2 else s.afterDcCode.pos := by
  rw [dcdec, testFill_pos, testFill_fill, accumulateDc_pos]

/-- PAST_END follows the positions consumed: after the skip, after the extra bits, and after a flag that reads 2. -/
theorem dcdec_pastEnd (p : Plane) (s : State) :
    (dcdec p s).status.pastEnd =
      (s.status.pastEnd || past s s.afterDcSkip.pos.toNat || past s s.afterDcCode.pos.toNat ||
        ((dcdec p s).status.fill && past s (dcdec p s).pos.toNat)) := by
  have hwin : (s.afterDcCode.accumulateDc p s.dcDeltaAt).winLen = s.winLen := by simp
  rw [dcdec, testFill_pastEnd, testFill_fill, accumulateDc_status, afterDcCode_pastEnd, past_congr hwin]

theorem exec_dcdec (p : Plane) (s : State) : exec (.dcdec p) s = .next (dcdec p s).complete := rfl

/-- Settles O19: the frame and STATUS come from `dcdec_dcFrame`, the other accumulators from `dcdec_dc_other`; in a
readable state `p1`, `p2` and `p3` are the positions of the model, and each value is the stream field at its position. -/
theorem dcdecAccumulatesDelta : Obligations.DcdecAccumulatesDelta := by
  intro s p
  have hframe : DcFrame s (dcdec p s) := dcdec_dcFrame p s
  refine ⟨(dcdec p s).complete, exec_dcdec p s, hframe.complete_sameButPage, fun q hq => dcdec_dc_other hq s,
    hframe.complete_status, fun h => ?_⟩
  intro e p1 v delta p2 flag p3
  have he : s.dcJumpAt = e := dcJumpAt_eq h
  have hp1 : s.afterDcSkip.pos = p1 := by rw [afterDcSkip_pos, he]
  have hdelta : s.dcDeltaAt = delta := by rw [dcDeltaAt_eq h, he, hp1]; rfl
  have hp2 : s.afterDcCode.pos = p2 := by rw [afterDcCode_pos, he, hp1]
  have hflag : (dcdec p s).status.fill = flag := by rw [dcdec_fill h, hp2]
  have hp3 : (dcdec p s).pos = p3 := by rw [dcdec_pos, hflag, hp2]
  refine ⟨?_, ?_, ?_, hp3, hflag, ?_⟩
  · rw [← readBits_toNat h s.pos (by decide)]
    exact readBits_lt s s.pos (by decide)
  · rw [complete_dc, dcdec_dc_self, hdelta]
  · rw [complete_result, dcdec_result, hdelta]
  · rw [← hp1, ← hp2, ← hp3, ← hflag]
    exact dcdec_pastEnd p s

end Sys2Proof.Machine
end

section
/-! The multiply by √2/2 (44_transform.md rule R162): the exact product and its place in 64 bits, the result as a floor,
and the 64-bit form of the rule. -/

namespace Sys2Proof.Machine

/-! ### The 64-bit product -/

/-- The bounds are strict because the constant is below `2^32` (44_transform.md rule R162, first bullet). -/
theorem sqrtHalfProduct_bounds (k v : Word) :
    -(2 ^ 63 : Int) < v.toInt * k.toNat ∧ v.toInt * k.toNat < (2 ^ 63 : Int) := by
  have hk : k.toNat < 2 ^ 32 := k.isLt
  have hlow : -(2 ^ 31 : Int) * k.toNat ≤ v.toInt * k.toNat :=
    Int.mul_le_mul_of_nonneg_right v.le_toInt (by omega)
  have hhigh : v.toInt * k.toNat ≤ (2 ^ 31 : Int) * k.toNat :=
    Int.mul_le_mul_of_nonneg_right v.toInt_lt.le (by omega)
  constructor <;> omega

/-- The product of the 64-bit words does not wrap. -/
theorem toInt_sqrtHalfProduct (k v : Word) : (v.signExtend 64 * k.setWidth 64).toInt = v.toInt * k.toNat := by
  obtain ⟨hlow, hhigh⟩ := sqrtHalfProduct_bounds k v
  have hk : (k.setWidth 64).toInt = k.toNat := by
    rw [BitVec.toInt_setWidth]
    exact Int.bmod_eq_of_le (by omega) (by omega)
  rw [BitVec.toInt_mul, BitVec.toInt_signExtend_of_le (by decide), hk]
  exact Int.bmod_eq_of_le (by omega) (by omega)

/-! ### The result -/

/-- The quotient fits in a word, so the narrowing of `mulSqrtHalf` loses nothing (44_transform.md rule R162, third
bullet). -/
theorem mulSqrtHalf_toInt (k v : Word) : (mulSqrtHalf k v).toInt = v.toInt * k.toNat / 2 ^ 32 := by
  obtain ⟨hlow, hhigh⟩ := sqrtHalfProduct_bounds k v
  exact BitVec.toInt_ofInt_eq_self (by decide) (by omega) (by omega)

/-- The rule's own form: truncation takes the signed value modulo `2^32`, and the arithmetic shift of the product is its
quotient by `2^32`. -/
theorem mulSqrtHalf_eq_sshiftRight (k v : Word) :
    mulSqrtHalf k v = ((v.signExtend 64 * k.setWidth 64).sshiftRight 32).setWidth 32 := by
  symm
  calc ((v.signExtend 64 * k.setWidth 64).sshiftRight 32).setWidth 32
    _ = BitVec.ofInt 32 ((v.signExtend 64 * k.setWidth 64).sshiftRight 32).toInt :=
      (BitVec.signExtend_eq_setWidth_of_le _ (by decide)).symm
    _ = BitVec.ofInt 32 (v.toInt * k.toNat / 2 ^ 32) := by
      rw [BitVec.toInt_sshiftRight, toInt_sqrtHalfProduct, Int.shiftRight_eq_div_pow]
      rfl
    _ = mulSqrtHalf k v := rfl

/-- Rounding is toward minus infinity: `-k / 2^32` lies strictly between -1 and 0 (44_transform.md rule R162, second
bullet). -/
theorem mulSqrtHalf_neg_one {k : Word} (hk : k ≠ 0) : mulSqrtHalf k (-1) = -1 := by
  have hpos : 0 < k.toNat := by bv_omega
  have hlt : k.toNat < 2 ^ 32 := k.isLt
  have hv : (-1 : Word).toInt = -1 := by decide
  apply BitVec.eq_of_toInt_eq
  rw [mulSqrtHalf_toInt, hv]
  omega

/-- Settles O32: the floor is the integer quotient of `mulSqrtHalf_toInt`, the divisor being positive; the other forms are
the lemmas above. -/
theorem mulSqrtHalfIsFloor : Obligations.MulSqrtHalfIsFloor := by
  intro k v
  have hfloor : (mulSqrtHalf k v).toInt = (v.toInt * k.toNat).fdiv (2 ^ 32) := by
    rw [Int.fdiv_eq_ediv_of_nonneg _ (by decide)]
    exact mulSqrtHalf_toInt k v
  exact ⟨sqrtHalfProduct_bounds k v, hfloor, mulSqrtHalf_eq_sshiftRight k v, mulSqrtHalf_neg_one⟩

end Sys2Proof.Machine
end

section
/-! CCONV (45_block.md rules R175 to R178): the bytes of a packed pixel, the channels and the alpha as numbers, and the
conversion of buffers whose cells all hold values. -/

namespace Sys2Proof.Machine

open Sys2Proof.Spec

/-! ### The packed pixel -/

/-- The bytes of a pixel word are R, G, B, A from the least significant one (45_block.md rule R178). -/
theorem packPixel_bytes (r g b a : Byte) :
    (packPixel r g b a).extractLsb' 0 8 = r ∧ (packPixel r g b a).extractLsb' 8 8 = g ∧
      (packPixel r g b a).extractLsb' 16 8 = b ∧ (packPixel r g b a).extractLsb' 24 8 = a := by
  obtain ⟨ha, hb, hg, hr⟩ := append_bytes a b g r
  exact ⟨hr, hg, hb, ha⟩

/-- A channel as a number: the arithmetic shift is the floor division by `2^16` (45_block.md rule R176). -/
theorem channelByte_toNat (c : Cfg) (ch : Fin 3) (y0 y1 y2 : Word) :
    ((channelByte c ch y0 y1 y2).toNat : Int) =
      min (max ((ccMul c ch 0 y0 + ccMul c ch 1 y1 + ccMul c ch 2 y2 + c.ccBias).toInt.fdiv 65536) 0) 255 := by
  rw [channelByte, clampByte_toNat, BitVec.toInt_sshiftRight, Int.shiftRight_eq_div_pow,
    Int.fdiv_eq_ediv_of_nonneg _ (by decide)]
  rfl

/-- The alpha byte of the sample `y3`, which counts only when CTRL.ALPHA = 1 (45_block.md rule R177). -/
def alphaByte (s : State) (y3 : Word) : Byte := if s.ctrl.alpha then clampByte (alphaConv s.rom y3).toInt else 255

/-- The pixel that CCONV packs from four samples. -/
def pixelWord (s : State) (y0 y1 y2 y3 : Word) : Word :=
  packPixel (channelByte s.rom 0 y0 y1 y2) (channelByte s.rom 1 y0 y1 y2) (channelByte s.rom 2 y0 y1 y2)
    (alphaByte s y3)

/-- The pixels of the samples of four planes. -/
def pixelWords (s : State) (y : Vector (Vector Word 64) 4) : Vector Word 64 :=
  tab fun i => pixelWord s y[0][i] y[1][i] y[2][i] y[3][i]

theorem pixelWords_getElem (s : State) (y : Vector (Vector Word 64) 4) (i : Fin 64) :
    (pixelWords s y)[i] = pixelWord s y[0][i] y[1][i] y[2][i] y[3][i] := getElem_tab_fin _ i

theorem pixelWord_pixelOf (s : State) (y0 y1 y2 y3 : Word) : PixelOf s y0 y1 y2 y3 (pixelWord s y0 y1 y2 y3) := by
  obtain ⟨hr, hg, hb, ha⟩ := packPixel_bytes (channelByte s.rom 0 y0 y1 y2) (channelByte s.rom 1 y0 y1 y2)
    (channelByte s.rom 2 y0 y1 y2) (alphaByte s y3)
  have hchannel (ch : Fin 3) :
      (pixelWord s y0 y1 y2 y3).extractLsb' (8 * ch.val) 8 = channelByte s.rom ch y0 y1 y2 := by
    match ch with
    | 0 => exact hr
    | 1 => exact hg
    | 2 => exact hb
  have halpha : (pixelWord s y0 y1 y2 y3).extractLsb' 24 8 = alphaByte s y3 := ha
  refine ⟨fun ch => ?_, fun hon => ?_, fun hoff => ?_⟩
  · rw [hchannel, channelByte_toNat]
  · rw [halpha, alphaByte, if_pos hon, clampByte_toNat]
  · rw [halpha, alphaByte, hoff, if_neg Bool.false_ne_true]

/-! ### The buffers -/

/-- With CTRL.ALPHA = 0 the cells of PLANE[3] need not hold a value (45_block.md rule R177). -/
theorem alphaBytes_eq {s : State} {y3 : Vector Word 64}
    (h : s.ctrl.alpha = true → ∀ i : Fin 64, s.plane[3][i] = some y3[i]) :
    s.alphaBytes = some (tab fun i => alphaByte s y3[i]) := by
  cases halpha : s.ctrl.alpha with
  | true =>
    have hcells : cellValues s.plane[3] = some y3 := (cellValues_eq_some_iff _ _).2 (h halpha)
    simp [State.alphaBytes, alphaByte, halpha, hcells]
  | false =>
    have hfill : (tab fun i : Fin 64 => alphaByte s y3[i]) = Vector.replicate 64 255 := by
      ext i hi : 1
      simp [alphaByte, halpha]
    rw [hfill, State.alphaBytes, halpha, if_neg Bool.false_ne_true]

/-- CCONV writes PIX and nothing else, when the planes it reads hold values. -/
theorem cconv_eq_ok {s : State} {y : Vector (Vector Word 64) 4}
    (h : ∀ (q : Plane) (i : Fin 64), q ≠ 3 ∨ s.ctrl.alpha = true → s.plane[q][i] = some y[q][i]) :
    cconv s = .ok { s with pix := (pixelWords s y).map some } := by
  have hplane (q : Plane) (hq : q ≠ 3) : cellValues s.plane[q] = some y[q] :=
    (cellValues_eq_some_iff _ _).2 fun i => h q i (.inl hq)
  have h0 : cellValues s.plane[0] = some y[0] := hplane 0 (by decide)
  have h1 : cellValues s.plane[1] = some y[1] := hplane 1 (by decide)
  have h2 : cellValues s.plane[2] = some y[2] := hplane 2 (by decide)
  have halpha := alphaBytes_eq (y3 := y[3]) fun hon i => h 3 i (.inr hon)
  have hpix : (tab fun i => some (pixelWord s y[0][i] y[1][i] y[2][i] y[3][i])) = (pixelWords s y).map some := by
    ext i hi : 1
    simp [pixelWords]
  simp [cconv, h0, h1, h2, halpha, ← hpix, pixelWord]

/-- CCONV completes when the planes it reads hold values. -/
theorem exec_cconv {s : State} {y : Vector (Vector Word 64) 4}
    (h : ∀ (q : Plane) (i : Fin 64), q ≠ 3 ∨ s.ctrl.alpha = true → s.plane[q][i] = some y[q][i]) :
    exec .cconv s = .next (State.complete { s with pix := (pixelWords s y).map some }) :=
  congrArg (·.finish noWrites) (cconv_eq_ok h)

/-- Settles O38: the pixels written are the `pixelWords` of the samples, and each is the pixel of its samples. -/
theorem cconvConvertsPixels : Obligations.CconvConvertsPixels := by
  intro s y h
  refine ⟨_, pixelWords s y, exec_cconv h, rfl, fun i => ?_⟩
  rw [pixelWords_getElem]
  exact pixelWord_pixelOf s _ _ _ _

end Sys2Proof.Machine
end

section
/-! The geometry checks of WRBLK, BLOCK and IMAGE (45_block.md rule R184): what each check tests, and the state the command
leaves when it fails. -/

namespace Sys2Proof.Machine

/-! ### What is tested, and what is reported -/

theorem emptyImage_iff (s : State) : s.emptyImage = true ↔ s.imgW.toNat = 0 ∨ s.imgH.toNat = 0 := by
  simp [State.emptyImage]

theorem tileOutside_iff (s : State) :
    s.tileOutside = true ↔
      (s.imgW.toNat + 7) / 8 ≤ s.blkX.toNat ∨ (s.imgH.toNat + 7) / 8 ≤ s.blkY.toNat := by
  rw [State.tileOutside, Bool.or_eq_true, decide_eq_true_iff, decide_eq_true_iff]
  rfl

theorem geomInfo_of_empty {s : State} (h : s.emptyImage = true) :
    s.geomInfo = s.imgH.setWidth 32 <<< 16 ||| s.imgW.setWidth 32 := if_pos h

theorem geomInfo_of_not_empty {s : State} (h : ¬ s.emptyImage = true) :
    s.geomInfo = 0x80000000#32 ||| s.blkY.setWidth 32 <<< 16 ||| s.blkX.setWidth 32 := if_neg h

/-! ### A check that fails -/

/-- IMG_GEOM is no data error, so taking it clobbers nothing (60_exceptions.md rules R202 and R210). -/
theorem finish_imgGeom (info : Word) (s : State) (w : Writes) :
    (Res.err .imgGeom info s).finish w = .next (s.raise .imgGeom info) := rfl

/-- WRBLK and BLOCK make the same check before their work. -/
theorem withGeometry_finish {s : State} (h : s.emptyImage = true ∨ s.tileOutside = true) (f : State → Res) (w : Writes) :
    (withGeometry f s).finish w = .next (s.raise .imgGeom s.geomInfo) := by
  rw [withGeometry, if_pos (Bool.or_eq_true_iff.2 h), finish_imgGeom]

theorem exec_of_badGeometry {s : State} (h : s.emptyImage = true ∨ s.tileOutside = true) {i : Instr}
    (hi : i = .wrblk ∨ i = .block) : exec i s = .next (s.raise .imgGeom s.geomInfo) := by
  obtain rfl | rfl := hi
  · exact withGeometry_finish h writeTile noWrites
  · exact withGeometry_finish h blockBody (blockWrites s)

/-- IMAGE does not check the tile, which it resets (45_block.md rule R183). -/
theorem exec_image_of_empty {s : State} (h : s.emptyImage = true) :
    exec .image s = .next (s.raise .imgGeom s.geomInfo) := by
  have himage : image s = .err .imgGeom s.geomInfo s := if_pos h
  exact congrArg (·.finish (imageWrites s)) himage

/-- Settles O40: a failed check raises IMG_GEOM in the state before the command, and the two forms of the geometry word go
by whether the image is empty. -/
theorem geometryIsChecked : Obligations.GeometryIsChecked := by
  intro s raised
  refine ⟨fun hzero i hi => ?_, fun hw hh hout i hi => ?_⟩
  · have hempty : s.emptyImage = true := (emptyImage_iff s).2 hzero
    have hraise : exec i s = .next (raised s.geomInfo) := by
      obtain rfl | rfl | rfl := hi
      · exact exec_of_badGeometry (.inl hempty) (.inl rfl)
      · exact exec_of_badGeometry (.inl hempty) (.inr rfl)
      · exact exec_image_of_empty hempty
    rw [hraise, geomInfo_of_empty hempty]
  · have hnonempty : ¬ s.emptyImage = true := fun h => ((emptyImage_iff s).1 h).elim hw hh
    have hraise : exec i s = .next (raised s.geomInfo) :=
      exec_of_badGeometry (.inr ((tileOutside_iff s).2 hout)) hi
    rw [hraise, geomInfo_of_not_empty hnonempty]

end Sys2Proof.Machine
end

section
/-! The exceptions raised before any effect: what taking one records (60_exceptions.md rules R202 to R204), the words the
decoder refuses (30_encoding.md rule R74), and the counts BREAD refuses (rule R75). -/

namespace Sys2Proof.Machine

open Sys2Proof.Spec

/-! ### Taking an error that is no data error -/

/-- Only a data error clobbers registers and buffers (60_exceptions.md rules R202 and R210). -/
theorem takeError_of_not_isData {code : ErrCode} (h : code.isData = false) (s : State) (info : Word) (w : Writes) :
    s.takeError code info w = s.raise code info := by
  rw [State.takeError, h, if_neg Bool.false_ne_true]

/-! ### Illegal command words -/

/-- The shape of the three row decoders: a word is taken only when the row's reserved bits are 0. -/
theorem maskedBits_eq_zero_of_ok {c mask : Word} {i j : Instr} {e : DecodeError}
    (h : (if c &&& mask = 0#32 then Except.ok i else .error e) = .ok j) : c &&& mask = 0#32 := by
  by_contra hmask
  rw [if_neg hmask] at h
  cases h

/-- A word that decodes has an OP of the command set and no reserved bit (30_encoding.md rules R73 and R74). -/
theorem reservedBits_eq_zero_of_decode {c : Word} {i : Instr} (h : decode c = .ok i) :
    fieldOp c < 0x0D ∧ c &&& reservedBits (fieldOp c) = 0 := by
  unfold decode at h
  split at h
  case h_14 => cases h -- an OP without a row
  all_goals
    rename_i hop
    rw [hop]
    exact ⟨by decide, maskedBits_eq_zero_of_ok h⟩

theorem decode_of_illegalWord {c : Word} (h : IllegalWord c) : ∃ e, decode c = .error e := by
  cases hdecode : decode c with
  | error e => exact ⟨e, rfl⟩
  | ok i =>
    obtain ⟨hop, hreserved⟩ := reservedBits_eq_zero_of_decode hdecode
    exact (h.elim (Nat.not_le.2 hop) (· hreserved)).elim

/-- The engine refuses an illegal word at decode (60_exceptions.md rule R203). -/
theorem engineStep_of_illegalWord {s : State} (h : IllegalWord s.cmd) :
    engineStep s = .next (s.raise .illegalCmd s.cmd) := by
  obtain ⟨e, he⟩ := decode_of_illegalWord h
  have hfetch : decode s.fetchWord = .error e := he
  rw [engineStep, hfetch]
  exact congrArg Host.Outcome.next (takeError_of_not_isData rfl s s.cmd noWrites)

/-- Without a STATUS write or an OVR pending, the engine's turn is the engine's step. -/
theorem step_of_engineTurn {s : State} (hturn : s.engineTurn = true) (hw1c : s.lateW1C = 0) (hovr : s.lateOvr = false) :
    step s = engineStep s := by
  rw [step, if_pos hturn, if_pos ⟨hw1c, hovr⟩]

/-- Settles O6: the decoder refuses the word, so the engine's step records the error in the state it found. -/
theorem stepRaisesIllegalCmd : Obligations.StepRaisesIllegalCmd := by
  intro s hturn hillegal hw1c hovr
  rw [step_of_engineTurn hturn hw1c hovr, engineStep_of_illegalWord hillegal]
  rfl

/-! ### BREAD -/

theorem legalCount_eq_false {n : Nat} (h : n = 0 ∨ 24 < n) : legalCount n = false := by
  simp only [legalCount, Bool.and_eq_false_iff, decide_eq_false_iff_not]
  omega

theorem bread_of_badCount {n : Nat} (h : n = 0 ∨ 24 < n) (s : State) : bread n s = .err .badField s.cmd s := by
  rw [bread, legalCount_eq_false h, if_neg Bool.false_ne_true]

/-- Settles O18: the count is refused before the read, and BAD_FIELD is recorded in the state before the command. -/
theorem breadRejectsBadCount : Obligations.BreadRejectsBadCount := by
  intro s n hn
  calc exec (.bread n) s
    _ = (Res.err .badField s.cmd s).finish noWrites := congrArg (·.finish noWrites) (bread_of_badCount hn s)
    _ = .next (s.raise .badField s.cmd) := congrArg Host.Outcome.next (takeError_of_not_isData rfl s s.cmd noWrites)

end Sys2Proof.Machine
end

section
/-! Reads of cells that hold no value (60_exceptions.md rule R212): each unit faults at its own buffer, and a port read
returns some word. -/

namespace Sys2Proof.Machine

open Sys2Proof.Spec

/-! ### The transform -/

theorem idctr_of_missing {s : State} {i : Fin 64} (h : s.coef[i] = none) : idctr s = .fault .coefNoValue s := by
  rw [idctr, cellValues_eq_none_of_cell h]

/-- Cell `8c + j` of the cells that IDCTC reads (44_transform.md rule R164). -/
theorem columnCells_getElem (t : Cells 72) (c j : Fin 8) :
    (columnCells t)[8 * c.val + j.val] = t[c.val + 9 * j.val] := by
  have hcol : (8 * c.val + j.val) / 8 = c.val := by omega
  have hrow : (8 * c.val + j.val) % 8 = j.val := by omega
  simp only [columnCells, getElem_tab, hcol, hrow]

theorem idctc_of_missing {s : State} {c j : Fin 8} (h : s.tmp[c.val + 9 * j.val] = none) (p : Plane) :
    idctc p s = .fault .tmpNoValue s := by
  have hcell : (columnCells s.tmp)[(⟨8 * c.val + j.val, by omega⟩ : Fin 64)] = none :=
    (columnCells_getElem s.tmp c j).trans h
  rw [idctc, cellValues_eq_none_of_cell hcell]

/-! ### Colour conversion -/

/-- With CTRL.ALPHA = 1 the alpha samples are cells of PLANE[3] (45_block.md rule R177). -/
theorem alphaBytes_eq_none {s : State} {i : Fin 64} (hon : s.ctrl.alpha = true) (h : s.plane[3][i] = none) :
    s.alphaBytes = none := by
  rw [State.alphaBytes, if_pos hon, cellValues_eq_none_of_cell h, Option.map_none]

/-- CCONV faults as soon as one of its four reads does. -/
theorem cconv_of_failedRead {s : State} (h : cellValues s.plane[0] = none ∨ cellValues s.plane[1] = none ∨
    cellValues s.plane[2] = none ∨ s.alphaBytes = none) : cconv s = .fault .planeNoValue s := by
  unfold cconv
  split
  next h0 h1 h2 ha => simp [h0, h1, h2, ha] at h
  next => rfl

theorem cconv_of_missing {s : State} {q : Plane} {i : Fin 64} (hq : q ≠ 3 ∨ s.ctrl.alpha = true)
    (h : s.plane[q][i] = none) : cconv s = .fault .planeNoValue s := by
  apply cconv_of_failedRead
  match q with
  | 0 => exact .inl (cellValues_eq_none_of_cell h)
  | 1 => exact .inr (.inl (cellValues_eq_none_of_cell h))
  | 2 => exact .inr (.inr (.inl (cellValues_eq_none_of_cell h)))
  | 3 => exact .inr (.inr (.inr (alphaBytes_eq_none (hq.resolve_left (absurd rfl)) h)))

/-! ### The tile -/

theorem mem_tilePixels (i : Fin 64) : i ∈ tilePixels := by
  simp [tilePixels, tab_eq_ofFn]

/-- A store to the destination moves neither the tile nor the image. -/
@[simp] theorem memWrite_pixelInside (s : State) (a v : Word) (i : Fin 64) :
    (s.memWrite a v).pixelInside i = s.pixelInside i := by
  rw [State.pixelInside, State.pixelX, State.pixelY, memWrite_imgW, memWrite_imgH, memWrite_blkX, memWrite_blkY]
  rfl

/-- The pixels before the missing one are stored, or one of them is missing too; a clipped one is not read
(45_block.md rule R180). -/
theorem writePixels_of_missing {i : Fin 64} {l : List (Fin 64)} {s : State} (hmem : i ∈ l)
    (hin : s.pixelInside i = true) (h : s.pix[i] = none) : ∃ t, writePixels l s = .fault .pixNoValue t := by
  induction l generalizing s with
  | nil => cases hmem
  | cons j rest ih =>
    unfold writePixels
    split
    next hj =>
      split
      next => exact ⟨s, rfl⟩
      next v hv =>
        have hne : i ≠ j := fun hij => by rw [← hij, h] at hv; cases hv
        exact ih (List.mem_of_ne_of_mem hne hmem) (by simpa using hin) (by simpa using h)
    next hj =>
      have hne : i ≠ j := fun hij => hj (hij ▸ hin)
      exact ih (List.mem_of_ne_of_mem hne hmem) hin h

/-- The geometry check of WRBLK and BLOCK passes for a tile in the image (45_block.md rule R184). -/
theorem withGeometry_of_tileInImage {s : State} (h : TileInImage s) (f : State → Res) : withGeometry f s = f s := by
  obtain ⟨hw, hh, hx, hy⟩ := h
  have hcheck : ¬ (s.emptyImage || s.tileOutside) = true := by
    rw [Bool.or_eq_true, emptyImage_iff, tileOutside_iff]
    omega
  rw [withGeometry, if_neg hcheck]

theorem wrblk_of_missing {s : State} (hs : TileInImage s) {i : Fin 64} (hin : s.pixelInside i = true)
    (h : s.pix[i] = none) : ∃ t, wrblk s = .fault .pixNoValue t := by
  obtain ⟨t, ht⟩ := writePixels_of_missing (mem_tilePixels i) hin h
  refine ⟨t, ?_⟩
  rw [wrblk, withGeometry_of_tileInImage hs, writeTile, ht]
  rfl

/-- Settles O37: each unit's work faults at the missing cell, and a fault ends the command with no next state; a port read
is one state update whatever the cell holds. -/
theorem missingValueFaults : Obligations.MissingValueFaults := by
  refine ⟨fun s hcell => ?_, fun s p hcell => ?_, fun s hcell => ?_, fun s hs hcell => ?_, fun s r => ⟨_, rfl⟩⟩
  · obtain ⟨i, h⟩ := hcell
    exact congrArg (·.finish noWrites) (idctr_of_missing h)
  · obtain ⟨c, j, h⟩ := hcell
    exact congrArg (·.finish noWrites) (idctc_of_missing h p)
  · obtain ⟨q, i, hq, h⟩ := hcell
    exact congrArg (·.finish noWrites) (cconv_of_missing hq h)
  · obtain ⟨i, hin, h⟩ := hcell
    obtain ⟨t, ht⟩ := wrblk_of_missing hs hin h
    exact congrArg (·.finish noWrites) ht

end Sys2Proof.Machine
end

section
/-! The interrupt output (60_exceptions.md rule R211): when it is high, and what each way to lower it does to DONE and
ERR. -/

namespace Sys2Proof.Machine

theorem irq_iff (s : State) : s.irq = true ↔ s.ctrl.ie = true ∧ (s.status.done = true ∨ s.status.err = true) := by
  simp [State.irq]

theorem irq_eq_false {s : State} (hdone : s.status.done = false) (herr : s.status.err = false) : s.irq = false := by
  simp [State.irq, hdone, herr]

/-- The W1C bits act now, whether the core is idle or BUSY (10_state.md rule R23, 40_control.md rule R95). -/
theorem portWrite_status_status (s : State) (v : Word) : (s.portWrite .status v).status = s.status.w1c v := by
  unfold State.portWrite
  split <;> rfl

/-- A pending bit that is written with 1 is no longer pending. -/
theorem and_not_eq_false {pending written : Bool} (h : pending = true → written = true) :
    (pending && !written) = false := by
  cases pending with
  | false => rfl
  | true => rw [h rfl]; rfl

/-- An idle core without an error accepts every command word (40_control.md rule R92). -/
theorem portWrite_cmd_status {s : State} (hbusy : s.status.busy = false) (herr : s.status.err = false) (c : Word) :
    (s.portWrite .cmd c).status = { s.status with done := false, busy := true } := by
  have hidle : s.portWrite .cmd c = s.acceptCmd c := by rw [State.portWrite, hbusy, if_neg Bool.false_ne_true]; rfl
  rw [hidle, State.acceptCmd, herr, Bool.false_and, if_neg Bool.false_ne_true]

theorem exec_srst (s : State) : exec .srst s = .next s.sessionReset.complete := rfl

/-- Settles O55: each way to lower IRQ leaves DONE and ERR at 0, but for SRST, whose completion raises DONE. -/
theorem irqFollowsStatus : Obligations.IrqFollowsStatus := by
  refine ⟨irq_iff, fun s v hdone herr => ?_, fun s c hbusy herr => ?_, fun s t h => ?_, rfl⟩
  · apply irq_eq_false <;> rw [portWrite_status_status]
    · exact and_not_eq_false hdone
    · exact and_not_eq_false herr
  · apply irq_eq_false <;> rw [portWrite_cmd_status hbusy herr]
    exact herr
  · rw [exec_srst] at h
    cases h
    exact ⟨rfl, Bool.and_true s.ctrl.ie⟩

end Sys2Proof.Machine
end

section
/-! The configuration behaves as ROM (10_state.md rule R40, 70_reset_and_hazards.md rule R242): the work of every
command, every port access and the reset input leave it, and so does every step. -/

namespace Sys2Proof.Machine

/-! ### The work of the commands -/

/-- A sequence leaves the configuration if its first part has left it and its second part always does. -/
theorem bind_rom {r : Res} {f : State → Res} {c : Cfg} (hr : r.state.rom = c) (hf : ∀ s, (f s).state.rom = s.rom) :
    (r.bind f).state.rom = c :=
  bind_state_of (P := fun u => u.rom = c) hr fun s _ hs => (hf s).trans hs

theorem bread_rom (n : Nat) (s : State) : (bread n s).state.rom = s.rom := by
  unfold bread
  split
  · exact afterRead_rom s s.arg0
  · rfl

/-- The frame of a plane does not forget the configuration. -/
theorem rom_of_forgetPlane {s t : State} (h : forgetPlane s = forgetPlane t) : s.rom = t.rom :=
  (congrArg State.rom h :)

theorem dcdec_rom (p : Plane) (s : State) : (dcdec p s).rom = s.rom :=
  rom_of_forgetPlane (dcdec_forgetPlane p s)

theorem fillPlane_rom (p : Plane) (s : State) : (fillPlane p s).rom = s.rom := rfl

theorem entdec_rom (p : Plane) (s : State) : (entdec p s).state.rom = s.rom :=
  rom_of_forgetPlane (forgetPlane_of_forgetDecode (entdec_forgetDecode p s))

theorem idctr_rom (s : State) : (idctr s).state.rom = s.rom :=
  rom_of_forgetPlane (idctr_forgetPlane s)

theorem idctc_rom (p : Plane) (s : State) : (idctc p s).state.rom = s.rom :=
  rom_of_forgetPlane (idctc_forgetPlane p s)

theorem plane_rom (p : Plane) (s : State) : (plane p s).state.rom = s.rom :=
  rom_of_forgetPlane (plane_forgetPlane p s)

theorem cconv_rom (s : State) : (cconv s).state.rom = s.rom := by
  unfold cconv
  split <;> rfl

theorem writePixels_rom (l : List (Fin 64)) (s : State) : (writePixels l s).state.rom = s.rom := by
  induction l generalizing s with
  | nil => rfl
  | cons i rest ih =>
    unfold writePixels
    split
    · split
      · rfl
      · exact (ih _).trans (memWrite_rom s _ _)
    · exact ih s

theorem writeTile_rom (s : State) : (writeTile s).state.rom = s.rom :=
  bind_rom (writePixels_rom tilePixels s) advanceTile_rom

theorem withGeometry_rom {f : State → Res} {s : State} (hf : (f s).state.rom = s.rom) :
    (withGeometry f s).state.rom = s.rom := by
  unfold withGeometry
  split
  · rfl
  · exact hf

theorem alphaPlane_rom (s : State) : (alphaPlane s).state.rom = s.rom := by
  unfold alphaPlane
  split
  · exact plane_rom 3 s
  · rfl

theorem blockBody_rom (s : State) : (blockBody s).state.rom = s.rom := by
  have hcolour := bind_rom (bind_rom (plane_rom 0 s) (plane_rom 1)) (plane_rom 2)
  have hplanes := bind_rom hcolour alphaPlane_rom
  exact bind_rom (bind_rom hplanes cconv_rom) writeTile_rom

theorem blocks_rom (n : Nat) (s : State) : (blocks n s).state.rom = s.rom := by
  induction n generalizing s with
  | zero => rfl
  | succ n ih => exact bind_rom (blockBody_rom s) ih

theorem image_rom (s : State) : (image s).state.rom = s.rom := by
  unfold image
  split
  · rfl
  · exact blocks_rom _ s.startImage

/-! ### The engine's step -/

/-- Completing a command and taking an error keep the configuration that the work has reached. -/
theorem finish_rom {r : Res} {w : Writes} {s t : State} (hr : r.state.rom = s.rom) (h : r.finish w = .next t) :
    t.rom = s.rom := by
  obtain ⟨u, rfl, rfl⟩ | ⟨code, info, u, rfl, rfl⟩ := finish_eq_next_iff.1 h
  · exact hr
  · exact (takeError_rom u code info w).trans hr

theorem exec_rom {i : Instr} {s t : State} (h : exec i s = .next t) : t.rom = s.rom := by
  cases i with
  | nop => cases h; rfl
  | srst => cases h; exact sessionReset_rom s
  | bread n => exact finish_rom (bread_rom n s) h
  | dcdec p => cases h; exact dcdec_rom p s
  | fill p => cases h; exact fillPlane_rom p s
  | entdec p => exact finish_rom (entdec_rom p s) h
  | idctr => exact finish_rom (idctr_rom s) h
  | idctc p => exact finish_rom (idctc_rom p s) h
  | plane p => exact finish_rom (plane_rom p s) h
  | cconv => exact finish_rom (cconv_rom s) h
  | wrblk => exact finish_rom (withGeometry_rom (writeTile_rom s)) h
  | block => exact finish_rom (withGeometry_rom (blockBody_rom s)) h
  | image => exact finish_rom (image_rom s) h

theorem engineStep_rom {s t : State} (h : engineStep s = .next t) : t.rom = s.rom := by
  unfold engineStep at h
  split at h
  · exact exec_rom h
  · cases h
    exact takeError_rom s _ _ _

/-- Late STATUS writes settle in the state that the engine's step has answered (40_control.md rule R95). -/
theorem settleOutcome_eq_next {o : Host.Outcome State Fault Refusal} {t : State} (h : settleOutcome o = .next t) :
    ∃ u, o = .next u ∧ t = u.settle := by
  cases o with
  | next u => cases h; exact ⟨u, rfl, rfl⟩
  | fault f => cases h
  | refused r => cases h

/-! ### Host actions -/

theorem writeReg_rom (s : State) (v : Word) (r : PortReg) : (s.writeReg v r).rom = s.rom := by
  cases r with
  | cmd => exact acceptCmd_rom s v
  | _ => rfl

theorem portWrite_rom (s : State) (r : PortReg) (v : Word) : (s.portWrite r v).rom = s.rom := by
  unfold State.portWrite
  split
  · split <;> rfl
  · exact writeReg_rom s v r

theorem portRead_rom (s : State) (r : PortReg) : (s.portRead r).rom = s.rom := rfl

/-- The reset input is the one action that starts from the reset state, and it takes the configuration over
(70_reset_and_hazards.md rule R227). -/
theorem assertReset_rom (s : State) : s.assertReset.rom = s.rom := rfl

/-- A port access that is not refused is ignored in reset or is aligned (20_memory.md rule R69,
70_reset_and_hazards.md rule R225). -/
theorem hostStep_rom {op : HostOp} {s t : State} (h : hostStep op s = .next t) : t.rom = s.rom := by
  match op with
  | .write off bytes v =>
    simp only [hostStep] at h
    split at h
    · cases h; rfl
    · split at h
      · cases h; exact portWrite_rom s _ v
      · cases h
  | .read off bytes =>
    simp only [hostStep] at h
    split at h
    · cases h; rfl
    · split at h
      · cases h; exact portRead_rom s _
      · cases h
  | .srcWrite a v => cases h; exact hostSrcWrite_rom s a v
  | .reset true => cases h; exact assertReset_rom s
  | .reset false => cases h; rfl

/-- Settles O46: whichever of the engine, the waiting core and the host moves, the configuration stays. -/
theorem configurationNeverChanges : Obligations.ConfigurationNeverChanges := by
  intro s t h
  obtain ⟨_, hengine | hsettle⟩ | ⟨_, _, hidle⟩ | ⟨_, i, rest, _, hhost⟩ := step_cases s
  · exact engineStep_rom (hengine ▸ h)
  · obtain ⟨u, hu, rfl⟩ := settleOutcome_eq_next (hsettle ▸ h)
    exact (settle_rom u).trans (engineStep_rom hu)
  · cases hidle ▸ h
    rfl
  · exact hostStep_rom (s := { s with inputs := rest }) (hhost ▸ h)

end Sys2Proof.Machine
end

section
/-! Command words (30_encoding.md rules R70 to R74): the fields of an encoded word, the word that its fields make, and the
words that the decoder refuses. Fields and reserved bits are read as numbers, so that the rows of the table are linear
arithmetic. -/

namespace Sys2Proof

open Sys2Proof.Machine Sys2Proof.Spec

/-! ### Fields and reserved bits as numbers -/

theorem fieldOp_eq (c : Word) : fieldOp c = c.toNat % 256 := by
  simp [fieldOp, BitVec.extractLsb'_toNat]

theorem fieldN_eq (c : Word) : fieldN c = c.toNat / 256 % 32 := by
  simp [fieldN, BitVec.extractLsb'_toNat, Nat.shiftRight_eq_div_pow]

theorem fieldP_val (c : Word) : (fieldP c).val = c.toNat / 65536 % 4 := by
  simp [fieldP, Nat.shiftRight_eq_div_pow]

/-- A row without operands leaves bits [31:8] reserved (30_encoding.md rule R73). -/
theorem plainMask_iff (c : Word) : c &&& 0xFFFFFF00#32 = 0#32 ↔ c.toNat < 256 := by
  have h : c &&& 0xFFFFFF00#32 = c >>> 8 <<< 8 := by
    ext i hi
    interval_cases i <;> simp
  rw [h]
  bv_omega

/-- The row of BREAD leaves bits [31:13] reserved. -/
theorem countMask_iff (c : Word) : c &&& 0xFFFFE000#32 = 0#32 ↔ c.toNat < 8192 := by
  have h : c &&& 0xFFFFE000#32 = c >>> 13 <<< 13 := by
    ext i hi
    interval_cases i <;> simp
  rw [h]
  bv_omega

/-- A row with field P leaves bits [31:18] and [15:8] reserved. -/
theorem planeMask_iff (c : Word) :
    c &&& 0xFFFCFF00#32 = 0#32 ↔ c.toNat / 256 % 256 = 0 ∧ c.toNat < 262144 := by
  have h : c &&& 0xFFFCFF00#32 = c >>> 18 <<< 18 ||| c <<< 16 >>> 24 <<< 8 := by
    ext i hi
    interval_cases i <;> simp
  rw [h, BitVec.or_eq_zero_iff]
  bv_omega

/-- The fields of an encoded word do not overlap (30_encoding.md rules R70 to R72). -/
theorem commandWord_toNat {op n : Nat} (hop : op < 256) (hn : n < 32) (p : Plane) :
    (commandWord op n p).toNat = op + 256 * n + 65536 * p.val := by
  have hlow : op ||| n <<< 8 = op + 256 * n := by
    rw [Nat.or_comm, ← Nat.shiftLeft_add_eq_or_of_lt (by omega), Nat.shiftLeft_eq]
    omega
  have hall : op + 256 * n ||| p.val <<< 16 = op + 256 * n + 65536 * p.val := by
    rw [Nat.or_comm, ← Nat.shiftLeft_add_eq_or_of_lt (by omega), Nat.shiftLeft_eq]
    omega
  have hop' : (BitVec.ofNat 32 op).toNat = op := by rw [BitVec.toNat_ofNat]; omega
  have hn' : (BitVec.ofNat 32 n <<< 8).toNat = n <<< 8 := by
    rw [BitVec.toNat_shiftLeft, BitVec.toNat_ofNat, Nat.shiftLeft_eq, Nat.shiftLeft_eq]
    omega
  have hp' : (BitVec.ofNat 32 p.val <<< 16).toNat = p.val <<< 16 := by
    rw [BitVec.toNat_shiftLeft, BitVec.toNat_ofNat, Nat.shiftLeft_eq, Nat.shiftLeft_eq]
    omega
  rw [commandWord, BitVec.toNat_or, BitVec.toNat_or, hop', hn', hp', hlow, hall]

/-! ### Decoding an encoded word -/

theorem fieldOp_commandWord {op n : Nat} (hop : op < 256) (hn : n < 32) (p : Plane) :
    fieldOp (commandWord op n p) = op := by
  rw [fieldOp_eq, commandWord_toNat hop hn]
  omega

theorem decodePlain_commandWord {op : Nat} (hop : op < 256) (i : Instr) :
    decodePlain (commandWord op 0 0) i = .ok i := by
  refine if_pos ((plainMask_iff _).2 ?_)
  rw [commandWord_toNat hop (by decide)]
  simpa using hop

theorem decodeN_commandWord {op n : Nat} (hop : op < 256) (hn : n < 32) (f : Nat → Instr) :
    decodeN (commandWord op n 0) f = .ok (f n) := by
  have hw := commandWord_toNat hop hn 0
  have hfield : fieldN (commandWord op n 0) = n := by rw [fieldN_eq, hw]; simp; omega
  rw [decodeN, if_pos ((countMask_iff _).2 (by rw [hw]; simp; omega)), hfield]

theorem decodeP_commandWord {op : Nat} (hop : op < 256) (p : Plane) (f : Plane → Instr) :
    decodeP (commandWord op 0 p) f = .ok (f p) := by
  have hw := commandWord_toNat hop (Nat.zero_lt_succ 31) p
  have hfield : fieldP (commandWord op 0 p) = p := Fin.ext (by rw [fieldP_val, hw]; omega)
  rw [decodeP, if_pos ((planeMask_iff _).2 (by rw [hw]; omega)), hfield]

/-! ### Encoding a decoded word -/

theorem decodePlain_eq_ok {c : Word} {op : Nat} (hop : fieldOp c = op) {i j : Instr} (h : decodePlain c j = .ok i) :
    j = i ∧ commandWord op 0 0 = c := by
  have hmask := (plainMask_iff c).1 (maskedBits_eq_zero_of_ok h)
  rw [decodePlain, if_pos ((plainMask_iff c).2 hmask)] at h
  rw [fieldOp_eq] at hop
  refine ⟨Except.ok.inj h, BitVec.eq_of_toNat_eq ?_⟩
  rw [commandWord_toNat (by omega) (by decide)]
  simp only [Fin.val_zero]
  omega

theorem decodeN_eq_ok {c : Word} {op : Nat} (hop : fieldOp c = op) {i : Instr} {f : Nat → Instr}
    (h : decodeN c f = .ok i) : f (fieldN c) = i ∧ fieldN c < 32 ∧ commandWord op (fieldN c) 0 = c := by
  have hmask := (countMask_iff c).1 (maskedBits_eq_zero_of_ok h)
  rw [decodeN, if_pos ((countMask_iff c).2 hmask)] at h
  have hn : fieldN c < 32 := by rw [fieldN_eq]; omega
  rw [fieldOp_eq] at hop
  refine ⟨Except.ok.inj h, hn, BitVec.eq_of_toNat_eq ?_⟩
  rw [commandWord_toNat (by omega) hn, fieldN_eq]
  simp only [Fin.val_zero]
  omega

theorem decodeP_eq_ok {c : Word} {op : Nat} (hop : fieldOp c = op) {i : Instr} {f : Plane → Instr}
    (h : decodeP c f = .ok i) : f (fieldP c) = i ∧ commandWord op 0 (fieldP c) = c := by
  have hmask := (planeMask_iff c).1 (maskedBits_eq_zero_of_ok h)
  rw [decodeP, if_pos ((planeMask_iff c).2 hmask)] at h
  rw [fieldOp_eq] at hop
  refine ⟨Except.ok.inj h, BitVec.eq_of_toNat_eq ?_⟩
  rw [commandWord_toNat (by omega) (by decide), fieldP_val]
  omega

/-! ### The obligations -/

/-- Settles O2: OP selects the row of the command, and the row's decoder gives the operand back. -/
theorem decodeEncodeRoundTrip : Obligations.DecodeEncodeRoundTrip := by
  intro i hi
  cases i with
  | bread n =>
    have hn : n < 32 := of_decide_eq_true hi
    rw [encode, decode, fieldOp_commandWord (by decide) hn]
    exact decodeN_commandWord (by decide) hn .bread
  | dcdec p | fill p | entdec p | idctc p | plane p =>
    rw [encode, decode, fieldOp_commandWord (by decide) (by decide)]
    exact decodeP_commandWord (by decide) p _
  | nop | srst | idctr | cconv | wrblk | block | image =>
    rw [encode, decode, fieldOp_commandWord (by decide) (by decide)]
    exact decodePlain_commandWord (by decide) _

/-- Settles O3: the reserved bits of a row are 0, so OP and the row's operand make up the whole word. -/
theorem encodeDecodeRoundTrip : Obligations.EncodeDecodeRoundTrip := by
  intro c i h
  unfold decode at h
  split at h
  case h_3 hop =>
    obtain ⟨rfl, hn, hword⟩ := decodeN_eq_ok hop h
    exact ⟨decide_eq_true hn, hword⟩
  case h_4 hop | h_5 hop | h_6 hop | h_8 hop | h_9 hop =>
    obtain ⟨rfl, hword⟩ := decodeP_eq_ok hop h
    exact ⟨rfl, hword⟩
  case h_14 => cases h -- an OP without a row
  all_goals
    rename_i hop
    obtain ⟨rfl, hword⟩ := decodePlain_eq_ok hop h
    exact ⟨rfl, hword⟩

/-- A row's decoder refuses a word only for a reserved bit (30_encoding.md rule R74). -/
theorem maskedBits_ne_zero_of_error {c mask : Word} {i : Instr} {e e' : DecodeError}
    (h : (if c &&& mask = 0#32 then Except.ok i else .error e) = .error e') : c &&& mask ≠ 0#32 := by
  intro hmask
  rw [if_pos hmask] at h
  cases h

/-- Settles O4: a refused word has an OP without a row, or it fails the mask of its row. -/
theorem illegalWordsAreRefused : Obligations.IllegalWordsAreRefused := by
  refine fun c => ⟨fun ⟨e, h⟩ => ?_, decode_of_illegalWord⟩
  change 0x0D ≤ fieldOp c ∨ c &&& reservedBits (fieldOp c) ≠ 0
  unfold decode at h
  split at h
  case h_14 =>
    simp only [imp_false] at *
    exact .inl (by omega)
  all_goals
    rename_i hop
    rw [hop]
    exact .inr (maskedBits_ne_zero_of_error h)

/-- Settles O1: closed words, by evaluation. -/
theorem decodeSpecWords : Obligations.DecodeSpecWords := by
  unfold Obligations.DecodeSpecWords
  decide

end Sys2Proof
end

section
/-! The work of a command, said once for all commands: what `exec` runs, the small steps that the work is made of, and what
such steps leave alone. Every invariant of a command follows from its three kinds of step. -/

namespace Sys2Proof.Machine

open Sys2Proof.Spec

/-! ### The work and its end -/

/-- The work of a command, up to its completion or its error (40_control.md rule R92). -/
def commandWork (i : Instr) (s : State) : Res :=
  match i with
  | .nop => .ok s
  | .srst => .ok s.sessionReset
  | .bread n => bread n s
  | .dcdec p => .ok (dcdec p s)
  | .fill p => .ok (fillPlane p s)
  | .entdec p => entdec p s
  | .idctr => idctr s
  | .idctc p => idctc p s
  | .plane p => plane p s
  | .cconv => cconv s
  | .wrblk => wrblk s
  | .block => block s
  | .image => image s

/-- What a command could write when a data error stops it (60_exceptions.md rule R210). -/
def commandWrites (i : Instr) (s : State) : Writes :=
  match i with
  | .plane p => planeWrites p
  | .block => blockWrites s
  | .image => imageWrites s
  | _ => noWrites

theorem exec_eq_finish (i : Instr) (s : State) : exec i s = (commandWork i s).finish (commandWrites i s) := by
  cases i <;> rfl

/-- A command that answers a next state has done its work, or its work raised an error. -/
theorem exec_eq_next_iff {i : Instr} {s t : State} :
    exec i s = .next t ↔
      (∃ u, commandWork i s = .ok u ∧ t = u.complete) ∨
        (∃ code info u, commandWork i s = .err code info u ∧ t = u.takeError code info (commandWrites i s)) := by
  rw [exec_eq_finish]
  exact finish_eq_next_iff

/-- The state in which the work of a command begins: SRST and IMAGE reset some registers first (40_control.md rule R91,
45_block.md rule R183). -/
def workStart (i : Instr) (s : State) : State :=
  match i with
  | .srst => s.sessionReset
  | .image => if s.emptyImage then s else s.startImage
  | _ => s

/-! ### The steps of the work -/

/-- Only registers and buffers that commands write change, and PAST_END does not fall (20_memory.md rule R55). -/
structure SetsRegisters (s t : State) : Prop where
  frame : t = { s with
    pos := t.pos, result := t.result, dc := t.dc, coef := t.coef, tmp := t.tmp, plane := t.plane, pix := t.pix
    blkX := t.blkX, blkY := t.blkY
    status := { s.status with fill := t.status.fill, pastEnd := t.status.pastEnd } }
  pastEnd : s.status.pastEnd = true → t.status.pastEnd = true

/-- One step of the work of a command: a read of the stream, the store of a pixel inside the image, or a change of
registers and buffers. -/
inductive WorkStep : State → State → Prop where
  | read (s : State) (off : Word) : WorkStep s (s.afterRead off)
  | store {s : State} {i : Fin 64} (v : Word) (h : s.pixelInside i = true) :
      WorkStep s (s.memWrite (s.pixelAddr i) v)
  | registers {s t : State} (h : SetsRegisters s t) : WorkStep s t

/-- Any number of steps. -/
abbrev WorkSteps : State → State → Prop := Relation.ReflTransGen WorkStep

theorem WorkSteps.refl {s : State} : WorkSteps s s := Relation.ReflTransGen.refl

theorem SetsRegisters.steps {s t : State} (h : SetsRegisters s t) : WorkSteps s t := .single (.registers h)

theorem bind_steps {s : State} {r : Res} {f : State → Res} (hr : WorkSteps s r.state)
    (hf : ∀ u, WorkSteps u (f u).state) : WorkSteps s (r.bind f).state :=
  bind_state_of (P := WorkSteps s) hr fun u _ hu => hu.trans (hf u)

theorem afterRead_steps (s : State) (off : Word) : WorkSteps s (s.afterRead off) := .single (.read s off)

theorem consume_steps (s : State) (c : Nat) : WorkSteps s (s.consume c) :=
  SetsRegisters.steps ⟨rfl, fun h => Bool.or_eq_true_iff.2 (.inl h)⟩

theorem afterRead_consume_steps (s : State) (off : Word) (c : Nat) : WorkSteps s ((s.afterRead off).consume c) :=
  (afterRead_steps s off).trans (consume_steps _ c)

theorem setFill_steps (s : State) (b : Bool) : WorkSteps s (s.setFill b) := SetsRegisters.steps ⟨rfl, id⟩

theorem accumulateDc_steps (s : State) (p : Plane) (delta : Int) : WorkSteps s (s.accumulateDc p delta) :=
  SetsRegisters.steps ⟨rfl, id⟩

theorem setPlane_steps (s : State) (p : Plane) (b : Cells 64) : WorkSteps s (s.setPlane p b) :=
  SetsRegisters.steps ⟨rfl, id⟩

theorem setCoef_steps (s : State) (i : Fin 64) (v : Word) : WorkSteps s (s.setCoef i v) := SetsRegisters.steps ⟨rfl, id⟩

theorem initCoef_steps (s : State) (p : Plane) : WorkSteps s (s.initCoef p) := SetsRegisters.steps ⟨rfl, id⟩

theorem advanceTile_steps (s : State) : WorkSteps s s.advanceTile := by
  unfold State.advanceTile
  split
  · exact SetsRegisters.steps ⟨rfl, id⟩
  · exact SetsRegisters.steps ⟨rfl, id⟩

/-! ### Each unit's work is such steps -/

theorem bread_steps (n : Nat) (s : State) : WorkSteps s (bread n s).state := by
  unfold bread
  split
  · exact (afterRead_steps s s.arg0).trans (SetsRegisters.steps ⟨rfl, fun h => Bool.or_eq_true_iff.2 (.inl h)⟩)
  · exact .refl

theorem afterDcCode_steps (s : State) : WorkSteps s s.afterDcCode := by
  have hskip : WorkSteps s s.afterDcSkip := afterRead_consume_steps s s.pos _
  unfold State.afterDcCode
  split
  · exact hskip
  · exact hskip.trans (afterRead_consume_steps _ _ _)

theorem testFill_steps (s : State) : WorkSteps s s.testFill := by
  have hread (b : Bool) : WorkSteps s ((s.afterRead s.pos).setFill b) :=
    (afterRead_steps s s.pos).trans (setFill_steps _ b)
  unfold State.testFill
  split
  · exact (hread true).trans (consume_steps _ 2)
  · exact hread false

theorem dcdec_steps (p : Plane) (s : State) : WorkSteps s (dcdec p s) :=
  (afterDcCode_steps s).trans ((accumulateDc_steps _ p _).trans (testFill_steps _))

theorem storeAc_steps (start : Word) (k : Int) (run : Nat) (val : Int) (s : State) :
    WorkSteps s (storeAc start k run val s).state := by
  unfold storeAc
  split
  · exact .refl
  · exact setCoef_steps s _ _

theorem entStep_steps (k : Int) (s : State) : WorkSteps s (entStep k s).state := by
  unfold entStep
  dsimp only
  split
  · exact afterRead_steps s s.pos
  · split
    · exact afterRead_consume_steps s s.pos _
    · exact (afterRead_consume_steps s s.pos _).trans (storeAc_steps _ _ _ _ _)
    · exact (afterRead_consume_steps s s.pos _).trans
        ((afterRead_consume_steps _ _ _).trans (storeAc_steps _ _ _ _ _))

theorem entLoop_steps (fuel : Nat) (k : Int) (count : Nat) (s : State) : WorkSteps s (entLoop fuel k count s).state := by
  induction fuel generalizing k count s with
  | zero => exact .refl
  | succ fuel ih =>
    have hstep := entStep_steps k s
    rw [entLoop]
    split
    next t ht =>
      rw [ht] at hstep
      exact hstep.trans (SetsRegisters.steps ⟨rfl, id⟩)
    next k' t ht =>
      rw [ht] at hstep
      exact hstep.trans (ih k' (count + 1) t)
    next code start t ht =>
      rw [ht] at hstep
      exact hstep

theorem entdec_steps (p : Plane) (s : State) : WorkSteps s (entdec p s).state :=
  (initCoef_steps s p).trans (entLoop_steps 65 63 0 _)

theorem idctr_steps (s : State) : WorkSteps s (idctr s).state := by
  unfold idctr
  split
  · exact .refl
  · exact SetsRegisters.steps ⟨rfl, id⟩

theorem idctc_steps (p : Plane) (s : State) : WorkSteps s (idctc p s).state := by
  unfold idctc
  split
  · exact .refl
  · exact setPlane_steps s p _

theorem plane_steps (p : Plane) (s : State) : WorkSteps s (plane p s).state := by
  unfold plane
  dsimp only
  split
  · exact (dcdec_steps p s).trans (setPlane_steps _ p _)
  · exact bind_steps (bind_steps ((dcdec_steps p s).trans (entdec_steps p _)) idctr_steps) (idctc_steps p)

theorem cconv_steps (s : State) : WorkSteps s (cconv s).state := by
  unfold cconv
  split
  · exact SetsRegisters.steps ⟨rfl, id⟩
  · exact .refl

theorem writePixels_steps (l : List (Fin 64)) (s : State) : WorkSteps s (writePixels l s).state := by
  induction l generalizing s with
  | nil => exact .refl
  | cons i rest ih =>
    unfold writePixels
    split
    next hin =>
      split
      · exact .refl
      next v _ => exact .trans (.single (.store v hin)) (ih _)
    next => exact ih s

theorem writeTile_steps (s : State) : WorkSteps s (writeTile s).state :=
  bind_steps (writePixels_steps tilePixels s) advanceTile_steps

theorem withGeometry_steps {f : State → Res} {s : State} (hf : WorkSteps s (f s).state) :
    WorkSteps s (withGeometry f s).state := by
  unfold withGeometry
  split
  · exact .refl
  · exact hf

theorem alphaPlane_steps (s : State) : WorkSteps s (alphaPlane s).state := by
  unfold alphaPlane
  split
  · exact plane_steps 3 s
  · exact .refl

theorem blockBody_steps (s : State) : WorkSteps s (blockBody s).state :=
  bind_steps (bind_steps (bind_steps (bind_steps (bind_steps (plane_steps 0 s) (plane_steps 1)) (plane_steps 2))
    alphaPlane_steps) cconv_steps) writeTile_steps

theorem blocks_steps (n : Nat) (s : State) : WorkSteps s (blocks n s).state := by
  induction n generalizing s with
  | zero => exact .refl
  | succ n ih => exact bind_steps (blockBody_steps s) ih

theorem image_steps (s : State) : WorkSteps (workStart .image s) (image s).state := by
  unfold image workStart
  dsimp only
  split
  · exact .refl
  · exact blocks_steps _ s.startImage

/-- The work of every command is made of such steps. -/
theorem commandWork_steps (i : Instr) (s : State) : WorkSteps (workStart i s) (commandWork i s).state := by
  cases i with
  | nop => exact .refl
  | srst => exact .refl
  | bread n => exact bread_steps n s
  | dcdec p => exact dcdec_steps p s
  | fill p => exact setPlane_steps s p _
  | entdec p => exact entdec_steps p s
  | idctr => exact idctr_steps s
  | idctc p => exact idctc_steps p s
  | plane p => exact plane_steps p s
  | cconv => exact cconv_steps s
  | wrblk => exact withGeometry_steps (writeTile_steps s)
  | block => exact withGeometry_steps (blockBody_steps s)
  | image => exact image_steps s

/-- A property that the three kinds of step keep is kept by the work. -/
theorem WorkSteps.keeps {P : State → Prop} {s t : State} (h : WorkSteps s t)
    (hstep : ∀ u v, WorkStep u v → P u → P v) (hs : P s) : P t := by
  induction h with
  | refl => exact hs
  | tail _ hlast ih => exact hstep _ _ hlast ih

/-! ### What the work leaves alone -/

/-- Only what commands write besides ERR, ERRCODE, ERRINFO and the end of the command differs: the page and its counters,
the destination space, and registers and buffers. -/
def WorkFrame (s t : State) : Prop :=
  t = { s with
    pos := t.pos, result := t.result, dc := t.dc, coef := t.coef, tmp := t.tmp, plane := t.plane, pix := t.pix
    blkX := t.blkX, blkY := t.blkY, dst := t.dst, raced := t.raced, draws := t.draws, memReads := t.memReads
    pageValid := t.pageValid, pageBase := t.pageBase, page := t.page
    status := { s.status with fill := t.status.fill, pastEnd := t.status.pastEnd } }

theorem WorkFrame.trans {s t u : State} (hst : WorkFrame s t) (htu : WorkFrame t u) : WorkFrame s u :=
  Eq.trans htu (congrArg (fun v : State => { v with
    pos := u.pos, result := u.result, dc := u.dc, coef := u.coef, tmp := u.tmp, plane := u.plane, pix := u.pix
    blkX := u.blkX, blkY := u.blkY, dst := u.dst, raced := u.raced, draws := u.draws, memReads := u.memReads
    pageValid := u.pageValid, pageBase := u.pageBase, page := u.page
    status := { v.status with fill := u.status.fill, pastEnd := u.status.pastEnd } }) hst)

theorem workFrame_of_sameButPage {s t : State} (h : SameButPage s t) : WorkFrame s t :=
  h.trans (congrArg (fun u : State => { s with
    pos := u.pos, result := u.result, dc := u.dc, coef := u.coef, tmp := u.tmp, plane := u.plane, pix := u.pix
    blkX := u.blkX, blkY := u.blkY, dst := u.dst, raced := u.raced, draws := t.draws, memReads := t.memReads
    pageValid := t.pageValid, pageBase := t.pageBase, page := t.page
    status := { s.status with fill := u.status.fill, pastEnd := u.status.pastEnd } }) h.symm)

theorem SetsRegisters.workFrame {s t : State} (h : SetsRegisters s t) : WorkFrame s t :=
  h.frame.trans (congrArg (fun u : State => { s with
    pos := t.pos, result := t.result, dc := t.dc, coef := t.coef, tmp := t.tmp, plane := t.plane, pix := t.pix
    blkX := t.blkX, blkY := t.blkY, dst := u.dst, raced := u.raced, draws := u.draws, memReads := u.memReads
    pageValid := u.pageValid, pageBase := u.pageBase, page := u.page
    status := { s.status with fill := t.status.fill, pastEnd := t.status.pastEnd } }) h.frame.symm)

theorem WorkStep.workFrame {s t : State} (h : WorkStep s t) : WorkFrame s t := by
  cases h with
  | read off => exact workFrame_of_sameButPage (afterRead_sameButPage s off)
  | store v hin => rfl
  | registers hset => exact hset.workFrame

theorem WorkSteps.workFrame {s t : State} (h : WorkSteps s t) : WorkFrame s t :=
  h.keeps (fun _ _ hlast hframe => hframe.trans hlast.workFrame) rfl

/-- PAST_END does not fall during the work (20_memory.md rule R55). -/
theorem WorkSteps.pastEnd {s t : State} (h : WorkSteps s t) (hs : s.status.pastEnd = true) : t.status.pastEnd = true := by
  refine h.keeps (P := fun u => u.status.pastEnd = true) (fun u v hlast hu => ?_) hs
  cases hlast with
  | read off => rw [afterRead_status]; exact hu
  | store w hin => rw [memWrite_status]; exact hu
  | registers hset => exact hset.pastEnd hu

/-- A read leaves a valid page (20_memory.md rule R57). -/
theorem afterRead_pageValid (s : State) (off : Word) : (s.afterRead off).pageValid = true := by
  have hlookup : (s.lookupPage (wordOf off)).pageValid = true := by
    have hhit := lookupPage_hit s (wordOf off)
    simp only [State.pageHit, Bool.and_eq_true] at hhit
    exact hhit.1.1
  unfold State.afterRead
  dsimp only
  split
  · exact hlookup
  · exact hlookup

/-- The work makes no page invalid. -/
theorem WorkSteps.pageValid {s t : State} (h : WorkSteps s t) (hs : s.pageValid = true) : t.pageValid = true := by
  refine h.keeps (P := fun u => u.pageValid = true) (fun u v hlast hu => ?_) hs
  cases hlast with
  | read off => exact afterRead_pageValid u off
  | store w hin => rw [memWrite_pageValid]; exact hu
  | registers hset => exact (congrArg State.pageValid hset.frame :).trans hu

/-- The work keeps the canonical form of the destination space. -/
theorem WorkSteps.dst_wf {s t : State} (h : WorkSteps s t) (hs : s.dst.wf = true) : t.dst.wf = true := by
  refine h.keeps (P := fun u => u.dst.wf = true) (fun u v hlast hu => ?_) hs
  cases hlast with
  | read off => rw [afterRead_dst]; exact hu
  | store w hin => exact memWrite_dst_wf _ _ hu
  | registers hset => exact (congrArg (fun x : State => x.dst.wf) hset.frame :).trans hu

end Sys2Proof.Machine
end

section
/-! One step of the machine: what the engine's step and a host action can be, and what both leave of the canonical form of
the memories (log entries 7 and 8). -/

namespace Sys2Proof.Machine

open Sys2Proof.Spec

/-! ### What a step can be -/

/-- What a host action makes of the state (20_memory.md rules R60 and R69, 70_reset_and_hazards.md rule R225). -/
inductive HostChange (s : State) : State → Prop where
  | ignored : HostChange s s
  | write (r : PortReg) (v : Word) (h : s.inReset = false) : HostChange s (s.portWrite r v)
  | read (r : PortReg) : HostChange s (s.portRead r)
  | source (a : Word) (v : Byte) : HostChange s (s.hostSrcWrite a v)
  | reset : HostChange s s.assertReset
  | release : HostChange s { s with inReset := false }

theorem hostStep_change {op : HostOp} {s t : State} (h : hostStep op s = .next t) : HostChange s t := by
  match op with
  | .write off bytes v =>
    simp only [hostStep] at h
    split at h
    next => cases h; exact .ignored
    next hreset =>
      split at h
      · cases h; exact .write _ v (Bool.eq_false_of_not_eq_true hreset)
      · cases h
  | .read off bytes =>
    simp only [hostStep] at h
    split at h
    · cases h; exact .ignored
    · split at h
      · cases h; exact .read _
      · cases h
  | .srcWrite a v => cases h; exact .source a v
  | .reset true => cases h; exact .reset
  | .reset false => cases h; exact .release

/-- What the engine's step makes of the state: it runs the command in CMD or raises ILLEGAL_CMD
(60_exceptions.md rule R203). -/
inductive EngineChange (s : State) : State → Prop where
  | run {t : State} (i : Instr) (hi : decode s.cmd = .ok i) (h : exec i s = .next t) : EngineChange s t
  | illegal : EngineChange s (s.raise .illegalCmd s.cmd)

theorem engineStep_change {s t : State} (h : engineStep s = .next t) : EngineChange s t := by
  unfold engineStep at h
  split at h
  next i hi => exact .run i hi h
  next => cases h; exact .illegal

/-- What a step makes of the state: the engine moves, with the late writes of STATUS settled after it, or the core waits, or
the host acts. -/
inductive StepChange (s : State) : State → Prop where
  | engine {t : State} (hbusy : s.status.busy = true) (hw1c : s.lateW1C = 0) (hovr : s.lateOvr = false)
      (h : EngineChange s t) : StepChange s t
  | settled {u : State} (hbusy : s.status.busy = true) (h : EngineChange s u) : StepChange s u.settle
  | idle : StepChange s s
  | host {t : State} (rest : List Input) (h : HostChange { s with inputs := rest } t) : StepChange s t

theorem busy_of_engineTurn {s : State} (h : s.engineTurn = true) : s.status.busy = true := by
  unfold State.engineTurn at h
  rw [Bool.and_eq_true, Bool.and_eq_true] at h
  exact h.1.1

theorem step_change {s t : State} (h : step s = .next t) : StepChange s t := by
  unfold step at h
  split at h
  next hturn =>
    have hbusy := busy_of_engineTurn hturn
    split at h
    next hlate => exact .engine hbusy hlate.1 hlate.2 (engineStep_change h)
    next =>
      obtain ⟨u, hu, rfl⟩ := settleOutcome_eq_next h
      exact .settled hbusy (engineStep_change hu)
  next =>
    split at h
    · cases h; exact .idle
    next i rest _ => exact .host rest (hostStep_change h)

/-! ### The memories -/

/-- The work of a command other than SRST, whatever its start resets, changes only what a work may change. -/
theorem commandWork_frame {i : Instr} (hi : i ≠ .srst) (s : State) : WorkFrame s (commandWork i s).state := by
  have hstart : WorkFrame s (workStart i s) := by
    unfold workStart
    split
    · exact absurd rfl hi
    · split
      · rfl
      · rfl
    · rfl
  exact hstart.trans (commandWork_steps i s).workFrame

theorem workStart_dst (i : Instr) (s : State) : (workStart i s).dst = s.dst := by
  unfold workStart
  split
  · rfl
  · split
    · rfl
    · rfl
  · rfl

theorem commandWork_src (i : Instr) (s : State) : (commandWork i s).state.src = s.src := by
  by_cases hi : i = .srst
  · rw [hi]; rfl
  · exact (congrArg State.src (commandWork_frame hi s) :)

theorem commandWork_dst_wf {s : State} (h : s.dst.wf = true) (i : Instr) : (commandWork i s).state.dst.wf = true :=
  (commandWork_steps i s).dst_wf ((congrArg Memory.wf (workStart_dst i s)).trans h)

/-- The end of a command keeps the memories. -/
theorem exec_memories {i : Instr} {s t : State} (h : exec i s = .next t) :
    t.src = (commandWork i s).state.src ∧ t.dst = (commandWork i s).state.dst := by
  obtain ⟨u, hu, rfl⟩ | ⟨code, info, u, hu, rfl⟩ := exec_eq_next_iff.1 h
  · rw [hu]; exact ⟨rfl, rfl⟩
  · rw [hu]; exact ⟨takeError_src u code info _, takeError_dst u code info _⟩

theorem EngineChange.memoriesOk {s t : State} (h : EngineChange s t) (hs : s.MemoriesOk) : t.MemoriesOk := by
  cases h with
  | run i _ hexec =>
    obtain ⟨hsrc, hdst⟩ := exec_memories hexec
    exact ⟨by rw [hsrc, commandWork_src]; exact hs.1, by rw [hdst]; exact commandWork_dst_wf hs.2 i⟩
  | illegal => exact hs

theorem portWrite_memories (s : State) (r : PortReg) (v : Word) :
    (s.portWrite r v).src = s.src ∧ (s.portWrite r v).dst = s.dst := by
  unfold State.portWrite
  split
  · split
    · exact ⟨rfl, rfl⟩
    · exact ⟨rfl, rfl⟩
  · cases r with
    | cmd => exact ⟨acceptCmd_src s v, acceptCmd_dst s v⟩
    | _ => exact ⟨rfl, rfl⟩

theorem hostSrcWrite_src_wf {s : State} (h : s.src.wf = true) (a : Word) (v : Byte) :
    (s.hostSrcWrite a v).src.wf = true := by
  unfold State.hostSrcWrite
  split
  · exact h
  · exact Memory.wf_write a v h

/-! ### The destination space when reset cuts a command short -/

/-- BREAD changes only the page, RESULT and PAST_END (41_bitreader.md rule R103). -/
theorem bread_frame (n : Nat) (s : State) :
    SameButPage { s with
      result := (bread n s).state.result
      status := { s.status with pastEnd := (bread n s).state.status.pastEnd } } (bread n s).state := by
  unfold bread
  split
  · exact congrArg (fun u : State => { u with
      result := s.readBits s.arg0 n
      status := { u.status with pastEnd := (s.afterRead s.arg0).status.pastEnd || s.passesEnd (s.arg0.toNat + n) } })
      (afterRead_sameButPage s s.arg0)
  · rfl

/-- CCONV changes only PIX (45_block.md rule R175). -/
theorem cconv_frame (s : State) : (cconv s).state = { s with pix := (cconv s).state.pix } := by
  unfold cconv
  split
  · rfl
  · rfl

/-- Only WRBLK, BLOCK and IMAGE write the destination space (20_memory.md rule R62). -/
theorem commandWork_dst {i : Instr} (hi : storesPixels i = false) (s : State) : (commandWork i s).state.dst = s.dst := by
  have hplane {u v : State} (h : forgetPlane u = forgetPlane v) : u.dst = v.dst := (congrArg State.dst h :)
  cases i with
  | nop | srst | fill p => rfl
  | bread n => exact (congrArg State.dst (bread_frame n s) :)
  | dcdec p => exact hplane (dcdec_forgetPlane p s)
  | entdec p => exact (congrArg State.dst (entdec_forgetDecode p s) :)
  | idctr => exact hplane (idctr_forgetPlane s)
  | idctc p => exact hplane (idctc_forgetPlane p s)
  | plane p => exact hplane (plane_forgetPlane p s)
  | cconv => exact (congrArg State.dst (cconv_frame s) :)
  | wrblk | block | image => cases hi

/-- The destination space that reset takes for the end of a command is the one that its work leaves. -/
theorem commandDst_eq (i : Instr) (s : State) : commandDst i s = (commandWork i s).state.dst := by
  cases i with
  | wrblk | block | image => rfl
  | _ => exact (commandWork_dst rfl s).symm

theorem dstAfterReset_wf {s : State} (h : s.dst.wf = true) : s.dstAfterReset.wf = true := by
  unfold State.dstAfterReset
  split
  · split
    next i _ =>
      have hnew : (commandDst i s).wf = true := by rw [commandDst_eq]; exact commandWork_dst_wf h i
      refine mixBytes_wf (fun a ha => ?_) h
      obtain hmem | hmem := List.mem_append.1 ha
      · exact Memory.lt_of_mem_of_wfFrom hnew hmem
      · exact Memory.lt_of_mem_of_wfFrom h hmem
    next => exact h
  · exact h

theorem HostChange.memoriesOk {s t : State} (h : HostChange s t) (hs : s.MemoriesOk) : t.MemoriesOk := by
  cases h with
  | ignored | read r | release => exact hs
  | write r v _ =>
    obtain ⟨hsrc, hdst⟩ := portWrite_memories s r v
    exact ⟨by rw [hsrc]; exact hs.1, by rw [hdst]; exact hs.2⟩
  | source a v => exact ⟨hostSrcWrite_src_wf hs.1 a v, by rw [hostSrcWrite_dst]; exact hs.2⟩
  | reset => exact ⟨hs.1, dstAfterReset_wf hs.2⟩

/-- Settles O57: the engine stores bytes at 32-bit addresses only, the host writes source bytes likewise, and reset mixes
two canonical memories. -/
theorem stepKeepsMemoriesCanonical : Obligations.StepKeepsMemoriesCanonical := by
  intro s t hs h
  cases step_change h with
  | engine _ _ _ hengine => exact hengine.memoriesOk hs
  | settled _ hengine => exact hengine.memoriesOk hs
  | idle => exact hs
  | host rest hhost => exact hhost.memoriesOk (s := { s with inputs := rest }) hs

end Sys2Proof.Machine
end

section
/-! The page in every state (20_memory.md rules R56 to R60): the work of a command keeps a page true, a host write of a
source byte records what it changes, and every other way to touch the window makes the page invalid. -/

namespace Sys2Proof.Machine

open Sys2Proof.Spec

/-! ### The work of a command -/

/-- The page holds the window while no source byte changed, and else values of the session (20_memory.md rules R58 and
R60). -/
def PageTrue (s : State) : Prop := (s.SourceStable → s.PageHolds) ∧ s.PageFair

theorem pageTrue_of_invalid {s : State} (h : s.pageValid = false) : PageTrue s :=
  ⟨fun _ hv => absurd (h.symm.trans hv) Bool.false_ne_true, fun hv => absurd (h.symm.trans hv) Bool.false_ne_true⟩

/-- A page stays true where page, window and source stay and no recorded byte is forgotten. -/
theorem pageTrue_congr {s t : State} (h : PageTrue s) (hv : t.pageValid = true → s.pageValid = true)
    (hb : t.pageBase = s.pageBase) (hp : t.page = s.page) (ho : t.winOrg = s.winOrg) (hl : t.winLen = s.winLen)
    (hs : t.src = s.src) (hr : ∀ c ∈ s.raced, c ∈ t.raced) : PageTrue t := by
  refine ⟨fun hstable hvalid j => ?_, pageFair_congr h.2 hv hb hp ho hl hs hr⟩
  have hstable' : s.SourceStable := by
    refine List.eq_nil_iff_forall_not_mem.2 fun c hc => ?_
    have hmem := hr c hc
    rw [show t.raced = [] from hstable] at hmem
    exact List.not_mem_nil hmem
  rw [hp, hb, wordAt_congr ho hl hs]
  exact h.1 hstable' (hv hvalid) j

theorem storeByte_raced_subset (s : State) (a : Word) (v : Byte) : ∀ c ∈ s.raced, c ∈ (s.storeByte a v).raced := by
  intro c hc
  unfold State.storeByte
  dsimp only
  split
  · exact List.mem_append_left _ hc
  · exact hc

theorem memWrite_raced_subset (s : State) (a v : Word) : ∀ c ∈ s.raced, c ∈ (s.memWrite a v).raced := fun c hc =>
  storeByte_raced_subset _ _ _ c (storeByte_raced_subset _ _ _ c (storeByte_raced_subset _ _ _ c
    (storeByte_raced_subset s _ _ c hc)))

theorem WorkStep.pageTrue {s t : State} (h : WorkStep s t) (hs : PageTrue s) : PageTrue t := by
  cases h with
  | read off =>
    refine ⟨fun hstable => afterRead_pageHolds (hs.1 ?_) off, afterRead_pageFair hs.2 off⟩
    exact (afterRead_raced s off).symm.trans hstable
  | store v hin =>
    exact pageTrue_congr hs (by simp) (by simp) (by simp) (by simp) (by simp) (by simp) (memWrite_raced_subset s _ v)
  | registers hset =>
    have hraced : t.raced = s.raced := (congrArg State.raced hset.frame :)
    exact pageTrue_congr hs (fun hv => (congrArg State.pageValid hset.frame :).symm.trans hv)
      (congrArg State.pageBase hset.frame :) (congrArg State.page hset.frame :) (congrArg State.winOrg hset.frame :)
      (congrArg State.winLen hset.frame :) (congrArg State.src hset.frame :) fun c hc => hraced ▸ hc

theorem workStart_pageTrue {s : State} (h : PageTrue s) (i : Instr) : PageTrue (workStart i s) := by
  unfold workStart
  split
  · exact pageTrue_of_invalid rfl
  · split
    · exact h
    · exact pageTrue_of_invalid rfl
  · exact h

theorem commandWork_pageTrue {s : State} (h : PageTrue s) (i : Instr) : PageTrue (commandWork i s).state :=
  (commandWork_steps i s).keeps (fun _ _ hstep => hstep.pageTrue) (workStart_pageTrue h i)

/-- A data error may make the page invalid, and no error makes it valid (60_exceptions.md rule R210). -/
theorem pageValid_of_takeError {s : State} {code : ErrCode} {info : Word} {w : Writes}
    (h : (s.takeError code info w).pageValid = true) : s.pageValid = true := by
  unfold State.takeError at h
  split at h
  · exact (Bool.and_eq_true_iff.1 h).1
  · exact h

theorem takeError_pageTrue {s : State} (h : PageTrue s) (code : ErrCode) (info : Word) (w : Writes) :
    PageTrue (s.takeError code info w) :=
  pageTrue_congr h pageValid_of_takeError (by simp) (by simp) (by simp) (by simp) (by simp) fun c hc => by simpa using hc

theorem exec_pageTrue {i : Instr} {s t : State} (hs : PageTrue s) (h : exec i s = .next t) : PageTrue t := by
  obtain ⟨u, hu, rfl⟩ | ⟨code, info, u, hu, rfl⟩ := exec_eq_next_iff.1 h
  · have hwork := commandWork_pageTrue hs i
    rw [hu] at hwork
    exact hwork
  · have hwork := commandWork_pageTrue hs i
    rw [hu] at hwork
    exact takeError_pageTrue hwork code info _

/-! ### The session -/

/-- SRST ends the session; no other command does (log entry 15). -/
theorem commandWork_session {i : Instr} (hi : i ≠ .srst) (s : State) : (commandWork i s).state.session = s.session :=
  (congrArg State.session (commandWork_frame hi s) :)

theorem exec_session {i : Instr} {s t : State} (hi : i ≠ .srst) (h : exec i s = .next t) : t.session = s.session := by
  have hwork := commandWork_session hi s
  obtain ⟨u, hu, rfl⟩ | ⟨code, info, u, hu, rfl⟩ := exec_eq_next_iff.1 h
  · rw [hu] at hwork
    exact hwork
  · rw [hu] at hwork
    exact (takeError_session u code info _).trans hwork

/-- A command ends with the engine idle (40_control.md rule R92, 60_exceptions.md rule R202). -/
theorem exec_busy {i : Instr} {s t : State} (h : exec i s = .next t) : t.status.busy = false := by
  obtain ⟨u, _, rfl⟩ | ⟨code, info, u, _, rfl⟩ := exec_eq_next_iff.1 h
  · rfl
  · rfl

theorem EngineChange.pageOk {s t : State} (h : EngineChange s t) (hbusy : s.status.busy = true) (hs : s.PageOk) :
    t.PageOk := by
  obtain ⟨_, hrun, hholds, hfair⟩ := hs
  have hsession : s.session = true := hrun hbusy
  cases h with
  | run i _ hexec =>
    obtain ⟨htrue, hfair'⟩ := exec_pageTrue ⟨hholds, hfair⟩ hexec
    have hidle : t.status.busy = true → t.session = true := fun hb =>
      absurd ((exec_busy hexec).symm.trans hb) Bool.false_ne_true
    refine ⟨fun hvalid => ?_, hidle, htrue, hfair'⟩
    by_cases hi : i = .srst
    · rw [hi, exec_srst] at hexec
      cases hexec
      cases hvalid
    · exact (exec_session hi hexec).trans hsession
  | illegal => exact ⟨fun _ => hsession, fun _ => hsession, hholds, hfair⟩

/-! ### The host -/

theorem pageOk_of_invalid {s : State} (hv : s.pageValid = false) (hb : s.status.busy = false) : s.PageOk := by
  obtain ⟨hholds, hfair⟩ := pageTrue_of_invalid hv
  exact ⟨fun h => absurd (hv.symm.trans h) Bool.false_ne_true, fun h => absurd (hb.symm.trans h) Bool.false_ne_true,
    hholds, hfair⟩

theorem acceptCmd_pageOk {s : State} (hs : s.PageOk) (c : Word) : (s.acceptCmd c).PageOk := by
  unfold State.acceptCmd
  split
  · exact hs
  · exact ⟨fun _ => rfl, fun _ => rfl, hs.2.2⟩

theorem writeReg_pageOk {s : State} (hs : s.PageOk) (hidle : s.status.busy = false) (v : Word) (r : PortReg) :
    (s.writeReg v r).PageOk := by
  cases r with
  | cmd => exact acceptCmd_pageOk hs v
  | winOrg | winLen => exact pageOk_of_invalid rfl hidle
  | _ => exact hs

theorem portWrite_pageOk {s : State} (hs : s.PageOk) (r : PortReg) (v : Word) : (s.portWrite r v).PageOk := by
  unfold State.portWrite
  split
  · split
    · exact hs
    · exact hs
  next hidle => exact writeReg_pageOk hs (Bool.eq_false_of_not_eq_true hidle) v r

theorem hostSrcWrite_raced_subset (s : State) (a : Word) (v : Byte) :
    ∀ c ∈ s.raced, c ∈ (s.hostSrcWrite a v).raced := by
  intro c hc
  unfold State.hostSrcWrite
  split
  · exact hc
  · dsimp only
    split
    · exact List.mem_append_left _ hc
    · exact hc

theorem mem_raceValues {s : State} {a : Nat} {v : Byte} : v ∈ s.raceValues a ↔ (a, v) ∈ s.raced := by
  simp only [State.raceValues, List.mem_map, List.mem_filter, beq_iff_eq, Prod.exists, exists_eq_right]

/-- In a session, a value that a window byte may read as is still one after a source byte changed
(20_memory.md rule R60). -/
theorem hostSrcWrite_windowValue {s : State} {i : Nat} {b : Byte} (hsession : s.session = true) (h : s.WindowValue i b)
    (a : Word) (v : Byte) : (s.hostSrcWrite a v).WindowValue i b := by
  have haddr : (s.hostSrcWrite a v).windowAddr i = s.windowAddr i := by simp [State.windowAddr]
  obtain hnow | ⟨hi, hmem⟩ := h
  · obtain hsame | ⟨hi, ha, hrecord⟩ := hostSrcWrite_srcByte s a v i hsession
    · exact .inl (hnow.trans hsame.symm)
    · refine .inr ⟨by simpa using hi, ?_⟩
      rw [haddr, ha, mem_raceValues, hnow]
      exact hrecord
  · refine .inr ⟨by simpa using hi, ?_⟩
    rw [haddr, mem_raceValues]
    exact hostSrcWrite_raced_subset s a v _ (mem_raceValues.1 hmem)

/-- If no byte is recorded after a change in a session, the change was outside the window. -/
theorem hostSrcWrite_wordAt_of_stable {s : State} {a : Word} {v : Byte} (hsession : s.session = true)
    (h : (s.hostSrcWrite a v).SourceStable) (w : Nat) : (s.hostSrcWrite a v).wordAt w = s.wordAt w := by
  have hbyte (i : Nat) : (s.hostSrcWrite a v).srcByte i = s.srcByte i := by
    obtain hsame | ⟨_, _, hrecord⟩ := hostSrcWrite_srcByte s a v i hsession
    · exact hsame
    · rw [show (s.hostSrcWrite a v).raced = [] from h] at hrecord
      exact absurd hrecord List.not_mem_nil
  simp only [State.wordAt, hbyte]

theorem hostSrcWrite_pageTrue {s : State} (hsession : s.session = true) (hs : PageTrue s) (a : Word) (v : Byte) :
    PageTrue (s.hostSrcWrite a v) := by
  obtain ⟨hholds, hfair⟩ := hs
  refine ⟨fun hstable hvalid j => ?_, fun hvalid j k => ?_⟩
  · rw [hostSrcWrite_wordAt_of_stable hsession hstable, hostSrcWrite_page, hostSrcWrite_pageBase]
    refine hholds (List.eq_nil_iff_forall_not_mem.2 fun c hc => ?_) (by simpa using hvalid) j
    have hmem := hostSrcWrite_raced_subset s a v c hc
    rw [show (s.hostSrcWrite a v).raced = [] from hstable] at hmem
    exact List.not_mem_nil hmem
  · rw [hostSrcWrite_page, hostSrcWrite_pageBase]
    exact hostSrcWrite_windowValue hsession (hfair (by simpa using hvalid) j k) a v

theorem hostSrcWrite_pageOk {s : State} (hs : s.PageOk) (a : Word) (v : Byte) : (s.hostSrcWrite a v).PageOk := by
  obtain ⟨hpage, hrun, hholds, hfair⟩ := hs
  refine ⟨by simpa using hpage, by simpa using hrun, ?_⟩
  cases hsession : s.session with
  | true => exact hostSrcWrite_pageTrue hsession ⟨hholds, hfair⟩ a v
  | false =>
    have hinvalid : s.pageValid = false := by
      rw [hsession] at hpage
      exact Bool.eq_false_of_not_eq_true fun h => Bool.false_ne_true (hpage h)
    exact pageTrue_of_invalid ((hostSrcWrite_pageValid s a v).trans hinvalid)

theorem HostChange.pageOk {s t : State} (h : HostChange s t) (hs : s.PageOk) : t.PageOk := by
  cases h with
  | ignored | read r | release => exact hs
  | write r v _ => exact portWrite_pageOk hs r v
  | source a v => exact hostSrcWrite_pageOk hs a v
  | reset => exact pageOk_of_invalid rfl rfl

/-- Settles O58: late writes of STATUS do not touch the page, and each change of `StepChange` keeps it true. -/
theorem stepKeepsPageTrue : Obligations.StepKeepsPageTrue := by
  intro s t hs h
  cases step_change h with
  | engine hbusy _ _ hengine => exact hengine.pageOk hbusy hs
  | settled hbusy hengine => exact hengine.pageOk hbusy hs
  | idle => exact hs
  | host rest hhost => exact hhost.pageOk (s := { s with inputs := rest }) hs

end Sys2Proof.Machine
end

section
/-! STATUS in every state (10_state.md rule R23, 40_control.md rules R92 to R95): how a command ends, what a host action
does to STATUS, and the discipline that both keep. -/

namespace Sys2Proof.Machine

open Sys2Proof.Spec

/-! ### The errors of the commands -/

/-- Every error that the result records satisfies `P`. -/
def Res.Raises (P : ErrCode → Prop) (r : Res) : Prop := ∀ code info u, r = .err code info u → P code

theorem Res.raises_ok {P : ErrCode → Prop} {s : State} : (Res.ok s).Raises P := fun _ _ _ h => nomatch h

theorem Res.raises_fault {P : ErrCode → Prop} {f : Fault} {s : State} : (Res.fault f s).Raises P := fun _ _ _ h => nomatch h

theorem Res.raises_err {P : ErrCode → Prop} {code : ErrCode} {info : Word} {s : State} (h : P code) :
    (Res.err code info s).Raises P := fun _ _ _ heq => by cases heq; exact h

theorem Res.Raises.mono {P Q : ErrCode → Prop} {r : Res} (h : r.Raises P) (hpq : ∀ code, P code → Q code) : r.Raises Q :=
  fun code info u heq => hpq code (h code info u heq)

theorem Res.Raises.bind {P : ErrCode → Prop} {r : Res} {f : State → Res} (hr : r.Raises P) (hf : ∀ s, (f s).Raises P) :
    (r.bind f).Raises P := by
  cases r with
  | ok s => exact hf s
  | err code info s => exact hr
  | fault g s => exact hr

/-- A data error (60_exceptions.md rule R210). -/
abbrev IsData (code : ErrCode) : Prop := code.isData = true

theorem entLoop_raises (fuel : Nat) (k : Int) (count : Nat) (s : State) : (entLoop fuel k count s).Raises IsData := by
  induction fuel generalizing k count s with
  | zero => exact Res.raises_err rfl
  | succ fuel ih =>
    rw [entLoop]
    split
    · exact Res.raises_ok
    next k' t _ => exact ih k' (count + 1) t
    next code start t ht =>
      obtain ⟨rfl | rfl, _⟩ := entStep_err ht
      · exact Res.raises_err rfl
      · exact Res.raises_err rfl

theorem entdec_raises (p : Plane) (s : State) : (entdec p s).Raises IsData := entLoop_raises 65 63 0 _

theorem idctr_raises {P : ErrCode → Prop} (s : State) : (idctr s).Raises P := by
  unfold idctr
  split
  · exact Res.raises_fault
  · exact Res.raises_ok

theorem idctc_raises {P : ErrCode → Prop} (p : Plane) (s : State) : (idctc p s).Raises P := by
  unfold idctc
  split
  · exact Res.raises_fault
  · exact Res.raises_ok

theorem plane_raises (p : Plane) (s : State) : (plane p s).Raises IsData := by
  unfold plane
  dsimp only
  split
  · exact Res.raises_ok
  · exact ((entdec_raises p _).bind idctr_raises).bind (idctc_raises p)

theorem alphaPlane_raises (s : State) : (alphaPlane s).Raises IsData := by
  unfold alphaPlane
  split
  · exact plane_raises 3 s
  · exact Res.raises_ok

theorem cconv_raises {P : ErrCode → Prop} (s : State) : (cconv s).Raises P := by
  unfold cconv
  split
  · exact Res.raises_ok
  · exact Res.raises_fault

theorem writePixels_raises {P : ErrCode → Prop} (l : List (Fin 64)) (s : State) : (writePixels l s).Raises P := by
  induction l generalizing s with
  | nil => exact Res.raises_ok
  | cons i rest ih =>
    unfold writePixels
    split
    · split
      · exact Res.raises_fault
      · exact ih _
    · exact ih s

theorem writeTile_raises {P : ErrCode → Prop} (s : State) : (writeTile s).Raises P :=
  (writePixels_raises tilePixels s).bind fun _ => Res.raises_ok

theorem blockBody_raises (s : State) : (blockBody s).Raises IsData :=
  (((((plane_raises 0 s).bind (plane_raises 1)).bind (plane_raises 2)).bind alphaPlane_raises).bind cconv_raises).bind
    writeTile_raises

theorem blocks_raises (n : Nat) (s : State) : (blocks n s).Raises IsData := by
  induction n generalizing s with
  | zero => exact Res.raises_ok
  | succ n ih => exact (blockBody_raises s).bind ih

theorem ne_none_of_isData {code : ErrCode} (h : IsData code) : code ≠ .none := by
  rintro rfl
  cases h

theorem withGeometry_raises {f : State → Res} {s : State} (hf : (f s).Raises IsData) :
    (withGeometry f s).Raises (· ≠ .none) := by
  unfold withGeometry
  split
  · exact Res.raises_err (by decide)
  · exact hf.mono fun _ => ne_none_of_isData

/-- The errors that commands raise have names (60_exceptions.md rule R201). -/
theorem commandWork_raises (i : Instr) (s : State) : (commandWork i s).Raises (· ≠ .none) := by
  cases i with
  | nop | srst | dcdec p | fill p => exact Res.raises_ok
  | bread n =>
    unfold commandWork bread
    dsimp only
    split
    · exact Res.raises_ok
    · exact Res.raises_err (by decide)
  | entdec p => exact (entdec_raises p s).mono fun _ => ne_none_of_isData
  | idctr => exact idctr_raises s
  | idctc p => exact idctc_raises p s
  | plane p => exact (plane_raises p s).mono fun _ => ne_none_of_isData
  | cconv => exact cconv_raises s
  | wrblk => exact withGeometry_raises (writeTile_raises s)
  | block => exact withGeometry_raises (blockBody_raises s)
  | image =>
    unfold commandWork image
    dsimp only
    split
    · exact Res.raises_err (by decide)
    · exact (blocks_raises _ _).mono fun _ => ne_none_of_isData

/-! ### The end of a command -/

theorem commandWork_done (i : Instr) (s : State) : (commandWork i s).state.status.done = s.status.done := by
  by_cases hi : i = .srst
  · rw [hi]; rfl
  · exact (congrArg (fun u : State => u.status.done) (commandWork_frame hi s) :)

/-- A command that answers a next state completed, or it recorded an error and left DONE as it was. -/
theorem exec_status {i : Instr} {s t : State} (h : exec i s = .next t) :
    (t.status.done = true ∧ t.status.err = (commandWork i s).state.status.err ∧
        t.status.code = (commandWork i s).state.status.code) ∨
      (t.status.err = true ∧ t.status.code ≠ .none ∧ t.status.done = s.status.done) := by
  have hdone := commandWork_done i s
  obtain ⟨u, hu, rfl⟩ | ⟨code, info, u, hu, rfl⟩ := exec_eq_next_iff.1 h
  · rw [hu]
    exact .inl ⟨rfl, rfl, rfl⟩
  · rw [hu] at hdone
    exact .inr ⟨rfl, commandWork_raises i s code info u hu, (takeError_done u code info _).trans hdone⟩

/-- Settles O10: the engine is idle after `exec_busy`, and `exec_status` tells the two ends apart. -/
theorem everyCommandEndsIdle : Obligations.EveryCommandEndsIdle := by
  intro i s t h
  refine ⟨exec_busy h, ?_⟩
  obtain ⟨hdone, _⟩ | herr := exec_status h
  · exact .inl hdone
  · exact .inr herr

/-! ### What no command writes -/

/-- The registers that no command writes, the source space, the configuration and what belongs to the host
(10_state.md rules R25 to R36). -/
structure SameConstants (s t : State) : Prop where
  ctrl : t.ctrl = s.ctrl
  cmd : t.cmd = s.cmd
  arg0 : t.arg0 = s.arg0
  winOrg : t.winOrg = s.winOrg
  winLen : t.winLen = s.winLen
  imgW : t.imgW = s.imgW
  imgH : t.imgH = s.imgH
  dstBase : t.dstBase = s.dstBase
  rom : t.rom = s.rom
  src : t.src = s.src
  inReset : t.inReset = s.inReset
  inputs : t.inputs = s.inputs
  portData : t.portData = s.portData
  lateW1C : t.lateW1C = s.lateW1C
  lateOvr : t.lateOvr = s.lateOvr

theorem SameConstants.trans {s t u : State} (hst : SameConstants s t) (htu : SameConstants t u) : SameConstants s u where
  ctrl := htu.ctrl.trans hst.ctrl
  cmd := htu.cmd.trans hst.cmd
  arg0 := htu.arg0.trans hst.arg0
  winOrg := htu.winOrg.trans hst.winOrg
  winLen := htu.winLen.trans hst.winLen
  imgW := htu.imgW.trans hst.imgW
  imgH := htu.imgH.trans hst.imgH
  dstBase := htu.dstBase.trans hst.dstBase
  rom := htu.rom.trans hst.rom
  src := htu.src.trans hst.src
  inReset := htu.inReset.trans hst.inReset
  inputs := htu.inputs.trans hst.inputs
  portData := htu.portData.trans hst.portData
  lateW1C := htu.lateW1C.trans hst.lateW1C
  lateOvr := htu.lateOvr.trans hst.lateOvr

theorem WorkFrame.sameConstants {s t : State} (h : WorkFrame s t) : SameConstants s t := by
  rw [show t = _ from h]
  exact ⟨rfl, rfl, rfl, rfl, rfl, rfl, rfl, rfl, rfl, rfl, rfl, rfl, rfl, rfl, rfl⟩

theorem complete_sameConstants (s : State) : SameConstants s s.complete := by
  constructor <;> rfl

theorem takeError_sameConstants (s : State) (code : ErrCode) (info : Word) (w : Writes) :
    SameConstants s (s.takeError code info w) := by
  constructor <;> simp

theorem commandWork_sameConstants (i : Instr) (s : State) : SameConstants s (commandWork i s).state := by
  by_cases hi : i = .srst
  · rw [hi]
    constructor <;> rfl
  · exact (commandWork_frame hi s).sameConstants

theorem exec_sameConstants {i : Instr} {s t : State} (h : exec i s = .next t) : SameConstants s t := by
  have hwork := commandWork_sameConstants i s
  obtain ⟨u, hu, rfl⟩ | ⟨code, info, u, hu, rfl⟩ := exec_eq_next_iff.1 h
  · rw [hu] at hwork
    exact hwork.trans (complete_sameConstants u)
  · rw [hu] at hwork
    exact hwork.trans (takeError_sameConstants u code info _)

/-! ### The engine -/

/-- The row of SRST is selected by OP alone (30_encoding.md rule R73). -/
theorem eq_srst_of_decode {c : Word} {i : Instr} (h : decode c = .ok i) (hop : fieldOp c = 1) : i = .srst := by
  unfold decode at h
  rw [hop] at h
  exact (decodePlain_eq_ok hop h).1.symm

/-- The discipline of STATUS between the end of a command and the late writes of STATUS. -/
structure EndsWell (t : State) : Prop where
  code : t.status.err = true ↔ t.status.code ≠ .none
  busy : t.status.busy = false
  done : t.status.err = true → t.status.done = false

/-- A command that runs under the discipline and completes leaves no error: only SRST runs while ERR = 1, and it clears ERR
(40_control.md rule R94). -/
theorem commandWork_noError {s : State} (hs : s.StatusOk) (hbusy : s.status.busy = true) {i : Instr}
    (hi : decode s.cmd = .ok i) :
    (commandWork i s).state.status.err = false ∧ (commandWork i s).state.status.code = .none := by
  obtain ⟨hcode, _, _, hsrst, _⟩ := hs
  by_cases hi' : i = .srst
  · rw [hi']
    exact ⟨rfl, rfl⟩
  · have herr : s.status.err = false := Bool.eq_false_of_not_eq_true fun h => hi' (eq_srst_of_decode hi (hsrst hbusy h))
    have hnone : s.status.code = .none := by
      by_contra h
      exact absurd (herr.symm.trans (hcode.2 h)) Bool.false_ne_true
    have hframe := commandWork_frame hi' s
    exact ⟨(congrArg (fun u : State => u.status.err) hframe :).trans herr,
      (congrArg (fun u : State => u.status.code) hframe :).trans hnone⟩

theorem EngineChange.endsWell {s t : State} (h : EngineChange s t) (hbusy : s.status.busy = true) (hs : s.StatusOk) :
    EndsWell t := by
  have hdone : s.status.done = false := hs.2.1 hbusy
  cases h with
  | run i hi hexec =>
    obtain ⟨herr, hnone⟩ := commandWork_noError hs hbusy hi
    obtain ⟨_, herr', hcode'⟩ | ⟨herr', hcode', hdone'⟩ := exec_status hexec
    · have hclear : t.status.err = false := herr'.trans herr
      refine ⟨?_, exec_busy hexec, fun h => absurd (hclear.symm.trans h) Bool.false_ne_true⟩
      rw [hclear, hcode', hnone]
      exact iff_of_false Bool.false_ne_true fun h => h rfl
    · exact ⟨iff_of_true herr' hcode', exec_busy hexec, fun _ => hdone'.trans hdone⟩
  | illegal => exact ⟨iff_of_true rfl fun h => (nomatch h), rfl, fun _ => hdone⟩

theorem EngineChange.late {s t : State} (h : EngineChange s t) : t.lateW1C = s.lateW1C ∧ t.lateOvr = s.lateOvr := by
  cases h with
  | run i _ hexec =>
    have hsame := exec_sameConstants hexec
    exact ⟨hsame.lateW1C, hsame.lateOvr⟩
  | illegal => exact ⟨rfl, rfl⟩

theorem EndsWell.statusOk {t : State} (h : EndsWell t) (hw1c : t.lateW1C = 0) (hovr : t.lateOvr = false) : t.StatusOk := by
  have hidle {P : Prop} (hb : t.status.busy = true) : P := absurd (h.busy.symm.trans hb) Bool.false_ne_true
  exact ⟨h.code, hidle, h.done, hidle, hidle, fun _ => ⟨hw1c, hovr⟩⟩

/-! ### Writes of STATUS -/

/-- Clearing ERR clears ERRCODE with it (10_state.md rule R23). -/
theorem w1c_err_iff {t : Status} (h : t.err = true ↔ t.code ≠ .none) (v : Word) :
    (t.w1c v).err = true ↔ (t.w1c v).code ≠ .none := by
  unfold Status.w1c
  cases v.getLsbD 2 with
  | true => simp
  | false => simpa using h

theorem err_of_w1c {t : Status} {v : Word} (h : (t.w1c v).err = true) : t.err = true := (Bool.and_eq_true_iff.1 h).1

theorem w1c_done {t : Status} (h : t.done = false) (v : Word) : (t.w1c v).done = false := by
  unfold Status.w1c
  rw [h]
  rfl

theorem EndsWell.settle {t : State} (h : EndsWell t) : t.settle.StatusOk := by
  have hw1c : EndsWell t.settle :=
    ⟨w1c_err_iff h.code t.lateW1C, h.busy, fun herr => w1c_done (h.done (err_of_w1c herr)) t.lateW1C⟩
  exact hw1c.statusOk rfl rfl

/-! ### The host -/

theorem acceptCmd_statusOk {s : State} (hs : s.StatusOk) (hreset : s.inReset = false) (c : Word) :
    (s.acceptCmd c).StatusOk := by
  unfold State.acceptCmd
  split
  · exact hs
  next haccept =>
    obtain ⟨hcode, _⟩ := hs
    refine ⟨hcode, fun _ => rfl, fun _ => rfl, fun _ herr => ?_, fun _ => hreset, fun hb => nomatch hb⟩
    by_contra hop
    exact haccept (Bool.and_eq_true_iff.2 ⟨herr, decide_eq_true hop⟩)

theorem portWrite_statusOk {s : State} (hs : s.StatusOk) (hreset : s.inReset = false) (r : PortReg) (v : Word) :
    (s.portWrite r v).StatusOk := by
  obtain ⟨hcode, hdone, hstop, hsrst, _, hlate⟩ := hs
  unfold State.portWrite
  split
  next hbusy =>
    have hrun {P : Prop} (hb : s.status.busy = false) : P := absurd (hb.symm.trans hbusy) Bool.false_ne_true
    split
    · exact ⟨w1c_err_iff hcode v, fun hb => w1c_done (hdone hb) v, fun herr => w1c_done (hstop (err_of_w1c herr)) v,
        fun hb herr => hsrst hb (err_of_w1c herr), fun _ => hreset, hrun⟩
    · exact ⟨hcode, hdone, hstop, hsrst, fun _ => hreset, hrun⟩
  next hidle =>
    cases r with
    | cmd => exact acceptCmd_statusOk ⟨hcode, hdone, hstop, hsrst, fun _ => hreset, hlate⟩ hreset v
    | status =>
      exact ⟨w1c_err_iff hcode v, fun hb => w1c_done (hdone hb) v, fun herr => w1c_done (hstop (err_of_w1c herr)) v,
        fun hb herr => hsrst hb (err_of_w1c herr), fun _ => hreset, hlate⟩
    | _ => exact ⟨hcode, hdone, hstop, hsrst, fun _ => hreset, hlate⟩

theorem hostSrcWrite_statusOk {s : State} (hs : s.StatusOk) (a : Word) (v : Byte) : (s.hostSrcWrite a v).StatusOk := by
  unfold State.hostSrcWrite
  split
  · exact hs
  · exact hs

theorem HostChange.statusOk {s t : State} (h : HostChange s t) (hs : s.StatusOk) : t.StatusOk := by
  cases h with
  | ignored | read r => exact hs
  | write r v hreset => exact portWrite_statusOk hs hreset r v
  | source a v => exact hostSrcWrite_statusOk hs a v
  | reset =>
    exact EndsWell.statusOk ⟨iff_of_false Bool.false_ne_true fun h => h rfl, rfl, fun _ => rfl⟩ rfl rfl
  | release =>
    obtain ⟨hcode, hdone, hstop, hsrst, _, hlate⟩ := hs
    exact ⟨hcode, hdone, hstop, hsrst, fun _ => rfl, hlate⟩

/-- Settles O59: a command ends well, the late writes of STATUS keep it so, and each host action keeps the discipline. -/
theorem stepKeepsStatusDiscipline : Obligations.StepKeepsStatusDiscipline := by
  intro s t hs h
  cases step_change h with
  | engine hbusy hw1c hovr hengine =>
    obtain ⟨hw1c', hovr'⟩ := hengine.late
    exact (hengine.endsWell hbusy hs).statusOk (hw1c'.trans hw1c) (hovr'.trans hovr)
  | settled hbusy hengine => exact (hengine.endsWell hbusy hs).settle
  | idle => exact hs
  | host rest hhost => exact hhost.statusOk (s := { s with inputs := rest }) hs

/-- Settles O56: nothing is listed in the memories, the page is invalid and every bit of STATUS is 0. -/
theorem resetMeetsInvariants : Obligations.ResetMeetsInvariants :=
  ⟨⟨rfl, rfl⟩, pageOk_of_invalid rfl rfl,
    EndsWell.statusOk ⟨iff_of_false Bool.false_ne_true fun h => h rfl, rfl, fun _ => rfl⟩ rfl rfl⟩

end Sys2Proof.Machine
end

section
/-! Footprints: which commands write each register, buffer and space (10_state.md rules R25 to R36, 20_memory.md rules R50 to
R62, 43_plane.md rule R147), for the work of a command first and then for its end. -/

namespace Sys2Proof.Machine

open Sys2Proof.Spec

/-! ### The work of each unit -/

/-- The entropy decoder's frame as an equation. -/
theorem eq_of_forgetDecode {s t : State} (h : forgetDecode t = forgetDecode s) :
    SameButPage { s with
      pos := t.pos, result := t.result, coef := t.coef, status := { s.status with pastEnd := t.status.pastEnd } } t :=
  (congrArg (fun u : State => { u with
    pos := t.pos, result := t.result, coef := t.coef, status := { u.status with pastEnd := t.status.pastEnd }
    pageValid := t.pageValid, pageBase := t.pageBase, page := t.page, memReads := t.memReads, draws := t.draws }) h :)

/-- A plane's frame as an equation. -/
theorem eq_of_forgetPlane {s t : State} (h : forgetPlane t = forgetPlane s) :
    SameButPage { s with
      pos := t.pos, result := t.result, coef := t.coef, dc := t.dc, tmp := t.tmp, plane := t.plane
      status := { s.status with fill := t.status.fill, pastEnd := t.status.pastEnd } } t :=
  (congrArg (fun u : State => { u with
    pos := t.pos, result := t.result, coef := t.coef, dc := t.dc, tmp := t.tmp, plane := t.plane
    status := { u.status with fill := t.status.fill, pastEnd := t.status.pastEnd }
    pageValid := t.pageValid, pageBase := t.pageBase, page := t.page, memReads := t.memReads, draws := t.draws }) h :)

/-- IDCTR changes only TMP (44_transform.md rule R163). -/
theorem idctr_frame (s : State) : (idctr s).state = { s with tmp := (idctr s).state.tmp } := by
  unfold idctr
  split
  · rfl
  · rfl

/-- IDCTC changes only PLANE (44_transform.md rule R164). -/
theorem idctc_frame (p : Plane) (s : State) : (idctc p s).state = { s with plane := (idctc p s).state.plane } := by
  unfold idctc
  split
  · rfl
  · rfl

theorem setPlane_plane_other {p q : Plane} (h : q ≠ p) (s : State) (b : Cells 64) : (s.setPlane p b).plane[q] = s.plane[q] :=
  Vector.getElem_set_ne p.isLt q.isLt fun e => h (Fin.ext e.symm)

/-- IDCTC writes no other plane. -/
theorem idctc_plane_other {p q : Plane} (h : q ≠ p) (s : State) : (idctc p s).state.plane[q] = s.plane[q] := by
  unfold idctc
  split
  · rfl
  · exact setPlane_plane_other h s _

/-- Only the destination space, the record of its stores and the tile differ. -/
def TileFrame (s t : State) : Prop := t = { s with dst := t.dst, raced := t.raced, blkX := t.blkX, blkY := t.blkY }

theorem TileFrame.trans {s t u : State} (hst : TileFrame s t) (htu : TileFrame t u) : TileFrame s u :=
  Eq.trans htu
    (congrArg (fun v : State => { v with dst := u.dst, raced := u.raced, blkX := u.blkX, blkY := u.blkY }) hst)

theorem writePixels_frame (l : List (Fin 64)) (s : State) : TileFrame s (writePixels l s).state := by
  induction l generalizing s with
  | nil => rfl
  | cons i rest ih =>
    unfold writePixels
    split
    · split
      · rfl
      next v _ => exact TileFrame.trans (t := s.memWrite (s.pixelAddr i) v) rfl (ih _)
    · exact ih s

theorem advanceTile_frame (s : State) : TileFrame s s.advanceTile := by
  unfold State.advanceTile
  split
  · rfl
  · rfl

/-- The write of a tile changes only the destination space and the tile (45_block.md rule R179). -/
theorem writeTile_frame (s : State) : TileFrame s (writeTile s).state :=
  bind_state_of (P := TileFrame s) (writePixels_frame tilePixels s) fun u _ hu => hu.trans (advanceTile_frame u)

theorem wrblk_frame (s : State) : TileFrame s (wrblk s).state := by
  unfold wrblk withGeometry
  split
  · rfl
  · exact writeTile_frame s

/-- A plane writes no other plane's samples and accumulator (43_plane.md rule R147). -/
theorem plane_other {p q : Plane} (h : q ≠ p) (s : State) :
    (plane p s).state.plane[q] = s.plane[q] ∧ (plane p s).state.dc[q] = s.dc[q] := by
  have hdcdec : (dcdec p s).plane = s.plane := (congrArg State.plane (dcdec_dcFrame p s) :)
  unfold plane
  dsimp only
  split
  · refine ⟨?_, dcdec_dc_other h s⟩
    rw [← hdcdec]
    exact setPlane_plane_other h (dcdec p s) _
  · refine bind_state_of (P := fun u => u.plane[q] = s.plane[q] ∧ u.dc[q] = s.dc[q])
      (bind_state_of (P := fun u => u.plane[q] = s.plane[q] ∧ u.dc[q] = s.dc[q]) ?_ fun u _ hu => ?_)
      fun u _ hu => ?_
    · have hent := eq_of_forgetDecode (entdec_forgetDecode p (dcdec p s))
      rw [show (entdec p (dcdec p s)).state.plane = s.plane from (congrArg State.plane hent :).trans hdcdec,
        show (entdec p (dcdec p s)).state.dc = (dcdec p s).dc from (congrArg State.dc hent :)]
      exact ⟨rfl, dcdec_dc_other h s⟩
    · rw [show (idctr u).state.plane = u.plane from (congrArg State.plane (idctr_frame u) :),
        show (idctr u).state.dc = u.dc from (congrArg State.dc (idctr_frame u) :)]
      exact hu
    · rw [idctc_plane_other h, show (idctc p u).state.dc = u.dc from (congrArg State.dc (idctc_frame p u) :)]
      exact hu

/-! ### The work of each command -/

/-- Only what the command writes differs; the planes and accumulators are told apart by `commandWork_plane` and
`commandWork_dc`. -/
def Footprint (i : Instr) (s u : State) : Prop :=
  u = { s with
    pos := if movesPos i then u.pos else s.pos
    result := if writesResult i then u.result else s.result
    coef := if writesCoef i then u.coef else s.coef
    tmp := if writesTmp i then u.tmp else s.tmp
    pix := if writesPix i then u.pix else s.pix
    blkX := if writesBlk i then u.blkX else s.blkX
    blkY := if writesBlk i then u.blkY else s.blkY
    status := { s.status with
      fill := if writesFill i then u.status.fill else s.status.fill
      pastEnd := if writesPastEnd i then u.status.pastEnd else s.status.pastEnd }
    pageValid := if touchesPage i then u.pageValid else s.pageValid
    pageBase := if touchesPage i then u.pageBase else s.pageBase
    page := if touchesPage i then u.page else s.page
    dc := u.dc, plane := u.plane, dst := u.dst, raced := u.raced, draws := u.draws, memReads := u.memReads }

theorem footprint_of_eq {i : Instr} {s u v : State} (h : u = v) (hv : Footprint i s v) : Footprint i s u := h ▸ hv

theorem commandWork_footprint {i : Instr} (hi : i ≠ .srst) (s : State) : Footprint i s (commandWork i s).state := by
  cases i with
  | srst => exact absurd rfl hi
  | nop | fill p => rfl
  | bread n => exact footprint_of_eq (bread_frame n s) rfl
  | dcdec p => exact footprint_of_eq (dcdec_dcFrame p s) rfl
  | entdec p => exact footprint_of_eq (eq_of_forgetDecode (entdec_forgetDecode p s)) rfl
  | idctr => exact footprint_of_eq (idctr_frame s) rfl
  | idctc p => exact footprint_of_eq (idctc_frame p s) rfl
  | plane p => exact footprint_of_eq (eq_of_forgetPlane (plane_forgetPlane p s)) rfl
  | cconv => exact footprint_of_eq (cconv_frame s) rfl
  | wrblk => exact footprint_of_eq (wrblk_frame s) rfl
  | block | image => exact footprint_of_eq (commandWork_frame hi s) rfl

theorem ne_of_beq_eq_false {p q : Plane} (h : (p == q) = false) : q ≠ p := fun e => by simp [e] at h

theorem commandWork_plane {q : Plane} {i : Instr} (hq : writesPlane q i = false) (s : State) :
    (commandWork i s).state.plane[q] = s.plane[q] := by
  have hplane {u : State} (h : u.plane = s.plane) : u.plane[q] = s.plane[q] := by rw [h]
  cases i with
  | nop | srst => rfl
  | bread n => exact hplane (congrArg State.plane (bread_frame n s) :)
  | dcdec p => exact hplane (congrArg State.plane (dcdec_dcFrame p s) :)
  | fill p => exact setPlane_plane_other (ne_of_beq_eq_false hq) s _
  | entdec p => exact hplane (congrArg State.plane (eq_of_forgetDecode (entdec_forgetDecode p s)) :)
  | idctr => exact hplane (congrArg State.plane (idctr_frame s) :)
  | idctc p => exact idctc_plane_other (ne_of_beq_eq_false hq) s
  | plane p => exact (plane_other (ne_of_beq_eq_false hq) s).1
  | cconv => exact hplane (congrArg State.plane (cconv_frame s) :)
  | wrblk => exact hplane (congrArg State.plane (wrblk_frame s) :)
  | block | image => cases hq

theorem commandWork_dc {q : Plane} {i : Instr} (hq : writesDc q i = false) (s : State) :
    (commandWork i s).state.dc[q] = s.dc[q] := by
  have hdc {u : State} (h : u.dc = s.dc) : u.dc[q] = s.dc[q] := by rw [h]
  cases i with
  | nop | fill p => rfl
  | bread n => exact hdc (congrArg State.dc (bread_frame n s) :)
  | dcdec p => exact dcdec_dc_other (ne_of_beq_eq_false hq) s
  | entdec p => exact hdc (congrArg State.dc (eq_of_forgetDecode (entdec_forgetDecode p s)) :)
  | idctr => exact hdc (congrArg State.dc (idctr_frame s) :)
  | idctc p => exact hdc (congrArg State.dc (idctc_frame p s) :)
  | plane p => exact (plane_other (ne_of_beq_eq_false hq) s).2
  | cconv => exact hdc (congrArg State.dc (cconv_frame s) :)
  | wrblk => exact hdc (congrArg State.dc (wrblk_frame s) :)
  | srst | block | image => cases hq

/-- CTRL.ALPHA is 0 and the alpha plane is as it was, its samples and its accumulator. -/
def KeepsAlpha (s u : State) : Prop :=
  u.ctrl.alpha = false ∧ u.plane[(3 : Plane)] = s.plane[(3 : Plane)] ∧ u.dc[(3 : Plane)] = s.dc[(3 : Plane)]

/-- Without CTRL.ALPHA a block does not decode the alpha plane (45_block.md rule R182). -/
theorem block_keepsAlpha {s : State} (h : s.ctrl.alpha = false) : KeepsAlpha s (block s).state := by
  have hplane (p : Plane) (hp : (3 : Plane) ≠ p) (u : State) (hu : KeepsAlpha s u) : KeepsAlpha s (plane p u).state := by
    obtain ⟨halpha, hsamples, hdc⟩ := hu
    obtain ⟨hsamples', hdc'⟩ := plane_other hp u
    exact ⟨(congrArg (fun v : State => v.ctrl.alpha) (plane_forgetPlane p u) :).trans halpha, hsamples'.trans hsamples,
      hdc'.trans hdc⟩
  have halphaPlane (u : State) (hu : KeepsAlpha s u) : KeepsAlpha s (alphaPlane u).state := by
    rw [alphaPlane, hu.1, if_neg Bool.false_ne_true]
    exact hu
  have hcconv (u : State) (hu : KeepsAlpha s u) : KeepsAlpha s (cconv u).state := by rw [cconv_frame]; exact hu
  have htile (u : State) (hu : KeepsAlpha s u) : KeepsAlpha s (writeTile u).state := by
    rw [show (writeTile u).state = _ from writeTile_frame u]
    exact hu
  have hs : KeepsAlpha s s := ⟨h, rfl, rfl⟩
  unfold block withGeometry
  split
  · exact hs
  · exact bind_state_of (P := KeepsAlpha s) (bind_state_of (P := KeepsAlpha s) (bind_state_of (P := KeepsAlpha s)
      (bind_state_of (P := KeepsAlpha s) (bind_state_of (P := KeepsAlpha s) (hplane 0 (by decide) s hs)
        fun u _ => hplane 1 (by decide) u) fun u _ => hplane 2 (by decide) u) fun u _ => halphaPlane u)
      fun u _ => hcconv u) fun u _ => htile u

/-! ### The end of a command -/

/-- Only the commands that write COEF can raise a data error (60_exceptions.md rules R205 and R206). -/
theorem commandWork_raises_noData {i : Instr} (hi : writesCoef i = false) (s : State) :
    (commandWork i s).Raises (fun code => code.isData = false) := by
  cases i with
  | nop | srst | dcdec p | fill p => exact Res.raises_ok
  | bread n =>
    unfold commandWork bread
    dsimp only
    split
    · exact Res.raises_ok
    · exact Res.raises_err rfl
  | idctr => exact idctr_raises s
  | idctc p => exact idctc_raises p s
  | cconv => exact cconv_raises s
  | wrblk =>
    unfold commandWork wrblk withGeometry
    dsimp only
    split
    · exact Res.raises_err rfl
    · exact writeTile_raises s
  | entdec p | plane p | block | image => cases hi

theorem commandWork_raises_nothing {i : Instr} (hi : canRaise i = false) (s : State) :
    (commandWork i s).Raises (fun _ => False) := by
  cases i with
  | nop | srst | dcdec p | fill p => exact Res.raises_ok
  | idctr => exact idctr_raises s
  | idctc p => exact idctc_raises p s
  | cconv => exact cconv_raises s
  | bread n | entdec p | plane p | wrblk | block | image => cases hi

/-- What neither the completion nor an error of the command changes is as the work has left it. -/
theorem exec_field {α : Type} (f : State → α) {P : ErrCode → Prop} {i : Instr} {s t : State}
    (hraises : (commandWork i s).Raises P) (hcomplete : ∀ u, f (State.complete u) = f u)
    (herror : ∀ u code info, P code → f (u.takeError code info (commandWrites i s)) = f u) (h : exec i s = .next t) :
    f t = f (commandWork i s).state := by
  obtain ⟨u, hu, rfl⟩ | ⟨code, info, u, hu, rfl⟩ := exec_eq_next_iff.1 h
  · rw [hu]
    exact hcomplete u
  · rw [hu]
    exact herror u code info (hraises code info u hu)

/-- A command that can raise no data error leaves what its work has left, but for STATUS and ERRINFO. -/
theorem exec_field_of_noData {α : Type} (f : State → α) {i : Instr} {s t : State} (hi : writesCoef i = false)
    (hcomplete : ∀ u, f (State.complete u) = f u) (hraise : ∀ u code info, f (State.raise u code info) = f u)
    (h : exec i s = .next t) : f t = f (commandWork i s).state :=
  exec_field f (commandWork_raises_noData hi s) hcomplete
    (fun u code info hcode => (congrArg f (takeError_of_not_isData hcode u info _)).trans (hraise u code info)) h

/-- A register or buffer that the command could not write is not clobbered by its data error either
(60_exceptions.md rule R210). -/
theorem exec_field_of_clobber {α : Type} (f : State → α) {i : Instr} {s t : State}
    (hcomplete : ∀ u, f (State.complete u) = f u) (hraise : ∀ u code info, f (State.raise u code info) = f u)
    (hclobber : ∀ u, f (State.clobber u (commandWrites i s)) = f u) (h : exec i s = .next t) :
    f t = f (commandWork i s).state := by
  refine exec_field f (P := fun _ => True) (fun _ _ _ _ => trivial) hcomplete (fun u code info _ => ?_) h
  unfold State.takeError
  split
  · exact (hraise _ _ _).trans (hclobber u)
  · exact hraise _ _ _

theorem clobber_tmp {w : Writes} (h : w.tmp = false) (u : State) : (u.clobber w).tmp = u.tmp := by
  simp [State.clobber, h]

theorem clobber_pix {w : Writes} (h : w.pix = false) (u : State) : (u.clobber w).pix = u.pix := by
  simp [State.clobber, h]

theorem clobber_tile {w : Writes} (h : w.blk = false) (u : State) :
    (u.clobber w).blkX = u.blkX ∧ (u.clobber w).blkY = u.blkY := by
  simp [State.clobber, h]

theorem clobber_fill {w : Writes} (h : w.fill = false) (u : State) : (u.clobber w).status.fill = u.status.fill := by
  simp [State.clobber, h]

theorem clobber_dc {w : Writes} {q : Plane} (h : w.dc q = false) (u : State) : (u.clobber w).dc[q] = u.dc[q] := by
  simp only [State.clobber, getElem_tab_fin, h, Bool.false_eq_true, if_false]

theorem clobber_plane {w : Writes} {q : Plane} (h : w.plane q = false) (u : State) :
    (u.clobber w).plane[q] = u.plane[q] := by
  simp only [State.clobber, getElem_tab_fin, h, Bool.false_eq_true, if_false]

/-- A command that ends without an error completed. -/
theorem completed_of_noError {i : Instr} {s t : State} (h : exec i s = .next t) (hok : t.status.err = false) :
    ∃ u, commandWork i s = .ok u ∧ t = u.complete := by
  obtain hdone | ⟨code, info, u, _, rfl⟩ := exec_eq_next_iff.1 h
  · exact hdone
  · cases hok

/-! ### Each register, buffer and space -/

/-- A command that does not move POS is not SRST and can raise no data error. -/
theorem of_not_movesPos {i : Instr} (hi : movesPos i = false) : i ≠ .srst ∧ writesCoef i = false := by
  cases i with
  | srst | dcdec p | entdec p | plane p | block | image => cases hi
  | _ => exact ⟨nofun, rfl⟩

theorem not_movesPos_of_not_writesResult {i : Instr} (hi : writesResult i = false) : movesPos i = false := by
  cases i with
  | bread n => rfl
  | _ => exact hi

theorem not_movesPos_of_not_writesPastEnd {i : Instr} (hi : writesPastEnd i = false) : movesPos i = false := by
  cases i with
  | bread n => rfl
  | _ => exact hi

theorem not_movesPos_of_not_touchesPage {i : Instr} (hi : touchesPage i = false) : movesPos i = false := by
  cases i with
  | bread n => rfl
  | _ => exact hi

theorem exec_dst {i : Instr} {s t : State} (hi : storesPixels i = false) (h : exec i s = .next t) : t.dst = s.dst :=
  (exec_memories h).2.trans (commandWork_dst hi s)

/-- STATUS.OVR is the host's; of the commands only SRST clears it (10_state.md rule R23). -/
theorem exec_ovr {i : Instr} {s t : State} (hi : i ≠ .srst) (h : exec i s = .next t) : t.status.ovr = s.status.ovr :=
  (exec_field_of_clobber (fun u : State => u.status.ovr) (fun _ => rfl) (fun _ _ _ => rfl) (fun _ => rfl) h).trans
    (congrArg (fun u : State => u.status.ovr) (commandWork_footprint hi s) :)

theorem exec_pos {i : Instr} {s t : State} (hi : movesPos i = false) (h : exec i s = .next t) : t.pos = s.pos := by
  obtain ⟨hsrst, hdata⟩ := of_not_movesPos hi
  have hwork := (congrArg State.pos (commandWork_footprint hsrst s) :)
  rw [hi] at hwork
  exact (exec_field_of_noData State.pos hdata (fun _ => rfl) (fun _ _ _ => rfl) h).trans hwork

theorem exec_result {i : Instr} {s t : State} (hi : writesResult i = false) (h : exec i s = .next t) :
    t.result = s.result := by
  obtain ⟨hsrst, hdata⟩ := of_not_movesPos (not_movesPos_of_not_writesResult hi)
  have hwork := (congrArg State.result (commandWork_footprint hsrst s) :)
  rw [hi] at hwork
  exact (exec_field_of_noData State.result hdata (fun _ => rfl) (fun _ _ _ => rfl) h).trans hwork

theorem exec_pastEnd {i : Instr} {s t : State} (hi : writesPastEnd i = false) (h : exec i s = .next t) :
    t.status.pastEnd = s.status.pastEnd := by
  obtain ⟨hsrst, hdata⟩ := of_not_movesPos (not_movesPos_of_not_writesPastEnd hi)
  have hwork := (congrArg (fun u : State => u.status.pastEnd) (commandWork_footprint hsrst s) :)
  rw [hi] at hwork
  exact (exec_field_of_noData (fun u : State => u.status.pastEnd) hdata (fun _ => rfl) (fun _ _ _ => rfl) h).trans hwork

theorem exec_page {i : Instr} {s t : State} (hi : touchesPage i = false) (h : exec i s = .next t) :
    t.pageValid = s.pageValid ∧ t.pageBase = s.pageBase ∧ t.page = s.page := by
  obtain ⟨hsrst, hdata⟩ := of_not_movesPos (not_movesPos_of_not_touchesPage hi)
  have hfoot := commandWork_footprint hsrst s
  unfold Footprint at hfoot
  rw [hi] at hfoot
  exact ⟨(exec_field_of_noData State.pageValid hdata (fun _ => rfl) (fun _ _ _ => rfl) h).trans
      (congrArg State.pageValid hfoot :),
    (exec_field_of_noData State.pageBase hdata (fun _ => rfl) (fun _ _ _ => rfl) h).trans
      (congrArg State.pageBase hfoot :),
    (exec_field_of_noData State.page hdata (fun _ => rfl) (fun _ _ _ => rfl) h).trans (congrArg State.page hfoot :)⟩

theorem exec_coef {i : Instr} {s t : State} (hi : writesCoef i = false) (h : exec i s = .next t) : t.coef = s.coef := by
  refine (exec_field_of_noData State.coef hi (fun _ => rfl) (fun _ _ _ => rfl) h).trans ?_
  by_cases hsrst : i = .srst
  · rw [hsrst]; rfl
  · have hwork := (congrArg State.coef (commandWork_footprint hsrst s) :)
    rw [hi] at hwork
    exact hwork

theorem exec_tmp {i : Instr} {s t : State} (hi : writesTmp i = false) (h : exec i s = .next t) : t.tmp = s.tmp := by
  have hw : (commandWrites i s).tmp = false := by
    cases i with
    | plane p | block | image => cases hi
    | _ => rfl
  refine (exec_field_of_clobber State.tmp (fun _ => rfl) (fun _ _ _ => rfl) (clobber_tmp hw) h).trans ?_
  by_cases hsrst : i = .srst
  · rw [hsrst]; rfl
  · have hwork := (congrArg State.tmp (commandWork_footprint hsrst s) :)
    rw [hi] at hwork
    exact hwork

theorem exec_pix {i : Instr} {s t : State} (hi : writesPix i = false) (h : exec i s = .next t) : t.pix = s.pix := by
  have hw : (commandWrites i s).pix = false := by
    cases i with
    | block | image => cases hi
    | _ => rfl
  refine (exec_field_of_clobber State.pix (fun _ => rfl) (fun _ _ _ => rfl) (clobber_pix hw) h).trans ?_
  by_cases hsrst : i = .srst
  · rw [hsrst]; rfl
  · have hwork := (congrArg State.pix (commandWork_footprint hsrst s) :)
    rw [hi] at hwork
    exact hwork

theorem exec_tile {i : Instr} {s t : State} (hi : writesBlk i = false) (h : exec i s = .next t) :
    t.blkX = s.blkX ∧ t.blkY = s.blkY := by
  have hw : i ≠ .srst ∧ (commandWrites i s).blk = false := by
    cases i with
    | srst | block | image => cases hi
    | _ => exact ⟨nofun, rfl⟩
  have hfoot := commandWork_footprint hw.1 s
  unfold Footprint at hfoot
  rw [hi] at hfoot
  exact ⟨(exec_field_of_clobber State.blkX (fun _ => rfl) (fun _ _ _ => rfl) (fun u => (clobber_tile hw.2 u).1) h).trans
      (congrArg State.blkX hfoot :),
    (exec_field_of_clobber State.blkY (fun _ => rfl) (fun _ _ _ => rfl) (fun u => (clobber_tile hw.2 u).2) h).trans
      (congrArg State.blkY hfoot :)⟩

theorem exec_fill_flag {i : Instr} {s t : State} (hi : writesFill i = false) (h : exec i s = .next t) :
    t.status.fill = s.status.fill := by
  have hw : i ≠ .srst ∧ (commandWrites i s).fill = false := by
    cases i with
    | srst | plane p | block | image => cases hi
    | _ => exact ⟨nofun, rfl⟩
  have hwork := (congrArg (fun u : State => u.status.fill) (commandWork_footprint hw.1 s) :)
  rw [hi] at hwork
  exact (exec_field_of_clobber (fun u : State => u.status.fill) (fun _ => rfl) (fun _ _ _ => rfl) (clobber_fill hw.2)
    h).trans hwork

theorem exec_plane {q : Plane} {i : Instr} {s t : State} (hi : writesPlane q i = false) (h : exec i s = .next t) :
    t.plane[q] = s.plane[q] := by
  have hw : (commandWrites i s).plane q = false := by
    cases i with
    | plane p => exact beq_eq_false_iff_ne.2 (ne_of_beq_eq_false hi)
    | block | image => cases hi
    | _ => rfl
  exact (exec_field_of_clobber (fun u : State => u.plane[q]) (fun _ => rfl) (fun _ _ _ => rfl) (clobber_plane hw) h).trans
    (commandWork_plane hi s)

theorem exec_dc {q : Plane} {i : Instr} {s t : State} (hi : writesDc q i = false) (h : exec i s = .next t) :
    t.dc[q] = s.dc[q] := by
  have hw : (commandWrites i s).dc q = false := by
    cases i with
    | plane p => exact beq_eq_false_iff_ne.2 (ne_of_beq_eq_false hi)
    | block | image => cases hi
    | _ => rfl
  exact (exec_field_of_clobber (fun u : State => u.dc[q]) (fun _ => rfl) (fun _ _ _ => rfl) (clobber_dc hw) h).trans
    (commandWork_dc hi s)

/-- A command other than SRST that ends without an error keeps ERRINFO, and a PAST_END that is set (10_state.md rules R23
and R32). -/
theorem exec_noError {i : Instr} {s t : State} (hi : i ≠ .srst) (h : exec i s = .next t) (hok : t.status.err = false) :
    t.errinfo = s.errinfo ∧ (s.status.pastEnd = true → t.status.pastEnd = true) := by
  obtain ⟨u, hu, rfl⟩ := completed_of_noError h hok
  have hfoot := commandWork_footprint hi s
  have hsteps := commandWork_steps i s
  rw [hu] at hfoot hsteps
  have hstart : (workStart i s).status = s.status := by
    unfold workStart
    split
    · exact absurd rfl hi
    · split
      · rfl
      · rfl
    · rfl
  exact ⟨(congrArg State.errinfo hfoot :), fun hpast => hsteps.pastEnd (by rw [hstart]; exact hpast)⟩

/-- A command other than SRST that cannot raise keeps what an error would record (60_exceptions.md rule R201). -/
theorem exec_cannotRaise {i : Instr} {s t : State} (hi : i ≠ .srst) (hraise : canRaise i = false)
    (h : exec i s = .next t) :
    t.errinfo = s.errinfo ∧ t.status.err = s.status.err ∧ t.status.code = s.status.code := by
  have hfoot := commandWork_footprint hi s
  obtain ⟨u, hu, rfl⟩ | ⟨code, info, u, hu, rfl⟩ := exec_eq_next_iff.1 h
  · rw [hu] at hfoot
    exact ⟨(congrArg State.errinfo hfoot :), (congrArg (fun v : State => v.status.err) hfoot :),
      (congrArg (fun v : State => v.status.code) hfoot :)⟩
  · exact (commandWork_raises_nothing hraise s code info u hu).elim

/-- Without CTRL.ALPHA a BLOCK leaves the alpha plane, however it ends (45_block.md rule R182; log entry 11). -/
theorem exec_block_alpha {s t : State} (halpha : s.ctrl.alpha = false) (h : exec .block s = .next t) :
    t.plane[(3 : Plane)] = s.plane[(3 : Plane)] ∧ t.dc[(3 : Plane)] = s.dc[(3 : Plane)] := by
  have hw : s.blockPlane 3 = false := by simp [State.blockPlane, halpha]
  obtain ⟨_, hsamples, hdc⟩ := block_keepsAlpha halpha
  exact ⟨(exec_field_of_clobber (fun u : State => u.plane[(3 : Plane)]) (fun _ => rfl) (fun _ _ _ => rfl)
      (clobber_plane (w := blockWrites s) (q := 3) hw) h).trans hsamples,
    (exec_field_of_clobber (fun u : State => u.dc[(3 : Plane)]) (fun _ => rfl) (fun _ _ _ => rfl)
      (clobber_dc (w := blockWrites s) (q := 3) hw) h).trans hdc⟩

/-- Settles O47: `exec_sameConstants` for what no command writes, and one lemma for each register, buffer and space. -/
theorem commandFootprints : Obligations.CommandFootprints := by
  intro i s t h
  have hc := exec_sameConstants h
  refine ⟨⟨hc.ctrl, hc.cmd, hc.arg0, hc.winOrg, hc.winLen, hc.imgW, hc.imgH, hc.dstBase, hc.rom, hc.src, hc.inReset,
    hc.inputs, hc.portData, hc.lateW1C, hc.lateOvr⟩, ?_⟩
  exact ⟨fun hi => exec_dst hi h, fun hi => exec_ovr hi h, fun hi => exec_pos hi h, fun hi => exec_result hi h,
    fun hi => exec_coef hi h, fun hi => exec_tmp hi h, fun _ hi => exec_plane hi h, fun _ hi => exec_dc hi h,
    fun hi => exec_pix hi h, fun hi => exec_tile hi h, fun hi => exec_fill_flag hi h, fun hi => exec_pastEnd hi h,
    fun hi hok => exec_noError hi h hok, fun hi hraise => exec_cannotRaise hi hraise h, fun hi => exec_page hi h,
    fun hi halpha => exec_block_alpha halpha (hi ▸ h)⟩

end Sys2Proof.Machine
end

section
/-! The page, the pixels and the reset input over whole commands: what makes a page invalid (20_memory.md rule R59), where the
stores of a command go (45_block.md rule R180), and which bytes a command that reset cuts short can leave
(70_reset_and_hazards.md rule R227). -/

namespace Sys2Proof.Machine

open Sys2Proof.Spec

/-! ### The page -/

theorem portWrite_window_pageValid {s : State} (hidle : s.status.busy = false) {r : PortReg}
    (hr : r = .winOrg ∨ r = .winLen) (v : Word) : (s.portWrite r v).pageValid = false := by
  rw [State.portWrite, hidle, if_neg Bool.false_ne_true]
  obtain rfl | rfl := hr
  · rfl
  · rfl

/-- A command other than SRST and IMAGE that completes keeps a valid page. -/
theorem exec_keeps_pageValid {i : Instr} {s t : State} (hsrst : i ≠ .srst) (himage : i ≠ .image)
    (hvalid : s.pageValid = true) (h : exec i s = .next t) (hok : t.status.err = false) : t.pageValid = true := by
  obtain ⟨u, hu, rfl⟩ := completed_of_noError h hok
  have hsteps := commandWork_steps i s
  have hstart : workStart i s = s := by
    unfold workStart
    split
    · exact absurd rfl hsrst
    · exact absurd rfl himage
    · rfl
  rw [hu, hstart] at hsteps
  exact hsteps.pageValid hvalid

/-- Settles O54: the four ways to make the page invalid by definition, the rest by `exec_keeps_pageValid`. -/
theorem pageIsInvalidated : Obligations.PageIsInvalidated := by
  intro s
  refine ⟨fun v hidle => ⟨portWrite_window_pageValid hidle (.inl rfl) v, portWrite_window_pageValid hidle (.inr rfl) v⟩,
    ⟨_, exec_srst s, rfl⟩, rfl, rfl, fun i t hsrst himage hvalid _ h hok => ?_⟩
  exact exec_keeps_pageValid hsrst himage hvalid h hok

/-! ### The stores of a command -/

/-- Address `a` is no byte of the packed image (45_block.md rule R180). -/
def OutsideImage (s : State) (a : Nat) : Prop :=
  ∀ px py : Nat, px < s.imgW.toNat → py < s.imgH.toNat → ∀ k : Fin 4,
    a ≠ byteAddr (s.dstBase + BitVec.ofNat 32 (4 * (py * s.imgW.toNat + px))) k

/-- The pixel of a tile that is inside the image lies in the packed image. -/
theorem memWrite_pixel_outside {s : State} {i : Fin 64} (hin : s.pixelInside i = true) (v : Word) {a : Nat}
    (ha : OutsideImage s a) : (s.memWrite (s.pixelAddr i) v).dst.read a = s.dst.read a := by
  obtain ⟨hx, hy⟩ := Bool.and_eq_true_iff.1 hin
  exact memWrite_read_other (ha _ _ (of_decide_eq_true hx) (of_decide_eq_true hy))

theorem outsideImage_congr {s t : State} (hw : t.imgW = s.imgW) (hh : t.imgH = s.imgH) (hb : t.dstBase = s.dstBase)
    {a : Nat} (h : OutsideImage s a) : OutsideImage t a := by
  unfold OutsideImage
  rw [hw, hh, hb]
  exact h

theorem WorkStep.outsideImage {s t : State} (h : WorkStep s t) {a : Nat} (ha : OutsideImage s a) :
    OutsideImage t a ∧ t.dst.read a = s.dst.read a := by
  have hsame := h.workFrame.sameConstants
  refine ⟨outsideImage_congr hsame.imgW hsame.imgH hsame.dstBase ha, ?_⟩
  cases h with
  | read off => rw [afterRead_dst]
  | store v hin => exact memWrite_pixel_outside hin v ha
  | registers hset => exact (congrArg (fun u : State => u.dst.read a) hset.frame :)

theorem WorkSteps.outsideImage {s t : State} (h : WorkSteps s t) {a : Nat} (ha : OutsideImage s a) :
    t.dst.read a = s.dst.read a := by
  refine (h.keeps (P := fun u => OutsideImage u a ∧ u.dst.read a = s.dst.read a) (fun u v hlast hu => ?_) ⟨ha, rfl⟩).2
  obtain ⟨hout, hread⟩ := hlast.outsideImage hu.1
  exact ⟨hout, hread.trans hu.2⟩

theorem workStart_outsideImage {s : State} {a : Nat} (h : OutsideImage s a) (i : Instr) : OutsideImage (workStart i s) a := by
  unfold workStart
  split
  · exact h
  · split
    · exact h
    · exact h
  · exact h

/-- Settles O44: every store of the work is a pixel of the image, and its end stores nothing. -/
theorem storesStayInsideImage : Obligations.StoresStayInsideImage := by
  intro i s t _ _ h a ha
  rw [(exec_memories h).2, (commandWork_steps i s).outsideImage (workStart_outsideImage ha i), workStart_dst]

/-! ### A command that reset cuts short -/

/-- A mixed byte is the old one or the new one (70_reset_and_hazards.md rule R227). -/
theorem mixBytes_read {draw : Nat} {new : Memory} {l : List Nat} (hl : ∀ x ∈ l, x < 2 ^ 32) {m : Memory}
    (hm : m.wf = true) (a : Nat) :
    (mixBytes draw new l m).read a = m.read a ∨ (mixBytes draw new l m).read a = new.read a := by
  induction l generalizing m with
  | nil => exact .inl rfl
  | cons x rest ih =>
    have hrest : ∀ y ∈ rest, y < 2 ^ 32 := fun y hy => hl y (List.mem_cons_of_mem _ hy)
    unfold mixBytes
    split
    · obtain hold | hnew := ih hrest (Memory.wf_write_nat (new.read x) (hl x List.mem_cons_self) hm)
      · rw [hold]
        by_cases ha : a = x
        · rw [ha]
          exact .inr (Memory.read_write_same_of_wf x _ hm)
        · exact .inl (Memory.read_write_other _ ha)
      · exact .inr hnew
    · exact ih hrest hm

theorem commandDst_wf {s : State} (h : s.dst.wf = true) (i : Instr) : (commandDst i s).wf = true := by
  rw [commandDst_eq]
  exact commandWork_dst_wf h i

theorem assertReset_read {s : State} {i : Instr} (hwf : s.dst.wf = true) (hbusy : s.status.busy = true)
    (hi : decode s.cmd = .ok i) (a : Nat) :
    s.assertReset.dst.read a = s.dst.read a ∨ s.assertReset.dst.read a = (commandDst i s).read a := by
  have hdst : s.assertReset.dst =
      mixBytes s.draws (commandDst i s) ((commandDst i s).map Prod.fst ++ s.dst.map Prod.fst) s.dst := by
    have hfetch : decode s.fetchWord = .ok i := hi
    change s.dstAfterReset = _
    rw [State.dstAfterReset, if_pos hbusy, hfetch]
  rw [hdst]
  refine mixBytes_read (fun x hx => ?_) hwf a
  obtain hmem | hmem := List.mem_append.1 hx
  · exact Memory.lt_of_mem_of_wfFrom (commandDst_wf hwf i) hmem
  · exact Memory.lt_of_mem_of_wfFrom hwf hmem

/-- When the engine does not move, the first pending host action does. -/
theorem step_of_input {s : State} {op : HostOp} {early : Bool} {rest : List Input} (hturn : s.engineTurn = false)
    (hin : s.inputs = { op := op, early := early } :: rest) : step s = hostStep op { s with inputs := rest } := by
  rw [step, hturn, if_neg Bool.false_ne_true, hin]

/-- An early action comes before the engine's step (log entry 4). -/
theorem engineTurn_of_early {s : State} {op : HostOp} {rest : List Input}
    (hin : s.inputs = { op := op, early := true } :: rest) : s.engineTurn = false := by
  rw [State.engineTurn, hin]
  exact Bool.and_false _

/-- Settles O50: the reset mixes the old bytes with those the work leaves, which the end of the command keeps. -/
theorem resetCutMixesBytes : Obligations.ResetCutMixesBytes := by
  intro s t i rest hwf hbusy hi hin h
  have hstep : step s = .next (State.assertReset { s with inputs := rest }) := step_of_input (engineTurn_of_early hin) hin
  cases hstep.symm.trans h
  refine ⟨assertReset_read (s := { s with inputs := rest }) hwf hbusy hi, fun u hu a => ?_⟩
  rw [commandDst_eq, (exec_memories hu).2]

end Sys2Proof.Machine
end

section
/-! The lifecycle of a command as host and engine see it (40_control.md rules R90 to R95). -/

namespace Sys2Proof.Machine

open Sys2Proof.Spec

/-! ### Whose turn it is -/

theorem engineTurn_of_idle {s : State} (h : s.status.busy = false) : s.engineTurn = false := by
  rw [State.engineTurn, h]
  rfl

theorem engineTurn_of_inReset {s : State} (h : s.inReset = true) : s.engineTurn = false := by
  rw [State.engineTurn, h, Bool.not_true, Bool.and_false, Bool.false_and]

/-- Settles O5: the engine's step decodes CMD and runs the command, and a late write settles after it. -/
theorem stepRunsDecodedCommand : Obligations.StepRunsDecodedCommand := by
  intro s i hturn _ hi
  have hfetch : decode s.fetchWord = .ok i := hi
  have hengine : engineStep s = exec i s := by rw [engineStep, hfetch]
  rw [step, if_pos hturn, hengine]

/-! ### Port writes -/

/-- An aligned 32-bit write reaches the register at its offset when reset is released (20_memory.md rule R69). -/
theorem hostStep_write {s : State} (hreset : s.inReset = false) {off : BitVec 12} (ha : off.toNat % 4 = 0) (v : Word) :
    hostStep (.write off 4 v) s = .next (s.portWrite (portReg off) v) := by
  have haligned : portAligned off 4 = true := Bool.and_eq_true_iff.2 ⟨rfl, decide_eq_true ha⟩
  rw [hostStep, hreset, if_neg Bool.false_ne_true, if_pos haligned]

theorem portWrite_idle {s : State} (h : s.status.busy = false) (r : PortReg) (v : Word) :
    s.portWrite r v = s.writeReg v r := by
  rw [State.portWrite, h, if_neg Bool.false_ne_true]

/-- A pending write that the engine does not come before. -/
theorem step_write {s : State} {off : BitVec 12} {v : Word} {early : Bool} {rest : List Input}
    (hturn : s.engineTurn = false) (hin : s.inputs = { op := .write off 4 v, early := early } :: rest)
    (hreset : s.inReset = false) (ha : off.toNat % 4 = 0) :
    step s = .next (State.portWrite { s with inputs := rest } (portReg off) v) :=
  (step_of_input hturn hin).trans (hostStep_write (s := { s with inputs := rest }) hreset ha v)

theorem step_write_idle {s : State} {off : BitVec 12} {v : Word} {early : Bool} {rest : List Input}
    (hin : s.inputs = { op := .write off 4 v, early := early } :: rest) (hreset : s.inReset = false)
    (hidle : s.status.busy = false) (ha : off.toNat % 4 = 0) :
    step s = .next (State.writeReg { s with inputs := rest } v (portReg off)) :=
  (step_write (engineTurn_of_idle hidle) hin hreset ha).trans
    (congrArg Host.Outcome.next (portWrite_idle (s := { s with inputs := rest }) hidle _ v))

/-- The word is accepted while ERR = 0, and while ERR = 1 when its OP is SRST's (40_control.md rules R92 and R94). -/
theorem acceptCmd_accepted {s : State} {c : Word} (h : s.status.err = true → fieldOp c = 1) :
    s.acceptCmd c = { s with cmd := c, status := { s.status with done := false, busy := true }, session := true } := by
  refine if_neg fun hdiscard => ?_
  obtain ⟨herr, hop⟩ := Bool.and_eq_true_iff.1 hdiscard
  exact of_decide_eq_true hop (h herr)

theorem acceptCmd_discarded {s : State} {c : Word} (herr : s.status.err = true) (hop : fieldOp c ≠ 1) :
    s.acceptCmd c = s :=
  if_pos (Bool.and_eq_true_iff.2 ⟨herr, decide_eq_true hop⟩)

/-- Settles O7: without an error every word is accepted. -/
theorem commandWriteStartsEngine : Obligations.CommandWriteStartsEngine := by
  intro s c early rest hin hreset hidle herr
  have hstep := step_write_idle hin hreset hidle (by decide)
  rw [hstep]
  exact congrArg Host.Outcome.next
    (acceptCmd_accepted (s := { s with inputs := rest }) fun h => absurd (herr.symm.trans h) Bool.false_ne_true)

/-- OP as a number is 1 exactly when its byte is. -/
theorem fieldOp_eq_one_iff (c : Word) : fieldOp c = 1 ↔ c.extractLsb' 0 8 = 1#8 :=
  ⟨fun h => BitVec.eq_of_toNat_eq h, fun h => congrArg BitVec.toNat h⟩

/-- Settles O8: `acceptCmd` tells the two words apart, and both returns from an error clear ERR with ERRCODE. -/
theorem commandDiscardedAfterError : Obligations.CommandDiscardedAfterError := by
  intro s early rest hreset hidle herr
  refine ⟨fun c hin hop => ?_, fun c hin hop => ?_, ⟨_, exec_srst s, rfl, rfl⟩, fun v hin hv => ?_⟩
  · rw [step_write_idle hin hreset hidle (by decide)]
    exact congrArg Host.Outcome.next
      (acceptCmd_discarded (s := { s with inputs := rest }) herr fun h => hop ((fieldOp_eq_one_iff c).1 h))
  · rw [step_write_idle hin hreset hidle (by decide)]
    exact congrArg Host.Outcome.next
      (acceptCmd_accepted (s := { s with inputs := rest }) fun _ => (fieldOp_eq_one_iff c).2 hop)
  · refine ⟨_, step_write_idle hin hreset hidle (by decide), ?_, ?_, hidle, rfl⟩
    · exact and_not_eq_false fun _ => hv
    · exact if_pos hv

/-- Only the offset of STATUS selects STATUS (10_state.md rule R20). -/
theorem portReg_eq_status : ∀ {off : BitVec 12}, off.toNat % 4 = 0 → portReg off = .status → off = 0x004 := by
  decide +kernel

/-- Settles O9: an early write comes before the engine, and while BUSY only STATUS takes it. -/
theorem busyWriteIsDiscarded : Obligations.BusyWriteIsDiscarded := by
  intro s off v rest hin hreset hbusy ha
  refine ⟨_, step_write (engineTurn_of_early hin) hin hreset ha, ?_⟩
  rw [State.portWrite, if_pos hbusy]
  by_cases hoff : off = 0x004
  · have hreg : portReg off = .status := by rw [hoff]; decide
    rw [if_pos hreg]
    exact ⟨rfl, fun h => absurd hoff h, fun _ => rfl⟩
  · rw [if_neg fun h => hoff (portReg_eq_status ha h)]
    exact ⟨rfl, fun _ => ⟨rfl, rfl⟩, fun h => absurd h hoff⟩

/-! ### NOP, SRST and FILL -/

/-- Settles O11: the completion is all that NOP does. -/
theorem nopOnlyCompletes : Obligations.NopOnlyCompletes := fun _ => rfl

/-- Settles O12: the registers that `State.sessionReset` writes, and the completion. -/
theorem srstStartsSession : Obligations.SrstStartsSession := fun s => exec_srst s

/-- A wrapped product with `2^16` is the left shift by 16 (43_plane.md rule R145). -/
theorem shiftLeft_16_eq (x : Word) : x <<< 16 = BitVec.ofInt 32 (x.toInt * 65536) := by
  rw [BitVec.ofInt_mul, BitVec.ofInt_toInt, BitVec.shiftLeft_eq_mul_twoPow]
  rfl

theorem setPlane_plane_self (s : State) (p : Plane) (b : Cells 64) : (s.setPlane p b).plane[p] = b :=
  Vector.getElem_set_self p.isLt

theorem fillPlane_getElem (p : Plane) (s : State) (i : Fin 64) :
    (fillPlane p s).plane[p][i] = some (s.dc[p] <<< 16) := by
  rw [fillPlane, setPlane_plane_self]
  exact Vector.getElem_replicate i.isLt

/-- Settles O21: FILL writes its plane and completes. -/
theorem fillWritesDcToPlane : Obligations.FillWritesDcToPlane := by
  intro s p
  refine ⟨(fillPlane p s).complete, rfl, fun i => ?_, fun q hq => setPlane_plane_other hq s _, rfl⟩
  rw [complete_plane, fillPlane_getElem, shiftLeft_16_eq]

/-- Settles O20: with `2^n = 2 · 2^(n-1)` both ranges are linear. -/
theorem dcDeltaRange : Obligations.DcDeltaRange := by
  intro n v hn _ hv
  obtain ⟨m, rfl⟩ : ∃ m, n = m + 1 := ⟨n - 1, by omega⟩
  have hcast : ((2 ^ m : Nat) : Int) = 2 ^ m := by push_cast; rfl
  rw [Nat.add_sub_cancel, dcDelta, if_neg (by omega), Nat.add_sub_cancel]
  rw [pow_succ] at hv
  rw [pow_succ]
  refine ⟨fun hlow => ?_, fun hhigh => ?_⟩
  · rw [if_pos hlow]
    omega
  · rw [if_neg (by omega)]
    omega

end Sys2Proof.Machine
end

section
/-! Reset and the register port (10_state.md rules R20 to R23 and R41, 20_memory.md rule R69, 70_reset_and_hazards.md rules
R225 to R227). -/

namespace Sys2Proof.Machine

open Sys2Proof.Spec

/-! ### The reset state -/

/-- Settles O48: each value is the one that `State.reset` lists; the buffers hold no value in any cell. -/
theorem resetValues : Obligations.ResetValues := by
  refine ⟨rfl, rfl, rfl, rfl, rfl, rfl, rfl, rfl, rfl, rfl, rfl, rfl, rfl, rfl, fun p => ?_, rfl, rfl, rfl, fun i => ?_,
    fun i => ?_, fun p i => ?_, fun i => ?_, rfl⟩
  · exact Vector.getElem_replicate p.isLt
  · exact Vector.getElem_replicate i.isLt
  · exact Vector.getElem_replicate i.isLt
  · exact (congrArg (fun b : Cells 64 => b[i]) (Vector.getElem_replicate p.isLt)).trans (Vector.getElem_replicate i.isLt)
  · exact Vector.getElem_replicate i.isLt

/-- The reset state with the memories, the pending actions and the model's counters of `s`. -/
def resetLike (s : State) : State :=
  { State.reset with
    rom := s.rom, src := s.src, dst := s.dst, inReset := s.inReset, inputs := s.inputs, portData := s.portData
    draws := s.draws, memReads := s.memReads }

/-- An update of a core as reset leaves it is an update of the reset state. -/
theorem asReset_update {s : State} (h : AsReset s) (f : State → State) (hf : AsReset (f (resetLike s))) :
    AsReset (f s) := by
  have hs : s = resetLike s := h
  rw [hs]
  exact hf

theorem portRead_asReset {s : State} (h : AsReset s) (r : PortReg) : AsReset (s.portRead r) :=
  asReset_update h (·.portRead r) rfl

/-- Out of a session a change of a source byte is not recorded (log entry 15). -/
theorem hostSrcWrite_asReset {s : State} (h : AsReset s) (a : Word) (v : Byte) : AsReset (s.hostSrcWrite a v) := by
  have hsession : s.session = false := (congrArg State.session h :)
  unfold State.hostSrcWrite
  split
  · exact h
  · rw [if_neg (by rw [hsession]; exact Bool.false_ne_true)]
    exact asReset_update h (fun u => { u with src := s.src.write a.toNat v }) rfl

theorem HostChange.asReset {s t : State} (h : HostChange s t) (hreset : s.inReset = true) (hs : AsReset s) :
    AsReset t := by
  cases h with
  | ignored => exact hs
  | write r v hout => exact absurd (hout.symm.trans hreset) Bool.false_ne_true
  | read r => exact portRead_asReset hs r
  | source a v => exact hostSrcWrite_asReset hs a v
  | reset => rfl
  | release => exact asReset_update hs (fun u => { u with inReset := false }) rfl

theorem asReset_inputs {s : State} (h : AsReset s) (rest : List Input) : AsReset { s with inputs := rest } :=
  asReset_update h (fun u => { u with inputs := rest }) rfl

theorem asReset_busy {s : State} (h : AsReset s) : s.status.busy = false := (congrArg (fun u : State => u.status.busy) h :)

/-- While reset is asserted, whatever the host does, the core stays as reset leaves it. -/
theorem step_asReset {s t : State} (hreset : s.inReset = true) (hs : AsReset s) (h : step s = .next t) : AsReset t := by
  cases step_change h with
  | engine hbusy => exact absurd ((asReset_busy hs).symm.trans hbusy) Bool.false_ne_true
  | settled hbusy => exact absurd ((asReset_busy hs).symm.trans hbusy) Bool.false_ne_true
  | idle => exact hs
  | host rest hhost => exact hhost.asReset hreset (asReset_inputs hs rest)

/-- A port access in reset is taken and changes nothing (log entry 17). -/
theorem hostStep_inReset {s : State} (hreset : s.inReset = true) {op : HostOp}
    (hop : (∃ off n v, op = .write off n v) ∨ ∃ off n, op = .read off n) : hostStep op s = .next s := by
  obtain ⟨off, n, v, rfl⟩ | ⟨off, n, rfl⟩ := hop
  · exact if_pos hreset
  · exact if_pos hreset

/-- Settles O49: asserting reset gives the reset state, port accesses are ignored, and nothing else starts the engine. -/
theorem resetInputStopsCommand : Obligations.ResetInputStopsCommand := by
  refine ⟨fun s early rest hturn hin => ?_, fun s off n v early rest hreset hin => ?_,
    fun s t hreset hs h => step_asReset hreset hs h, fun s early rest hreset hs hin => ?_⟩
  · refine ⟨_, step_of_input hturn hin, rfl, rfl, rfl, fun hidle => ?_, rfl, rfl⟩
    exact if_neg fun hbusy => Bool.false_ne_true (hidle.symm.trans hbusy)
  · obtain hin | hin := hin
    · exact (step_of_input (engineTurn_of_inReset hreset) hin).trans
        (hostStep_inReset (s := { s with inputs := rest }) hreset (.inl ⟨off, n, v, rfl⟩))
    · exact (step_of_input (engineTurn_of_inReset hreset) hin).trans
        (hostStep_inReset (s := { s with inputs := rest }) hreset (.inr ⟨off, n, rfl⟩))
  · have hstep : step s = .next { s with inputs := rest, inReset := false } :=
      step_of_input (engineTurn_of_inReset hreset) hin
    have hafter := step_asReset hreset hs hstep
    have hidle : ({ s with inputs := rest, inReset := false } : State).status.busy = false := asReset_busy hafter
    exact ⟨_, hstep, rfl, hafter, hidle, engineTurn_of_idle hidle, (congrArg State.irq hafter :)⟩

/-! ### The register map -/

/-- The offsets from 0x100 on by their ranges (10_state.md rule R20). -/
theorem portReg_reserved {off : BitVec 12} (h : (0x050 ≤ off.toNat ∧ off.toNat < 0x100) ∨
    (0x320 ≤ off.toNat ∧ off.toNat < 0x400) ∨ 0x900 ≤ off.toNat) : portReg off = .reserved := by
  unfold portReg
  dsimp only
  rw [if_neg (by omega), if_neg (by omega)]
  obtain ⟨_, hlow⟩ | ⟨_, hmid⟩ | hhigh := h
  · rw [if_pos hlow]
  · rw [if_neg (by omega), if_neg (by omega), if_neg (by omega), if_pos hmid]
  · rw [if_neg (by omega), if_neg (by omega), if_neg (by omega), if_neg (by omega), if_neg (by omega),
      if_neg (by omega)]

/-- Settles O53: the cells of a buffer are finitely many; the reserved ranges are those between the buffers. -/
theorem portOffsetsMap : Obligations.PortOffsetsMap := by
  refine ⟨by decide, by decide, by decide, by decide, by decide, by decide, by decide, by decide, by decide, by decide,
    by decide, by decide, by decide, by decide, by decide, by decide, by decide, by decide +kernel, by decide +kernel,
    by decide +kernel, by decide +kernel, fun off h => portReg_reserved h⟩

/-! ### Port accesses -/

theorem hostStep_read {s : State} (hreset : s.inReset = false) {off : BitVec 12} (ha : off.toNat % 4 = 0) :
    hostStep (.read off 4) s = .next (s.portRead (portReg off)) := by
  have haligned : portAligned off 4 = true := Bool.and_eq_true_iff.2 ⟨rfl, decide_eq_true ha⟩
  rw [hostStep, hreset, if_neg Bool.false_ne_true, if_pos haligned]

/-- An access of another width or alignment has no meaning (20_memory.md rule R69). -/
theorem hostStep_refused {s : State} (hreset : s.inReset = false) {off : BitVec 12} {n : Nat}
    (ha : n ≠ 4 ∨ off.toNat % 4 ≠ 0) {op : HostOp} (hop : (∃ v, op = .write off n v) ∨ op = .read off n) :
    hostStep op s = .refused .portAccess := by
  have hbad : ¬ portAligned off n = true := fun h => by
    obtain ⟨hn, hoff⟩ := Bool.and_eq_true_iff.1 h
    exact ha.elim (· (of_decide_eq_true hn)) (· (of_decide_eq_true hoff))
  have hout : ¬ s.inReset = true := by rw [hreset]; exact Bool.false_ne_true
  obtain ⟨v, rfl⟩ | rfl := hop
  · rw [hostStep, if_neg hout, if_neg hbad]
  · rw [hostStep, if_neg hout, if_neg hbad]

theorem portRead_idle {s : State} (h : s.status.busy = false) (r : PortReg) :
    (s.portRead r).portData = s.regValue (Config.freeWord s.draws) r := by
  refine if_neg ?_
  rw [h, Bool.false_and]
  exact Bool.false_ne_true

/-- A register that reads the same while BUSY (70_reset_and_hazards.md rule R243). -/
theorem portRead_readableBusy {r : PortReg} (h : r.readableBusy = true) (s : State) :
    (s.portRead r).portData = s.regValue (Config.freeWord s.draws) r := by
  refine if_neg ?_
  rw [h, Bool.not_true, Bool.and_false]
  exact Bool.false_ne_true

/-- Such a register has no cells, so no free value shows in it. -/
theorem regValue_readableBusy {r : PortReg} (h : r.readableBusy = true) (s : State) (free free' : Word) :
    s.regValue free r = s.regValue free' r := by
  cases r with
  | status | ident | version | reserved => rfl
  | _ => cases h

/-- Settles O51: an aligned read is one state update, and other accesses are refused. -/
theorem portAccessRules : Obligations.PortAccessRules := by
  refine ⟨fun s off early rest hturn hreset hin ha => ?_, fun s off n v early rest hturn hreset ha hin => ?_⟩
  · refine ⟨State.portRead { s with inputs := rest } (portReg off),
      (step_of_input hturn hin).trans (hostStep_read (s := { s with inputs := rest }) hreset ha), rfl,
      fun hidle => portRead_idle (s := { s with inputs := rest }) hidle _, fun hoff => ?_⟩
    have hread : (portReg off).readableBusy = true := by obtain rfl | rfl | rfl := hoff <;> decide
    exact (portRead_readableBusy hread _).trans (regValue_readableBusy hread _ _ _)
  · obtain hin | hin := hin
    · exact (step_of_input hturn hin).trans (hostStep_refused (s := { s with inputs := rest }) hreset ha (.inl ⟨v, rfl⟩))
    · exact (step_of_input hturn hin).trans (hostStep_refused (s := { s with inputs := rest }) hreset ha (.inr rfl))

/-! ### Idle writes -/

/-- The mask of the `w` low bits (10_state.md rule R21). -/
theorem and_lowBits_getElem (w : Nat) (v : Word) {i : Nat} (hi : i < 32) :
    (v &&& BitVec.ofNat 32 (2 ^ w - 1))[i] = (decide (i < w) && v[i]) := by
  rw [BitVec.getElem_and, ← BitVec.getLsbD_eq_getElem (x := BitVec.ofNat 32 _), BitVec.getLsbD_ofNat,
    Nat.testBit_two_pow_sub_one, decide_eq_true hi, Bool.true_and, Bool.and_comm]

theorem setWidth_lowBits (w : Nat) (v : Word) :
    (v.setWidth w).setWidth 32 = v &&& BitVec.ofNat 32 (2 ^ w - 1) := by
  ext i hi
  rw [and_lowBits_getElem w v hi]
  simp [BitVec.getElem_setWidth, BitVec.getLsbD_setWidth, hi]

theorem and_allBits (v : Word) : v &&& 0xFFFFFFFF#32 = v := BitVec.and_allOnes

theorem bitAt_getElem (b : Bool) (n : Nat) {i : Nat} (hi : i < 32) : (bitAt b n)[i] = (decide (i = n) && b) := by
  cases b with
  | false => simp [bitAt]
  | true =>
    simp only [bitAt, if_true, BitVec.getElem_shiftLeft, BitVec.getElem_one, Bool.and_true]
    by_cases h : i < n
    · simp [h]; omega
    · simp [h]; omega

theorem ctrl_ofWord_word (v : Word) : (Ctrl.ofWord v).word = v &&& BitVec.ofNat 32 (2 ^ 2 - 1) := by
  ext i hi
  rw [Ctrl.word, BitVec.getElem_or, bitAt_getElem _ _ hi, bitAt_getElem _ _ hi, and_lowBits_getElem 2 v hi]
  match i with
  | 0 => simp [Ctrl.ofWord]
  | 1 => simp [Ctrl.ofWord]
  | i + 2 => simp

/-- A write stores the defined bits of its register (10_state.md rule R21). -/
theorem writeReg_regValue_self {r : PortReg} (hr : isReadWrite r = true) (s : State) (v free : Word) :
    (s.writeReg v r).regValue free r = v &&& definedBits r := by
  cases r with
  | ctrl => exact ctrl_ofWord_word v
  | imgW | imgH => exact setWidth_lowBits 16 v
  | blkX | blkY => exact setWidth_lowBits 13 v
  | arg0 | pos | winOrg | winLen | dstBase => exact (and_allBits v).symm
  | dc p => exact (Vector.getElem_set_self p.isLt).trans (and_allBits v).symm
  | coef i | tmp i | pix i =>
    exact (congrArg (cellWord free) (Vector.getElem_set_self i.isLt)).trans (and_allBits v).symm
  | plane p i =>
    have hcell : (s.setPlane p (s.plane[p].set i (some v))).plane[p][i] = some v := by
      rw [setPlane_plane_self]
      exact Vector.getElem_set_self i.isLt
    exact (congrArg (cellWord free) hcell).trans (and_allBits v).symm
  | status | cmd | result | errinfo | ident | version | reserved => cases hr

/-- A write of one cell of a buffer leaves the others. -/
theorem set_cell_other {α : Type} {n : Nat} {b : Vector α n} {i j : Fin n} (h : j ≠ i) (x : α) :
    (b.set i x)[j] = b[j] :=
  Vector.getElem_set_ne i.isLt j.isLt fun e => h (Fin.ext e.symm)

theorem writeReg_regValue_other {r r' : PortReg} (hr : isReadWrite r = true) (hne : r' ≠ r) (s : State) (v free : Word) :
    (s.writeReg v r).regValue free r' = s.regValue free r' := by
  cases r with
  | dc p =>
    cases r' with
    | dc q => exact set_cell_other (fun e => hne (congrArg PortReg.dc e)) v
    | _ => rfl
  | coef i =>
    cases r' with
    | coef j => exact congrArg (cellWord free) (set_cell_other (fun e => hne (congrArg PortReg.coef e)) _)
    | _ => rfl
  | tmp i =>
    cases r' with
    | tmp j => exact congrArg (cellWord free) (set_cell_other (fun e => hne (congrArg PortReg.tmp e)) _)
    | _ => rfl
  | pix i =>
    cases r' with
    | pix j => exact congrArg (cellWord free) (set_cell_other (fun e => hne (congrArg PortReg.pix e)) _)
    | _ => rfl
  | plane p i =>
    cases r' with
    | plane q j =>
      refine congrArg (cellWord free) ?_
      by_cases hq : q = p
      · rw [hq] at hne ⊢
        exact (congrArg (fun b : Cells 64 => b[j]) (setPlane_plane_self s p _)).trans
          (set_cell_other (fun e => hne (congrArg (PortReg.plane p) e)) _)
      · exact congrArg (fun b : Cells 64 => b[j]) (setPlane_plane_other hq s _)
    | _ => rfl
  | status | cmd | result | errinfo | ident | version | reserved => cases hr
  | ctrl | arg0 | pos | winOrg | winLen | imgW | imgH | dstBase | blkX | blkY =>
    cases r' <;> first | rfl | exact absurd rfl hne

/-! ### The bits of STATUS and CTRL -/

theorem ctrl_word_bits (c : Ctrl) :
    c.word.getLsbD 0 = c.ie ∧ c.word.getLsbD 1 = c.alpha ∧ c.word &&& 0xFFFFFFFC = 0 := by
  obtain ⟨ie, alpha⟩ := c
  revert ie alpha
  decide

theorem status_word_bits (t : Status) :
    t.word.getLsbD 0 = t.busy ∧ t.word.getLsbD 1 = t.done ∧ t.word.getLsbD 2 = t.err ∧ t.word.getLsbD 3 = t.pastEnd ∧
      t.word.getLsbD 4 = t.fill ∧ t.word.getLsbD 5 = t.ovr ∧ t.word.extractLsb' 8 4 = t.code.toBits ∧
      t.word &&& 0xFFFFF0C0 = 0 := by
  obtain ⟨busy, done, err, pastEnd, fill, ovr, code⟩ := t
  revert busy done err pastEnd fill ovr
  cases code <;> decide

/-- What an idle write of a read-write register leaves alone: the engine, the window's session unless the window moves, and
everything that is no such register. -/
theorem writeReg_frame {r : PortReg} (hr : isReadWrite r = true) (s : State) (v : Word) :
    s.writeReg v r = { s with
      ctrl := (s.writeReg v r).ctrl, arg0 := (s.writeReg v r).arg0, pos := (s.writeReg v r).pos
      winOrg := (s.writeReg v r).winOrg, winLen := (s.writeReg v r).winLen, imgW := (s.writeReg v r).imgW
      imgH := (s.writeReg v r).imgH, dstBase := (s.writeReg v r).dstBase, blkX := (s.writeReg v r).blkX
      blkY := (s.writeReg v r).blkY, dc := (s.writeReg v r).dc, coef := (s.writeReg v r).coef
      tmp := (s.writeReg v r).tmp, plane := (s.writeReg v r).plane, pix := (s.writeReg v r).pix
      pageValid := (s.writeReg v r).pageValid, raced := (s.writeReg v r).raced
      session := (s.writeReg v r).session } := by
  cases r with
  | status | cmd | result | errinfo | ident | version | reserved => cases hr
  | _ => rfl

theorem writeReg_session {r : PortReg} (hr : isReadWrite r = true) (horg : r ≠ .winOrg) (hlen : r ≠ .winLen) (s : State)
    (v : Word) :
    (s.writeReg v r).pageValid = s.pageValid ∧ (s.writeReg v r).raced = s.raced ∧
      (s.writeReg v r).session = s.session := by
  cases r with
  | status | cmd | result | errinfo | ident | version | reserved => cases hr
  | winOrg => exact absurd rfl horg
  | winLen => exact absurd rfl hlen
  | _ => exact ⟨rfl, rfl, rfl⟩

/-- Settles O52: an idle write is `State.writeReg`, and its clauses are the lemmas about it. -/
theorem portStoresDefinedBits : Obligations.PortStoresDefinedBits := by
  refine ⟨fun s v r hidle => ⟨fun hr => ?_, fun hr => ?_, ?_⟩, fun s v hidle => ?_, fun s free => ?_, rfl, rfl, rfl, rfl, rfl,
    rfl⟩
  · rw [portWrite_idle hidle]
    exact ⟨writeReg_regValue_self hr s v, fun r' free hne => writeReg_regValue_other hr hne s v free,
      fun horg hlen => writeReg_session hr horg hlen s v, _, rfl, writeReg_frame hr s v⟩
  · rw [portWrite_idle hidle]
    obtain rfl | rfl | rfl | rfl | rfl := hr <;> rfl
  · rw [portWrite_idle hidle]
    rfl
  · rw [portWrite_idle hidle]
    exact ⟨rfl, rfl⟩
  · exact ⟨ctrl_word_bits s.ctrl, status_word_bits s.status⟩

end Sys2Proof.Machine
end

section
/-! The page lookup and BREAD (20_memory.md rules R57 and R60, 41_bitreader.md rule R103): what a lookup reads, and what a read
returns in a session with changed source bytes. -/

namespace Sys2Proof.Machine

open Sys2Proof.Spec

/-! ### The lookup -/

/-- Of `n` bytes from `a` on, those below `l` (20_memory.md rule R57). -/
theorem length_filter_range (a l n : Nat) :
    ((List.range n).filter fun j => decide (a + j < l)).length = min (l - a) n := by
  induction n with
  | zero => simp
  | succ n ih =>
    rw [List.range_succ, List.filter_append, List.length_append, ih]
    by_cases h : a + n < l
    · simp [h]; omega
    · simp [h]; omega

theorem afterRead_of_stable {s : State} (h : s.SourceStable) (off : Word) :
    s.afterRead off = s.lookupPage (wordOf off) := by
  have hempty : (s.lookupPage (wordOf off)).raced.isEmpty = true := by
    rw [lookupPage_raced]
    exact List.isEmpty_iff.2 h
  exact if_pos hempty

theorem pageHit_iff (s : State) (w : Nat) :
    s.pageHit w = true ↔ s.pageValid = true ∧ s.pageBase ≤ w ∧ w + 1 ≤ s.pageBase + 255 := by
  simp [State.pageHit, and_assoc]

/-- Settles O16: a read of a stable source is its page lookup, which refills on a miss only. -/
theorem readRefillsPage : Obligations.ReadRefillsPage := by
  intro s off hstable w
  have hread : s.afterRead off = s.lookupPage w := afterRead_of_stable hstable off
  rw [← pageHit_iff]
  refine ⟨fun hhit => hread.trans (if_pos hhit), fun hmiss => ?_⟩
  have hrefill : s.afterRead off = s.refill w := hread.trans (if_neg hmiss)
  refine ⟨?_, ?_, fun j => ?_, ?_, afterRead_sameButPage s off⟩
  · rw [hrefill, refill_pageValid]
  · rw [hrefill, refill_pageBase]
  · rw [hrefill]
    exact getElem_tab_fin _ j
  · rw [hrefill, length_filter_range]
    rfl

/-! ### A read in a session with changed source bytes -/

theorem windowValue_congr {s t : State} (ho : t.winOrg = s.winOrg) (hl : t.winLen = s.winLen) (hs : t.src = s.src)
    (hr : t.raced = s.raced) {i : Nat} {b : Byte} (h : t.WindowValue i b) : s.WindowValue i b := by
  simpa only [State.WindowValue, State.srcByte, State.windowAddr, State.raceValues, ho, hl, hs, hr] using h

/-- Byte `k` of word `w`, the first one most significant (20_memory.md rule R53). -/
def wordByte (x : Word) (k : Nat) : Byte := x.extractLsb' (24 - 8 * k) 8

/-- Each byte of the word is a value that its window byte may read as. -/
def WordFair (s : State) (w : Nat) (x : Word) : Prop := ∀ k : Fin 4, s.WindowValue (4 * w + k.val) (wordByte x k.val)

theorem pageWord_fair {s : State} (h : s.PageFair) {w v : Nat} (hit : s.pageHit w = true) (hv : v = w ∨ v = w + 1) :
    WordFair s v (s.pageWord v) := by
  intro k
  obtain ⟨hvalid, hlow, hhigh⟩ := (pageHit_iff s w).1 hit
  have hlt : v - s.pageBase < 256 := by omega
  have hbase : s.pageBase + (v - s.pageBase) = v := by omega
  have hbyte := h hvalid ⟨v - s.pageBase, hlt⟩ k
  simp only [Fin.getElem_fin, hbase] at hbyte
  simpa only [wordByte, State.pageWord, Nat.mod_eq_of_lt hlt] using hbyte

/-- The free choice for an affected byte is among its values (20_memory.md rule R60). -/
theorem racedWord_fair {s : State} {w : Nat} {x : Word} (h : WordFair s w x) : WordFair s w (s.racedWord w x) := by
  unfold State.racedWord
  split
  · exact h
  · obtain ⟨h0, h1, h2, h3⟩ := append_bytes (s.racedByte (4 * w) (x.extractLsb' 24 8))
      (s.racedByte (4 * w + 1) (x.extractLsb' 16 8)) (s.racedByte (4 * w + 2) (x.extractLsb' 8 8))
      (s.racedByte (4 * w + 3) (x.extractLsb' 0 8))
    intro k
    have hbyte : wordByte (s.racedByte (4 * w) (x.extractLsb' 24 8) ++ s.racedByte (4 * w + 1) (x.extractLsb' 16 8)
        ++ s.racedByte (4 * w + 2) (x.extractLsb' 8 8) ++ s.racedByte (4 * w + 3) (x.extractLsb' 0 8)) k.val =
        s.racedByte (4 * w + k.val) (wordByte x k.val) := by
      match k with
      | 0 => exact h0
      | 1 => exact h1
      | 2 => exact h2
      | 3 => exact h3
    rw [hbyte]
    exact racedByte_windowValue (h k)

/-- The bytes of words `w` and `w + 1` as `hi` and `lo` have them, and the window's bytes elsewhere. -/
def pairBytes (s : State) (w : Nat) (hi lo : Word) (i : Nat) : Byte :=
  if i / 4 = w then wordByte hi (i % 4) else if i / 4 = w + 1 then wordByte lo (i % 4) else s.srcByte i

theorem pairBytes_fair {s : State} {w : Nat} {hi lo : Word} (hhi : WordFair s w hi) (hlo : WordFair s (w + 1) lo)
    (i : Nat) : s.WindowValue i (pairBytes s w hi lo i) := by
  unfold pairBytes
  split
  next hw =>
    have hidx : 4 * w + i % 4 = i := by omega
    simpa only [hidx] using hhi ⟨i % 4, by omega⟩
  next =>
    split
    next hw =>
      have hidx : 4 * (w + 1) + i % 4 = i := by omega
      simpa only [hidx] using hlo ⟨i % 4, by omega⟩
    next => exact .inl rfl

/-- A bit of a word is a bit of its byte. -/
theorem wordByte_getLsbD (x : Word) {i : Nat} (hi : i < 32) :
    (wordByte x (i / 8)).getLsbD (7 - i % 8) = x.getLsbD (31 - i) := by
  have hlt : 7 - i % 8 < 8 := by omega
  have hbit : 24 - 8 * (i / 8) + (7 - i % 8) = 31 - i := by omega
  rw [wordByte, BitVec.getLsbD_extractLsb', hbit, decide_eq_true hlt, Bool.true_and]

/-- The 64 bits of two neighbouring words are the bits of their bytes. -/
theorem pairBytes_getLsbD (s : State) (w : Nat) (hi lo : Word) {i : Nat} (h : i < 64) :
    (pairBytes s w hi lo ((32 * w + i) / 8)).getLsbD (7 - (32 * w + i) % 8) = (hi ++ lo).getLsbD (63 - i) := by
  rw [BitVec.getLsbD_append]
  by_cases hfirst : i < 32
  · have hword : (32 * w + i) / 8 / 4 = w := by omega
    have hbyte : (32 * w + i) / 8 % 4 = i / 8 := by omega
    have hbit : (32 * w + i) % 8 = i % 8 := by omega
    have hplace : 63 - i - 32 = 31 - i := by omega
    rw [pairBytes, if_pos hword, hbyte, hbit, wordByte_getLsbD hi hfirst, if_neg (by omega), hplace]
  · have hword : (32 * w + i) / 8 / 4 = w + 1 := by omega
    have hbyte : (32 * w + i) / 8 % 4 = (i - 32) / 8 := by omega
    have hbit : (32 * w + i) % 8 = (i - 32) % 8 := by omega
    have hplace : 63 - i = 31 - (i - 32) := by omega
    rw [pairBytes, if_neg (by omega), if_pos hword, hbyte, hbit, wordByte_getLsbD lo (by omega), if_pos (by omega), hplace]

/-- Word `v` as a read at `off` sees it after its page lookup. -/
def seenWord (s : State) (off : Word) (v : Nat) : Word :=
  (s.lookupPage (wordOf off)).racedWord v ((s.lookupPage (wordOf off)).pageWord v)

theorem readBits_eq_extract (s : State) (off : Word) (n : Nat) :
    s.readBits off n = extractBits (seenWord s off (wordOf off)) (seenWord s off (wordOf off + 1)) (off.toNat % 32) n := rfl

theorem seenWord_fair {s : State} (h : s.PageFair) {off : Word} {v : Nat} (hv : v = wordOf off ∨ v = wordOf off + 1) :
    WordFair s v (seenWord s off v) := fun k =>
  windowValue_congr (by simp) (by simp) (by simp) (by simp)
    (racedWord_fair (pageWord_fair (lookupPage_pageFair h (wordOf off)) (lookupPage_hit s (wordOf off)) hv) k)

/-- A read returns the field of bytes each of which its window byte may read as (20_memory.md rule R60). -/
theorem readBits_fair {s : State} (h : s.PageFair) (off : Word) {n : Nat} (hn : n ≤ 24) :
    ∃ b : Nat → Byte, (∀ i, s.WindowValue i (b i)) ∧ (s.readBits off n).toNat = fieldOf b off.toNat n := by
  refine ⟨pairBytes s (wordOf off) (seenWord s off (wordOf off)) (seenWord s off (wordOf off + 1)),
    pairBytes_fair (seenWord_fair h (.inl rfl)) (seenWord_fair h (.inr rfl)),
    eq_fieldOf_of_testBit (readBits_lt s off hn) fun i hi => ?_⟩
  have hidx : off.toNat + i = 32 * wordOf off + (off.toNat % 32 + i) := by rw [wordOf]; omega
  have hbit : 64 - off.toNat % 32 - n + (n - 1 - i) = 63 - (off.toNat % 32 + i) := by omega
  have hlt : n - 1 - i < n := by omega
  rw [hidx, pairBytes_getLsbD _ _ _ _ (by omega), readBits_eq_extract]
  refine (extractBits_getLsbD _ _ _ (by omega) _).trans ?_
  rw [hbit, decide_eq_true hlt, Bool.and_true]

/-! ### BREAD -/

theorem legalCount_eq_true {n : Nat} (h1 : 1 ≤ n) (h24 : n ≤ 24) : legalCount n = true :=
  Bool.and_eq_true_iff.2 ⟨decide_eq_true h1, decide_eq_true h24⟩

/-- BREAD with a legal count completes with the value of its read (41_bitreader.md rule R103). -/
theorem exec_bread {n : Nat} (h1 : 1 ≤ n) (h24 : n ≤ 24) (s : State) :
    exec (.bread n) s = .next (State.complete
      (State.notePastEnd { s.afterRead s.arg0 with result := s.readBits s.arg0 n }
        (s.passesEnd (s.arg0.toNat + n)))) :=
  congrArg (fun r : Res => r.finish noWrites) (if_pos (legalCount_eq_true h1 h24))

/-- Settles O17: the value is that of the read, and the read changes the page only. -/
theorem breadReadsStreamBits : Obligations.BreadReadsStreamBits := by
  intro s n h1 h24
  have hframe := bread_frame n s
  rw [bread, if_pos (legalCount_eq_true h1 h24)] at hframe
  refine ⟨_, exec_bread h1 h24 s, fun hs => readBits_toNat hs s.arg0 h24, readBits_lt s s.arg0 h24,
    fun hs => readBits_fair hs s.arg0 h24, ?_, ?_⟩
  · simp [State.notePastEnd, State.passesEnd, past]
  · exact congrArg (fun u : State => { u with status := { (s.afterRead s.arg0).status with
      pastEnd := (s.afterRead s.arg0).status.pastEnd || s.passesEnd (s.arg0.toNat + n), done := true, busy := false } })
      hframe

end Sys2Proof.Machine
end

section
/-! ENTDEC, one code at a time (42_entropy.md rules R117 to R123): what each class of peek does, what a code stores, and the
runs of codes that its loop follows. -/

namespace Sys2Proof.Machine

open Sys2Proof.Spec

/-! ### The peek -/

/-- The peek is the 17-bit field at POS (42_entropy.md rule R118). -/
theorem peek17_eq {s : State} (h : Readable s) : s.peek17 = BitVec.ofNat 17 (streamField s s.pos.toNat 17) := by
  rw [State.peek17, ← readBits_toNat h s.pos (by omega), BitVec.ofNat_toNat]

theorem peek17_toNat {s : State} (h : Readable s) : s.peek17.toNat = streamField s s.pos.toNat 17 := by
  have hlt := readBits_lt s s.pos (n := 17) (by omega)
  rw [State.peek17, BitVec.toNat_setWidth, Nat.mod_eq_of_lt hlt, readBits_toNat h s.pos (by omega)]

/-- The bit of the peek after a code of `len` bits is the stream bit there (42_entropy.md rule R120). -/
theorem peek17_signBit {s : State} (h : Readable s) {len : Nat} (hlen : len ≤ 16) :
    s.peek17.getLsbD (16 - len) = streamBit s (s.pos.toNat + len) := by
  have hbit : 16 - len < 17 := by omega
  rw [State.peek17, BitVec.getLsbD_setWidth, decide_eq_true hbit, Bool.true_and]
  exact readBits_getLsbD h s.pos (n := 17) (by omega) (by omega)

/-! ### One code -/

theorem entStep_noCode {s : State} (h : classOf s.peek17 = none) (k : Int) :
    entStep k s = .err .noCode s.pos (s.afterRead s.pos) := by
  simp only [entStep, h]

theorem entStep_terminal {s : State} {cl : Fin 8} {len : Fin 18} (hcl : classOf s.peek17 = some cl)
    (hcw : controlWord s.rom cl s.peek17 = .terminal len) (k : Int) :
    entStep k s = .stop ((s.afterRead s.pos).consume len.val) := by
  simp only [entStep, hcl, hcw]

theorem entStep_table {s : State} {cl : Fin 8} {lenPred : Fin 16} {mag : BitVec 31} {runPred : Nat}
    (hcl : classOf s.peek17 = some cl) (hcw : controlWord s.rom cl s.peek17 = .table lenPred mag runPred) (k : Int) :
    entStep k s = storeAc s.pos k (runPred + 1) (tableValue s.rom s.peek17 (lenPred.val + 1) mag.toNat)
      ((s.afterRead s.pos).consume (lenPred.val + 1 + 1)) := by
  simp only [entStep, hcl, hcw]

/-- The state after the code of an escape and the peek, where its value is read (42_entropy.md rule R121). -/
def State.afterEscape (s : State) (len : Nat) : State := (s.afterRead s.pos).consume len

theorem entStep_escape {s : State} {cl : Fin 8} {len : Fin 18} {ex : Fin 7} {runPred : Nat}
    (hcl : classOf s.peek17 = some cl) (hcw : controlWord s.rom cl s.peek17 = .escape len ex runPred) (k : Int) :
    entStep k s = storeAc s.pos k (runPred + 1)
      (escValue s.rom ex ((s.afterEscape len.val).readBits (s.afterEscape len.val).pos (ex.val + 8)))
      (((s.afterEscape len.val).afterRead (s.afterEscape len.val).pos).consume (ex.val + 8)) := by
  simp only [entStep, hcl, hcw, State.afterEscape]

/-- The four ways an iteration of ENTDEC can go (42_entropy.md rules R118 to R121). -/
theorem entStep_cases (k : Int) (s : State) :
    entStep k s = .err .noCode s.pos (s.afterRead s.pos) ∨
    (∃ len : Fin 18, entStep k s = .stop ((s.afterRead s.pos).consume len.val)) ∨
    (∃ (len : Fin 16) (run : Nat) (val : Int),
      entStep k s = storeAc s.pos k (run + 1) val ((s.afterRead s.pos).consume (len.val + 1 + 1))) ∨
    ∃ (len : Fin 18) (ex : Fin 7) (run : Nat) (val : Int), entStep k s = storeAc s.pos k (run + 1) val
      (((s.afterEscape len.val).afterRead (s.afterEscape len.val).pos).consume (ex.val + 8)) := by
  cases hcl : classOf s.peek17 with
  | none => exact .inl (entStep_noCode hcl k)
  | some cl =>
    cases hcw : controlWord s.rom cl s.peek17 with
    | terminal len => exact .inr (.inl ⟨len, entStep_terminal hcl hcw k⟩)
    | table len mag run => exact .inr (.inr (.inl ⟨len, run, _, entStep_table hcl hcw k⟩))
    | escape len ex run => exact .inr (.inr (.inr ⟨len, ex, run, _, entStep_escape hcl hcw k⟩))

/-! ### The store of a coefficient -/

/-- A lookup below 0 raises POS_UNDERFLOW (42_entropy.md rule R122). -/
theorem storeAc_underflow {s : State} {k : Int} {run : Nat} (h : lookupAt s.rom k run < 0) (start : Word) (val : Int) :
    storeAc start k run val s = .err .posUnderflow start s := by
  have hnone : nextIndex s.rom k run = none := by
    rw [lookupAt] at h
    rw [nextIndex]
    cases hr : s.rom.runOrder with
    | before => rw [hr] at h; exact if_pos h
    | after => rw [hr] at h; exact if_pos h
  simp only [storeAc, hnone]

theorem idxAt_eq (c : Cfg) {k : Int} {j : Fin 64} (h : k = (j.val : Int)) : idxAt c k = c.idx[j] := by
  have hj : k.toNat % 64 = j.val := by omega
  simp only [idxAt, hj, Fin.getElem_fin]

/-- A lookup in 0..63 stores the scaled value at the output index there and lowers the counter by `run`
(42_entropy.md rules R122 and R123). -/
theorem storeAc_stored {s : State} {k : Int} {run : Nat} {j : Fin 64} (h : lookupAt s.rom k run = (j.val : Int))
    (start : Word) (val : Int) :
    storeAc start k run val s =
      .stored (k - run) (s.setCoef s.rom.idx[j] (BitVec.ofInt 32 (val * s.rom.scale[s.rom.idx[j]].toInt))) := by
  have hsome : nextIndex s.rom k run = some (s.rom.idx[j], k - run) := by
    rw [lookupAt] at h
    rw [nextIndex]
    cases hr : s.rom.runOrder with
    | before =>
      rw [hr] at h
      have hj : k - (run : Int) = (j.val : Int) := h
      exact (if_neg (by omega)).trans (by rw [idxAt_eq s.rom hj])
    | after =>
      rw [hr] at h
      have hj : k = (j.val : Int) := h
      exact (if_neg (by omega)).trans (by rw [idxAt_eq s.rom hj])
  simp only [storeAc, hsome]

theorem storeAc_result (start : Word) (k : Int) (run : Nat) (val : Int) (s : State) :
    (storeAc start k run val s).state.result = s.result := by
  unfold storeAc
  split
  · rfl
  · rfl

/-- One iteration leaves RESULT alone: only the end of the loop writes it (42_entropy.md rule R125). -/
theorem entStep_result (k : Int) (s : State) : (entStep k s).state.result = s.result := by
  obtain h | ⟨len, h⟩ | ⟨len, run, val, h⟩ | ⟨len, ex, run, val, h⟩ := entStep_cases k s
  · rw [h]; exact afterRead_result s s.pos
  · rw [h]; exact afterRead_result s s.pos
  · rw [h, storeAc_result]; simp
  · rw [h, storeAc_result]; simp [State.afterEscape]

/-- What a code that stores leaves alone (42_entropy.md rule R123). -/
theorem stored_frame {k k' : Int} {s t : State} (h : entStep k s = .stored k' t) :
    SameButPage { s with
      coef := t.coef, pos := t.pos, status := { s.status with pastEnd := t.status.pastEnd } } t := by
  have hframe := eq_of_forgetDecode (entStep_forgetDecode k s)
  have hresult := entStep_result k s
  rw [h] at hframe hresult
  change t.result = s.result at hresult
  simp only [EntStep.state, hresult] at hframe
  exact hframe

theorem stored_frame_status {k k' : Int} {s t : State} (h : entStep k s = .stored k' t) :
    SameButPage { s with coef := t.coef, pos := t.pos, status := t.status } t :=
  (congrArg (fun u : State => { u with status := t.status }) (stored_frame h) :)

/-- Settles O28: the peek holds the sign bit, and the store is that of the common store step. -/
theorem tableCodeStoresCoefficient : Obligations.TableCodeStoresCoefficient := by
  intro s k cl lenPred mag runPred hs _ hcl hcw len val
  rw [← peek17_eq hs] at hcl hcw
  have hval : tableValue s.rom s.peek17 (lenPred.val + 1) mag.toNat = val := by
    rw [tableValue, peek17_signBit hs (by omega)]
  have hrom : ((s.afterRead s.pos).consume (lenPred.val + 1 + 1)).rom = s.rom := by simp
  have hstep := entStep_table hcl hcw k
  rw [hval] at hstep
  refine ⟨fun hneg => ⟨_, hstep.trans (storeAc_underflow (by rwa [hrom]) _ _)⟩, fun j hj => ?_⟩
  have hstored := hstep.trans (storeAc_stored (j := j) (by rwa [hrom]) _ _)
  exact ⟨_, hstored, by simp, by simp [len], by simp [consume_status, State.passesEnd, past, len],
    stored_frame_status hstored⟩

/-- Settles O29: the value of an escape is read where its code ends, in a window that the peek left as it is. -/
theorem escapeCodeStoresCoefficient : Obligations.EscapeCodeStoresCoefficient := by
  intro s k cl len ex runPred hs _ hcl hcw extra p1 val
  rw [← peek17_eq hs] at hcl hcw
  have hu : Readable (s.afterEscape len.val) := consume_readable (afterRead_readable hs s.pos) len.val
  have hpos : (s.afterEscape len.val).pos = p1 := by simp [State.afterEscape, p1]
  have hfield : (s.afterEscape len.val).readBits p1 (ex.val + 8) = BitVec.ofNat 32 (streamField s p1.toNat extra) := by
    have hnat := readBits_toNat hu p1 (n := ex.val + 8) (by omega)
    rw [streamField_congr (s := s) (by simp [State.afterEscape]) (by simp [State.afterEscape])
      (by simp [State.afterEscape])] at hnat
    rw [← hnat, BitVec.ofNat_toNat, BitVec.setWidth_eq]
  have hrom : (((s.afterEscape len.val).afterRead p1).consume (ex.val + 8)).rom = s.rom := by simp [State.afterEscape]
  have hstep := entStep_escape hcl hcw k
  rw [hpos, hfield] at hstep
  refine ⟨fun hneg => ⟨_, hstep.trans (storeAc_underflow (by rwa [hrom]) _ _)⟩, fun j hj => ?_⟩
  have hstored := hstep.trans (storeAc_stored (j := j) (by rwa [hrom]) _ _)
  refine ⟨_, hstored, ?_, ?_, ?_, stored_frame hstored⟩
  · simp [State.afterEscape, val, escValue, extra]
  · simp [hpos, extra]
  · simp [consume_status, State.passesEnd, past, extra, State.afterEscape, p1]

/-! ### Runs of codes -/

/-- A run to the Terminal is the loop, whatever the fuel, as long as it is at least `k + 2`
(42_entropy.md rule R124; log entry 26). -/
theorem entLoop_of_entRun {k : Int} {count : Nat} {s t : State} (h : EntRun k count s t) :
    ∀ fuel : Nat, 1 ≤ fuel → k + 2 ≤ fuel → entLoop fuel k count s = .ok t := by
  induction h with
  | stop hstep =>
    intro fuel hpos _
    obtain ⟨n, rfl⟩ := Nat.exists_eq_add_of_le' hpos
    simp only [entLoop, hstep]
  | store hstep _ ih =>
    intro fuel hpos hfuel
    obtain ⟨n, rfl⟩ := Nat.exists_eq_add_of_le' hpos
    have hlt := entStep_stored_lt hstep
    simp only [entLoop, hstep]
    exact ih n (by omega) (by omega)

/-- A run to a code that raises is the loop, in the same way. -/
theorem entLoop_of_entErr {k : Int} {s : State} {code : ErrCode} {start : Word} (h : EntErr k s code start) :
    ∀ (fuel count : Nat), 1 ≤ fuel → k + 2 ≤ fuel → ∃ u, entLoop fuel k count s = .err code start u := by
  induction h with
  | raise hstep =>
    intro fuel count hpos _
    obtain ⟨n, rfl⟩ := Nat.exists_eq_add_of_le' hpos
    simp only [entLoop, hstep]
    exact ⟨_, rfl⟩
  | store hstep _ ih =>
    intro fuel count hpos hfuel
    obtain ⟨n, rfl⟩ := Nat.exists_eq_add_of_le' hpos
    have hlt := entStep_stored_lt hstep
    simp only [entLoop, hstep]
    exact ih n (count + 1) (by omega) (by omega)

theorem entdec_of_entRun {s t : State} {p : Plane} (h : EntRun 63 0 (s.initCoef p) t) : entdec p s = .ok t :=
  entLoop_of_entRun h 65 (by omega) (by omega)

theorem entdec_of_entErr {s : State} {p : Plane} {code : ErrCode} {start : Word}
    (h : EntErr 63 (s.initCoef p) code start) : ∃ u, entdec p s = .err code start u :=
  entLoop_of_entErr h 65 0 (by omega) (by omega)

/-- Settles O26: ENTDEC gives its loop 65 iterations, which are enough from a counter of 63. -/
theorem entdecFollowsCodes : Obligations.EntdecFollowsCodes := fun _ _ _ h =>
  congrArg (fun r : Res => r.finish entdecWrites) (entdec_of_entRun h)

/-- Every counter and state run to a Terminal or to a code that raises: an iteration lowers the counter. -/
theorem entRun_or_entErr (n : Nat) :
    ∀ (k : Int) (count : Nat) (s : State), (k + 1).toNat ≤ n →
      (∃ t, EntRun k count s t) ∨
        ∃ code start, (code = .noCode ∨ code = .posUnderflow) ∧ EntErr k s code start := by
  induction n with
  | zero =>
    intro k count s hn
    cases hstep : entStep k s with
    | stop t => exact .inl ⟨_, .stop hstep⟩
    | err code start t => exact .inr ⟨code, start, (entStep_err hstep).1, .raise hstep⟩
    | stored k' t => have := entStep_stored_lt hstep; omega
  | succ n ih =>
    intro k count s hn
    cases hstep : entStep k s with
    | stop t => exact .inl ⟨_, .stop hstep⟩
    | err code start t => exact .inr ⟨code, start, (entStep_err hstep).1, .raise hstep⟩
    | stored k' t =>
      have hlt := entStep_stored_lt hstep
      obtain ⟨u, hu⟩ | ⟨code, start, hcode, herr⟩ := ih k' (count + 1) t (by omega)
      · exact .inl ⟨u, .store hstep hu⟩
      · exact .inr ⟨code, start, hcode, .store hstep herr⟩

theorem storeAc_ne_stop {start : Word} {k : Int} {run : Nat} {val : Int} {s t : State} :
    storeAc start k run val s ≠ .stop t := by
  unfold storeAc
  split
  · nofun
  · nofun

/-- An iteration stops at a Terminal only, past its code (42_entropy.md rule R119). -/
theorem eq_consume_of_stop {k : Int} {s t : State} (h : entStep k s = .stop t) :
    ∃ len : Fin 18, t = (s.afterRead s.pos).consume len.val := by
  obtain hcase | ⟨len, hcase⟩ | ⟨len, run, val, hcase⟩ | ⟨len, ex, run, val, hcase⟩ := entStep_cases k s
  · nomatch hcase.symm.trans h
  · cases hcase.symm.trans h
    exact ⟨len, rfl⟩
  · exact absurd (hcase.symm.trans h) storeAc_ne_stop
  · exact absurd (hcase.symm.trans h) storeAc_ne_stop

/-- An iteration that stores does so past its code, which has at most 31 bits with its sign or its extra bits
(30_encoding.md rule R85). -/
theorem storeAc_of_stored {k k' : Int} {s t : State} (h : entStep k s = .stored k' t) :
    ∃ (run : Nat) (val : Int) (u : State) (c : Nat), storeAc s.pos k (run + 1) val u = .stored k' t ∧
      u.rom = s.rom ∧ u.coef = s.coef ∧ c ≤ 31 ∧ u.pos = s.pos + BitVec.ofNat 32 c := by
  obtain hcase | ⟨len, hcase⟩ | ⟨len, run, val, hcase⟩ | ⟨len, ex, run, val, hcase⟩ := entStep_cases k s
  · nomatch hcase.symm.trans h
  · nomatch hcase.symm.trans h
  · exact ⟨run, val, _, len.val + 1 + 1, hcase.symm.trans h, by simp, by simp, by omega, by simp⟩
  · refine ⟨run, val, _, len.val + (ex.val + 8), hcase.symm.trans h, by simp [State.afterEscape],
      by simp [State.afterEscape], by omega, ?_⟩
    simp [State.afterEscape, BitVec.ofNat_add, BitVec.add_assoc]

theorem stored_pos {k k' : Int} {s t : State} (h : entStep k s = .stored k' t) :
    ∃ c, c ≤ 31 ∧ t.pos = s.pos + BitVec.ofNat 32 c := by
  obtain ⟨run, val, u, c, hac, _, _, hc, hpos⟩ := storeAc_of_stored h
  obtain ⟨_, _, i, rfl⟩ := storeAc_eq_stored hac
  exact ⟨c, hc, hpos⟩

/-- A store of an iteration is the store at the index of the counter, and touches no other cell of COEF. -/
theorem stored_cell {k k' : Int} {s t : State} (h : entStep k s = .stored k' t) :
    ∃ (run : Nat) (i : Fin 64) (v : Word),
      nextIndex s.rom k (run + 1) = some (i, k') ∧ t.coef = s.coef.set i (some v) := by
  obtain ⟨run, val, u, _, hac, hrom, hcoef, _⟩ := storeAc_of_stored h
  unfold storeAc at hac
  split at hac
  · nomatch hac
  · next i k₁ hnext =>
    cases hac
    exact ⟨run, i, _, hrom ▸ hnext, congrArg (fun b : Cells 64 => b.set i _) hcoef⟩

/-- How many stores can follow counter `k` (42_entropy.md rule R122): the lookup needs the counter after its run with
`RUN_ORDER = BEFORE`, and before its run with `AFTER`, to be at least 0. -/
def storesLeft (c : Cfg) (k : Int) : Nat :=
  match c.runOrder with
  | .before => k.toNat
  | .after => (k + 1).toNat

theorem storesLeft_of_nextIndex {c : Cfg} {k k' : Int} {run : Nat} {i : Fin 64}
    (h : nextIndex c k (run + 1) = some (i, k')) : storesLeft c k' + 1 ≤ storesLeft c k := by
  unfold nextIndex at h
  unfold storesLeft
  cases hr : c.runOrder with
  | before =>
    simp only [hr] at h
    split at h
    · nomatch h
    · cases h
      simp only
      omega
  | after =>
    simp only [hr] at h
    split at h
    · nomatch h
    · cases h
      simp only
      omega

/-- What every run to the Terminal keeps: RESULT counts the stores, and no cell of COEF loses its value. -/
theorem entRun_result {k : Int} {count : Nat} {s t : State} (h : EntRun k count s t) :
    ∃ n, t.result = BitVec.ofNat 32 n ∧ n ≤ count + storesLeft s.rom k := by
  induction h with
  | @stop k count s t hstep => exact ⟨count, rfl, Nat.le_add_right _ _⟩
  | @store k k' count s u t hstep _ ih =>
    obtain ⟨run, i, v, hnext, _⟩ := stored_cell hstep
    have hrom : u.rom = s.rom := (congrArg State.rom (stored_frame hstep) :)
    obtain ⟨n, hresult, hn⟩ := ih
    have hless := storesLeft_of_nextIndex hnext
    rw [hrom] at hn
    exact ⟨n, hresult, by omega⟩

theorem entRun_coef {k : Int} {count : Nat} {s t : State} (h : EntRun k count s t)
    (hs : ∀ i : Fin 64, ∃ v, s.coef[i] = some v) : ∀ i : Fin 64, ∃ v, t.coef[i] = some v := by
  induction h with
  | @stop k count s t hstep =>
    obtain ⟨len, rfl⟩ := eq_consume_of_stop hstep
    have hcoef : ((s.afterRead s.pos).consume len.val).coef = s.coef := by simp
    exact hcoef ▸ hs
  | @store k k' count s u t hstep _ ih =>
    obtain ⟨run, j, v, _, hcoef⟩ := stored_cell hstep
    refine ih fun i => ?_
    by_cases hij : i = j
    · exact ⟨v, by simp [hcoef, hij]⟩
    · obtain ⟨w, hw⟩ := hs i
      exact ⟨w, by rw [hcoef]; exact (Vector.getElem_set_ne j.isLt i.isLt fun e => hij (Fin.ext e.symm)).trans hw⟩

theorem initCoef_filled (s : State) (p : Plane) (i : Fin 64) : ∃ v, (s.initCoef p).coef[i] = some v := by
  by_cases h : i = 0
  · exact ⟨_, by rw [h]; rfl⟩
  · exact ⟨0, (Vector.getElem_set_ne (by omega) i.isLt fun e => h (Fin.ext e.symm)).trans (by simp)⟩

/-- Settles O27: the counter falls with every code, and each store needs a counter that is not below 0. -/
theorem entdecTerminates : Obligations.EntdecTerminates := by
  refine fun s p => ⟨entRun_or_entErr 64 63 0 (s.initCoef p) (by omega), fun t h => ⟨?_, ?_⟩⟩
  · obtain ⟨n, hresult, hn⟩ := entRun_result h
    have hrom : (s.initCoef p).rom = s.rom := rfl
    rw [hrom, storesLeft] at hn
    cases hr : s.rom.runOrder with
    | before => simp only [hr] at hn ⊢; rw [hresult, BitVec.toNat_ofNat]; omega
    | after => simp only [hr] at hn ⊢; rw [hresult, BitVec.toNat_ofNat]; omega
  · exact entRun_coef h (initCoef_filled s p)

/-! ### The ends of ENTDEC -/

theorem initCoef_readable {s : State} (h : Readable s) (p : Plane) : Readable (s.initCoef p) := h

theorem initCoef_peek17_eq {s : State} (h : Readable s) (p : Plane) :
    (s.initCoef p).peek17 = BitVec.ofNat 17 (streamField s s.pos.toNat 17) :=
  (peek17_eq (initCoef_readable h p)).trans (congrArg _ (streamField_congr rfl rfl rfl _ _))

theorem initCoef_peek17_toNat {s : State} (h : Readable s) (p : Plane) :
    (s.initCoef p).peek17.toNat = streamField s s.pos.toNat 17 :=
  (peek17_toNat (initCoef_readable h p)).trans (streamField_congr rfl rfl rfl _ _)

theorem initCoef_zero (s : State) (p : Plane) :
    (s.initCoef p).coef[0] = some (BitVec.ofInt 32 (s.dc[p].toInt * s.rom.scale[0].toInt)) := by
  rw [BitVec.ofInt_mul, BitVec.ofInt_toInt, BitVec.ofInt_toInt]
  rfl

theorem initCoef_other (s : State) (p : Plane) {i : Fin 64} (h : i ≠ 0) : (s.initCoef p).coef[i] = some 0 :=
  (Vector.getElem_set_ne (by omega) i.isLt fun e => h (Fin.ext e.symm)).trans (by simp)

/-- What a completed ENTDEC leaves alone. -/
theorem entdec_complete_frame {s t : State} {p : Plane} (h : entdec p s = .ok t) :
    SameButPage { s with coef := t.coef, result := t.result, pos := t.pos, status := t.complete.status } t.complete := by
  have hframe := eq_of_forgetDecode (entdec_forgetDecode p s)
  rw [h] at hframe
  exact (congrArg (fun u : State => { u with status := t.complete.status }) hframe :)

/-- Settles O25: the run to the Terminal has one iteration, from the coefficients that ENTDEC starts with. -/
theorem entdecTerminalFirst : Obligations.EntdecTerminalFirst := by
  intro s p cl len hs hcl hcw
  rw [← initCoef_peek17_eq hs p] at hcl hcw
  have hrun : EntRun 63 0 (s.initCoef p) _ := .stop (entStep_terminal hcl hcw 63)
  refine ⟨_, entdecFollowsCodes s _ p hrun, ?_, fun i hi => ?_, rfl, ?_, ?_, entdec_complete_frame (entdec_of_entRun hrun)⟩
  · simpa using initCoef_zero s p
  · simpa using initCoef_other s p hi
  · simp
  · simp [consume_status, State.passesEnd, past]

/-- A data error of a command that writes nothing else loses COEF and the free registers (60_exceptions.md rule R210). -/
theorem clobber_noWrites (s : State) : s.clobber noWrites = { s with
    pos := (s.clobber noWrites).pos, result := (s.clobber noWrites).result, coef := Vector.replicate 64 none
    status := { s.status with pastEnd := (s.clobber noWrites).status.pastEnd }
    pageValid := (s.clobber noWrites).pageValid, draws := s.draws + 11 } := by
  have htab {α : Type} {n : Nat} (v : Vector α n) : (tab fun i => v[i]) = v := Vector.ext fun i hi => getElem_tab _ i hi
  have hdc : (s.clobber noWrites).dc = s.dc := htab s.dc
  have hplane : (s.clobber noWrites).plane = s.plane := htab s.plane
  exact (congrArg₂ (fun (d : Vector Word 4) (b : Vector (Cells 64) 4) =>
    { s.clobber noWrites with dc := d, plane := b }) hdc hplane :)

theorem isData_of_ent {code : ErrCode} (h : code = .noCode ∨ code = .posUnderflow) : code.isData = true := by
  obtain rfl | rfl := h
  · rfl
  · rfl

theorem takeError_of_isData {code : ErrCode} (h : code.isData = true) (s : State) (info : Word) (w : Writes) :
    s.takeError code info w = (s.clobber w).raise code info := by
  rw [State.takeError, if_pos h]

theorem entErr_code {k : Int} {s : State} {code : ErrCode} {start : Word} (h : EntErr k s code start) :
    code = .noCode ∨ code = .posUnderflow := by
  induction h with
  | raise hstep => exact (entStep_err hstep).1
  | store _ _ ih => exact ih

/-- The end of an ENTDEC with a code that raises (60_exceptions.md rules R202 and R210). -/
theorem exec_entdec_of_entErr {s : State} {p : Plane} {code : ErrCode} {start : Word}
    (h : EntErr 63 (s.initCoef p) code start) :
    ∃ u, entdec p s = .err code start u ∧ exec (.entdec p) s = .next ((u.clobber noWrites).raise code start) := by
  obtain ⟨u, hu⟩ := entdec_of_entErr h
  refine ⟨u, hu, (congrArg (fun r : Res => r.finish entdecWrites) hu).trans ?_⟩
  exact congrArg _ (takeError_of_isData (isData_of_ent (entErr_code h)) u start noWrites)

/-- Settles O30: the loop stops at the code that raises, and the error loses what ENTDEC could write. -/
theorem entdecReportsDataError : Obligations.EntdecReportsDataError := by
  intro s p code start h
  obtain ⟨u, hu, hexec⟩ := exec_entdec_of_entErr h
  have hframe := eq_of_forgetDecode (entdec_forgetDecode p s)
  rw [hu] at hframe
  have hstatus : u.status = { s.status with pastEnd := u.status.pastEnd } := (congrArg State.status hframe :)
  refine ⟨_, hexec, entErr_code h, rfl, ?_, fun i => ?_, ?_⟩
  · rw [raise_status, clobber_noWrites, hstatus]
  · exact Vector.getElem_replicate i.isLt
  · rw [clobber_noWrites]
    exact (congrArg (fun v : State => { v with
      coef := Vector.replicate 64 none, pos := (u.clobber noWrites).pos, result := (u.clobber noWrites).result
      status := ((u.clobber noWrites).raise code start).status, errinfo := start
      pageValid := (u.clobber noWrites).pageValid, draws := u.draws + 11 }) hframe :)

/-- An iteration raises NO_CODE exactly when its peek has no class (42_entropy.md rule R118). -/
theorem entStep_eq_noCode_iff {k : Int} {s : State} :
    (∃ t, entStep k s = .err .noCode s.pos t) ↔ classOf s.peek17 = none := by
  refine ⟨fun ⟨t, h⟩ => ?_, fun h => ⟨_, entStep_noCode h k⟩⟩
  have hstore {run : Nat} {val : Int} {u : State} : storeAc s.pos k run val u ≠ .err .noCode s.pos t := by
    unfold storeAc
    split
    · nofun
    · nofun
  cases hcl : classOf s.peek17 with
  | none => rfl
  | some cl =>
    cases hcw : controlWord s.rom cl s.peek17 with
    | terminal len => nomatch (entStep_terminal hcl hcw k).symm.trans h
    | table len mag run => exact absurd ((entStep_table hcl hcw k).symm.trans h) hstore
    | escape len ex run => exact absurd ((entStep_escape hcl hcw k).symm.trans h) hstore

/-- The first threshold that a peek reaches is its class (30_encoding.md rule R84). -/
theorem classOf_thresholds (r : BitVec 17) :
    (classOf r = some 0 ↔ 0x8000 ≤ r.toNat) ∧
    (classOf r = some 1 ↔ 0x800 ≤ r.toNat ∧ r.toNat < 0x8000) ∧
    (classOf r = some 2 ↔ 0x400 ≤ r.toNat ∧ r.toNat < 0x800) ∧
    (classOf r = some 3 ↔ 0x200 ≤ r.toNat ∧ r.toNat < 0x400) ∧
    (classOf r = some 4 ↔ 0x100 ≤ r.toNat ∧ r.toNat < 0x200) ∧
    (classOf r = some 5 ↔ 0x80 ≤ r.toNat ∧ r.toNat < 0x100) ∧
    (classOf r = some 6 ↔ 0x40 ≤ r.toNat ∧ r.toNat < 0x80) ∧
    (classOf r = some 7 ↔ 0x20 ≤ r.toNat ∧ r.toNat < 0x40) := by
  unfold classOf
  split_ifs <;> simp <;> omega

/-- Settles O31: the thresholds, and the raise of a peek with no class as the first code of ENTDEC. -/
theorem entdecNoCodeBelow0x20 : Obligations.EntdecNoCodeBelow0x20 := by
  refine ⟨fun r => ?_, fun s p hs => ?_⟩
  · obtain ⟨h0, h1, h2, h3, h4, h5, h6, h7⟩ := classOf_thresholds r
    exact ⟨h0, h1, h2, h3, h4, h5, h6, h7, classOf_eq_none_iff r⟩
  · have hiff : streamField s s.pos.toNat 17 < 0x20 ↔ classOf (s.initCoef p).peek17 = none := by
      rw [classOf_eq_none_iff, initCoef_peek17_toNat hs]
    refine ⟨hiff.trans entStep_eq_noCode_iff.symm, fun hlt => ?_⟩
    obtain ⟨u, hu⟩ := entStep_eq_noCode_iff.2 (hiff.1 hlt)
    obtain ⟨v, _, hexec⟩ := exec_entdec_of_entErr (.raise hu)
    exact ⟨_, hexec, rfl, rfl, rfl⟩

end Sys2Proof.Machine
end

section
/-! The two passes of the inverse transform and PLANE (44_transform.md rules R163 to R166, 43_plane.md rule R146). -/

namespace Sys2Proof.Machine

open Sys2Proof.Spec

/-! ### The row pass -/

theorem rowOf_eq_coefRow (b : Vector Word 64) (r : Fin 8) : rowOf b r = coefRow b r := tab_eq_ofFn _

theorem strideOf_nine {c : Cfg} (h : c.rowOutStride = .nine) : strideOf c = 9 := by rw [strideOf, h]

theorem strideOf_eight {c : Cfg} (h : c.rowOutStride = .eight) : strideOf c = 8 := by rw [strideOf, h]

theorem eight_le_strideOf (c : Cfg) : 8 ≤ strideOf c := by
  cases h : c.rowOutStride with
  | nine => rw [strideOf_nine h]; omega
  | eight => rw [strideOf_eight h]

/-- A cell of row `r` at the stride holds output `k` of the row. -/
theorem storeRows_row {stride : Nat} (hs : 8 ≤ stride) (y : Vector (Vector Word 8) 8) (tmp : Cells 72) {r k : Fin 8}
    {j : Fin 72} (hj : j.val = stride * r.val + k.val) : (storeRows stride y tmp)[j] = some y[r][k] := by
  have hk : k.val < stride := by omega
  have hdiv : j.val / stride = r.val := by
    rw [hj, Nat.mul_add_div (by omega), Nat.div_eq_of_lt hk, Nat.add_zero]
  have hmod : j.val % stride = k.val := by rw [hj, Nat.mul_add_mod, Nat.mod_eq_of_lt hk]
  have hin : j.val / stride < 8 ∧ j.val % stride < 8 := by omega
  rw [storeRows, getElem_tab_fin, dif_pos hin]
  simp only [hdiv, hmod, Fin.getElem_fin]

/-- Every other cell keeps what it held. -/
theorem storeRows_other {stride : Nat} (y : Vector (Vector Word 8) 8) (tmp : Cells 72) {j : Fin 72}
    (hj : ∀ r k : Fin 8, j.val ≠ stride * r.val + k.val) : (storeRows stride y tmp)[j] = tmp[j] := by
  rw [storeRows, getElem_tab_fin, dif_neg]
  intro hin
  exact hj ⟨_, hin.1⟩ ⟨_, hin.2⟩ (Nat.div_add_mod _ _).symm

/-- TMP after the row pass of the coefficients `b` (44_transform.md rule R163). -/
def rowCells (s : State) (b : Vector Word 64) : Cells 72 := storeRows (strideOf s.rom) (rowPass s.rom b) s.tmp

theorem rowCells_row (s : State) (b : Vector Word 64) {r k : Fin 8} {j : Fin 72}
    (hj : j.val = strideOf s.rom * r.val + k.val) : (rowCells s b)[j] = some (t8 s.rom (coefRow b r))[k] := by
  rw [rowCells, storeRows_row (eight_le_strideOf s.rom) _ _ hj, rowPass, getElem_tab_fin, rowOf_eq_coefRow]

theorem rowCells_other (s : State) (b : Vector Word 64) {j : Fin 72}
    (hj : ∀ r k : Fin 8, j.val ≠ strideOf s.rom * r.val + k.val) : (rowCells s b)[j] = s.tmp[j] :=
  storeRows_other _ _ hj

theorem idctr_eq_ok {s : State} {b : Vector Word 64} (h : ∀ i : Fin 64, s.coef[i] = some b[i]) :
    idctr s = .ok { s with tmp := rowCells s b } := by
  rw [idctr, (cellValues_eq_some_iff s.coef b).2 h]
  rfl

theorem exec_idctr {s : State} {b : Vector Word 64} (h : ∀ i : Fin 64, s.coef[i] = some b[i]) :
    exec .idctr s = .next (State.complete { s with tmp := rowCells s b }) :=
  congrArg (fun r : Res => r.finish noWrites) (idctr_eq_ok h)

/-- Settles O33: the row pass completes, with the cells of `rowCells`. -/
theorem idctrTransformsRows : Obligations.IdctrTransformsRows := fun s b h =>
  ⟨_, exec_idctr h, fun _ _ _ hj => rowCells_row s b hj, fun _ hj => rowCells_other s b hj, rfl⟩

/-! ### The column pass -/

/-- The samples of the columns `x` (44_transform.md rule R164). -/
def columnSamples (c : Cfg) (x : Vector (Vector Word 8) 8) : Cells 64 :=
  storeColumns (tab fun i => t8 c x[i])

theorem columnSamples_getElem (c : Cfg) (x : Vector (Vector Word 8) 8) (k i : Fin 8) :
    (columnSamples c x)[8 * k.val + i.val] = some (t8 c x[i])[k] := by
  have hcol : (8 * k.val + i.val) % 8 = i.val := by omega
  have hrow : (8 * k.val + i.val) / 8 = k.val := by omega
  simp only [columnSamples, storeColumns, getElem_tab, hcol, hrow, Fin.getElem_fin]

/-- The cells that IDCTC reads, as the columns they form. -/
theorem idctc_eq_ok {s : State} {x : Vector (Vector Word 8) 8}
    (h : ∀ c j : Fin 8, s.tmp[c.val + 9 * j.val] = some x[c][j]) (p : Plane) :
    idctc p s = .ok (s.setPlane p (columnSamples s.rom x)) := by
  have hcells : cellValues (columnCells s.tmp) = some (tab fun i => x[i.val / 8][i.val % 8]) :=
    (cellValues_eq_some_iff _ _).2 fun i => by
      have hi : 8 * (i.val / 8) + i.val % 8 = i.val := Nat.div_add_mod _ _
      have hcell := columnCells_getElem s.tmp ⟨i.val / 8, by omega⟩ ⟨i.val % 8, by omega⟩
      simp only [hi] at hcell
      rw [getElem_tab_fin, Fin.getElem_fin, hcell]
      exact h ⟨i.val / 8, by omega⟩ ⟨i.val % 8, by omega⟩
  have hcolumn (c : Fin 8) : rowOf (tab fun i : Fin 64 => x[i.val / 8][i.val % 8]) c = x[c] := by
    refine Vector.ext fun j hj => ?_
    have hdiv : (8 * c.val + j) / 8 = c.val := by omega
    have hmod : (8 * c.val + j) % 8 = j := by omega
    simp only [rowOf, getElem_tab, hdiv, hmod, Fin.getElem_fin]
  simp only [idctc, hcells, columnPass, hcolumn, columnSamples]

theorem exec_idctc {s : State} {x : Vector (Vector Word 8) 8}
    (h : ∀ c j : Fin 8, s.tmp[c.val + 9 * j.val] = some x[c][j]) (p : Plane) :
    exec (.idctc p) s = .next (s.setPlane p (columnSamples s.rom x)).complete :=
  congrArg (fun r : Res => r.finish noWrites) (idctc_eq_ok h p)

theorem setPlane_columnSamples (s : State) (p : Plane) (x : Vector (Vector Word 8) 8) (k c : Fin 8) :
    (s.setPlane p (columnSamples s.rom x)).plane[p][8 * k.val + c.val] = some (t8 s.rom x[c])[k] := by
  simp only [setPlane_plane_self, columnSamples_getElem]

/-- Settles O34: the column pass completes, with the samples of `columnSamples`. -/
theorem idctcTransformsColumns : Obligations.IdctcTransformsColumns := fun s p x h =>
  ⟨_, exec_idctc h p, setPlane_columnSamples s p x, fun _ hq => setPlane_plane_other hq s _, rfl⟩

/-! ### Both passes -/

/-- Column `x` of the outputs of the rows, the input of the column pass under stride 9 (44_transform.md rule R165 (a)). -/
def rowOutputs (g : Cfg) (b : Vector Word 64) : Vector (Vector Word 8) 8 :=
  Vector.ofFn fun x => Vector.ofFn fun r => (t8 g (coefRow b r))[x]

theorem separable_eq (g : Cfg) (b : Vector Word 64) (k x : Fin 8) : separable g b k x = (t8 g (rowOutputs g b)[x])[k] := by
  simp [separable, rowOutputs]

/-- Under stride 9 the column pass reads the outputs of the rows. -/
theorem rowCells_column {s : State} (h : s.rom.rowOutStride = .nine) (b : Vector Word 64) (c j : Fin 8) :
    (rowCells s b)[c.val + 9 * j.val] = some (rowOutputs s.rom b)[c][j] := by
  have hcell : (rowCells s b)[(⟨c.val + 9 * j.val, by omega⟩ : Fin 72)] = some (t8 s.rom (coefRow b j))[c] :=
    rowCells_row s b (by rw [strideOf_nine h]; exact Nat.add_comm _ _)
  refine hcell.trans ?_
  simp [rowOutputs]

/-- Settles O35: the columns that IDCTC reads are those of the row outputs. -/
theorem transformIsSeparable : Obligations.TransformIsSeparable := by
  intro s p b hs hb
  have hcolumns := rowCells_column hs b
  refine ⟨_, _, exec_idctr hb, exec_idctc (s := State.complete { s with tmp := rowCells s b }) hcolumns p, fun k x => ?_⟩
  rw [separable_eq]
  exact setPlane_columnSamples (State.complete { s with tmp := rowCells s b }) p (rowOutputs s.rom b) k x

/-- Under stride 8 the rows fill the first 64 cells. -/
theorem rowCells_low {s : State} (h : s.rom.rowOutStride = .eight) (b : Vector Word 64) {j : Fin 72} {r k : Fin 8}
    (hj : j.val = 8 * r.val + k.val) : (rowCells s b)[j] = some (t8 s.rom (coefRow b r))[k] :=
  rowCells_row s b (by rw [strideOf_eight h]; exact hj)

/-- Under stride 8 the last eight cells keep what they held (44_transform.md rule R166). -/
theorem rowCells_high {s : State} (h : s.rom.rowOutStride = .eight) (b : Vector Word 64) {j : Fin 72} (hj : 64 ≤ j.val) :
    (rowCells s b)[j] = s.tmp[j] :=
  rowCells_other s b fun r k => by rw [strideOf_eight h]; omega

/-- A cell among TMP[64..70] is the last one of its column. -/
theorem idctc_of_missing_high {s : State} {j : Fin 72} (hlow : 64 ≤ j.val) (hhigh : j.val ≤ 70) (h : s.tmp[j] = none)
    (p : Plane) : idctc p s = .fault .tmpNoValue s := by
  obtain ⟨c, hc⟩ : ∃ c : Fin 8, j.val = c.val + 9 * (7 : Fin 8).val := ⟨⟨j.val - 63, by omega⟩, by
    have h7 : (7 : Fin 8).val = 7 := rfl
    simp only [h7]
    omega⟩
  exact idctc_of_missing (c := c) (j := 7) (by simpa only [Fin.getElem_fin, hc] using h) p

/-- Settles O36: rows at stride 8 end at cell 63, and IDCTC reads up to cell 70. -/
theorem strideEightLeavesCells : Obligations.StrideEightLeavesCells := by
  intro s p b hs hb
  refine ⟨_, exec_idctr hb, fun j hj => rowCells_high hs b hj, fun j => ?_, fun ⟨j, hlow, hhigh, hj⟩ => ?_⟩
  · exact rowCells_low hs b (j := ⟨j.val, by omega⟩) (r := ⟨j.val / 8, by omega⟩) (k := ⟨j.val % 8, by omega⟩)
      (Nat.div_add_mod _ _).symm
  · have hmissing : (State.complete { s with tmp := rowCells s b }).tmp[j] = none := (rowCells_high hs b hlow).trans hj
    exact congrArg (fun r : Res => r.finish noWrites) (idctc_of_missing_high hlow hhigh hmissing p)

/-! ### PLANE -/

theorem plane_of_fill {p : Plane} {s : State} (h : (dcdec p s).status.fill = true) :
    plane p s = .ok (fillPlane p (dcdec p s)) := if_pos h

theorem plane_of_coded {p : Plane} {s : State} (h : (dcdec p s).status.fill = false) :
    plane p s = ((entdec p (dcdec p s)).bind idctr).bind (idctc p) := if_neg (by rw [h]; nofun)

theorem dcdec_plane (p : Plane) (s : State) : (dcdec p s).plane = s.plane := (congrArg State.plane (dcdec_dcFrame p s) :)

theorem dcdec_tmp (p : Plane) (s : State) : (dcdec p s).tmp = s.tmp := (congrArg State.tmp (dcdec_dcFrame p s) :)

theorem dcdec_coef (p : Plane) (s : State) : (dcdec p s).coef = s.coef := (congrArg State.coef (dcdec_dcFrame p s) :)

/-- Settles O22: DCDEC and the samples of FILL, completed once. -/
theorem planeFillPath : Obligations.PlaneFillPath := by
  intro s p h
  have hexec : exec (.plane p) s = .next (fillPlane p (dcdec p s)).complete :=
    congrArg (fun r : Res => r.finish (planeWrites p)) (plane_of_fill h)
  refine ⟨_, hexec, fillPlane_getElem p (dcdec p s), fun q hq => ?_, dcdec_coef p s, dcdec_tmp p s, rfl⟩
  rw [← dcdec_plane p s]
  exact setPlane_plane_other hq (dcdec p s) _

/-- The end of the entropy decoder of a coded plane: every cell of COEF holds a value, and TMP, the planes and the
configuration are those the plane started with. -/
theorem codedPlane_decoded {s u : State} {p : Plane} (h : EntRun 63 0 ((dcdec p s).initCoef p) u) :
    (∃ b : Vector Word 64, ∀ i : Fin 64, u.coef[i] = some b[i]) ∧
      u.tmp = s.tmp ∧ u.plane = s.plane ∧ u.rom = s.rom := by
  have hframe := entdec_forgetDecode p (dcdec p s)
  rw [entdec_of_entRun h] at hframe
  have htmp : u.tmp = (dcdec p s).tmp := (congrArg State.tmp hframe :)
  have hplane : u.plane = (dcdec p s).plane := (congrArg State.plane hframe :)
  have hrom : u.rom = (dcdec p s).rom := (congrArg State.rom hframe :)
  refine ⟨?_, htmp.trans (dcdec_tmp p s), hplane.trans (dcdec_plane p s), hrom.trans (dcdec_rom p s)⟩
  choose v hv using entRun_coef h (initCoef_filled (dcdec p s) p)
  exact ⟨Vector.ofFn v, fun i => by rw [hv i]; simp⟩

/-- The two passes of a coded plane after its entropy decoder (43_plane.md rule R146). -/
theorem plane_of_entRun {s u : State} {p : Plane} (hfill : (dcdec p s).status.fill = false)
    (h : EntRun 63 0 ((dcdec p s).initCoef p) u) : plane p s = (idctr u).bind (idctc p) := by
  rw [plane_of_coded hfill, entdec_of_entRun h]
  rfl

/-- A coded plane whose column pass reads values completes with the samples of its columns. -/
theorem exec_plane_of_columns {s u : State} {p : Plane} (hfill : (dcdec p s).status.fill = false)
    (h : EntRun 63 0 ((dcdec p s).initCoef p) u) {b : Vector Word 64} (hb : ∀ i : Fin 64, u.coef[i] = some b[i])
    {x : Vector (Vector Word 8) 8} (hx : ∀ c j : Fin 8, (rowCells u b)[c.val + 9 * j.val] = some x[c][j]) :
    exec (.plane p) s =
      .next (State.setPlane { u with tmp := rowCells u b } p (columnSamples u.rom x)).complete := by
  refine (congrArg (fun r : Res => r.finish (planeWrites p)) (plane_of_entRun hfill h)).trans ?_
  rw [idctr_eq_ok hb, bind_ok, idctc_eq_ok (s := { u with tmp := rowCells u b }) hx]
  rfl

/-- Under stride 8 column `c` holds the cells `c + 9r` of `x` (44_transform.md rule R166). -/
def skewedColumns (x : Vector Word 72) : Vector (Vector Word 8) 8 :=
  Vector.ofFn fun c => Vector.ofFn fun r => x[c.val + 9 * r.val]

theorem rowCells_skewed {s : State} (h : s.rom.rowOutStride = .eight) (b : Vector Word 64) {x : Vector Word 72}
    (hrows : ∀ r k : Fin 8, x[8 * r.val + k.val] = (t8 s.rom (coefRow b r))[k])
    (htail : ∀ j : Fin 72, 64 ≤ j.val → j.val ≤ 70 → s.tmp[j] = some x[j]) (c j : Fin 8) :
    (rowCells s b)[c.val + 9 * j.val] = some (skewedColumns x)[c][j] := by
  have hcell : (rowCells s b)[(⟨c.val + 9 * j.val, by omega⟩ : Fin 72)] = some x[c.val + 9 * j.val] := by
    by_cases hlow : c.val + 9 * j.val < 64
    · have hidx : 8 * ((c.val + 9 * j.val) / 8) + (c.val + 9 * j.val) % 8 = c.val + 9 * j.val := Nat.div_add_mod _ _
      have hrow := hrows ⟨(c.val + 9 * j.val) / 8, by omega⟩ ⟨(c.val + 9 * j.val) % 8, by omega⟩
      simp only [hidx] at hrow
      rw [rowCells_low h b (r := ⟨(c.val + 9 * j.val) / 8, by omega⟩) (k := ⟨(c.val + 9 * j.val) % 8, by omega⟩)
        hidx.symm, hrow]
    · rw [rowCells_high h b (by simp only; omega)]
      exact htail _ (by simp only; omega) (by simp only; omega)
  refine hcell.trans ?_
  simp [skewedColumns]

/-- Settles O23: after the entropy decoder the plane is the two passes, and the stride says which cells the second reads. -/
theorem planeCodedPath : Obligations.PlaneCodedPath := by
  intro s u p hfill hrun
  obtain ⟨⟨b, hb⟩, htmp, hplane, hrom⟩ := codedPlane_decoded hrun
  have hother (x : Vector (Vector Word 8) 8) (q : Plane) (hq : q ≠ p) :
      (State.setPlane { u with tmp := rowCells u b } p (columnSamples u.rom x)).complete.plane[q] = s.plane[q] := by
    rw [← hplane]
    exact setPlane_plane_other hq { u with tmp := rowCells u b } _
  refine ⟨b, hb, fun hs => ?_, fun hs => ⟨fun x hrows htail => ?_, fun ⟨j, hlow, hhigh, hj⟩ => ?_⟩⟩
  · rw [← hrom] at hs
    refine ⟨_, exec_plane_of_columns hfill hrun hb (rowCells_column hs b), fun k x => ?_, hother _, fun r k => ?_,
      fun r => ?_, rfl⟩
    · rw [← hrom, separable_eq]
      exact setPlane_columnSamples { u with tmp := rowCells u b } p (rowOutputs u.rom b) k x
    · rw [← hrom]
      exact rowCells_row u b (j := ⟨9 * r.val + k.val, by omega⟩) (by rw [strideOf_nine hs])
    · rw [← htmp]
      exact rowCells_other u b (j := ⟨9 * r.val + 8, by omega⟩) fun r' k => by rw [strideOf_nine hs]; simp only; omega
  · rw [← hrom] at hs hrows
    rw [← htmp] at htail
    refine ⟨_, exec_plane_of_columns hfill hrun hb (rowCells_skewed hs b hrows htail), fun k c => ?_, hother _,
      fun r k => ?_, fun j hj => ?_, rfl⟩
    · rw [← hrom]
      refine (setPlane_columnSamples { u with tmp := rowCells u b } p (skewedColumns x) k c).trans ?_
      simp [skewedColumns]
    · rw [hrows]
      exact rowCells_low hs b (j := ⟨8 * r.val + k.val, by omega⟩) rfl
    · rw [← htmp]
      exact rowCells_high hs b hj
  · rw [← hrom] at hs
    rw [← htmp] at hj
    refine (congrArg (fun r : Res => r.finish (planeWrites p)) (plane_of_entRun hfill hrun)).trans ?_
    rw [idctr_eq_ok hb, bind_ok]
    exact congrArg (fun r : Res => r.finish (planeWrites p)) (idctc_of_missing_high hlow hhigh
      (s := { u with tmp := rowCells u b }) ((rowCells_high hs b hlow).trans hj) p)

/-! ### The bits that a plane consumes -/

/-- POS is at most `n` bits further (30_encoding.md rule R85). -/
def Advances (n : Nat) (s t : State) : Prop := ∃ c, c ≤ n ∧ t.pos = s.pos + BitVec.ofNat 32 c

theorem Advances.trans {m n : Nat} {s t u : State} (hst : Advances m s t) (htu : Advances n t u) : Advances (m + n) s u := by
  obtain ⟨c, hc, ht⟩ := hst
  obtain ⟨d, hd, hu⟩ := htu
  exact ⟨c + d, by omega, by rw [hu, ht, BitVec.ofNat_add, BitVec.add_assoc]⟩

theorem Advances.mono {m n : Nat} {s t : State} (h : Advances m s t) (hmn : m ≤ n) : Advances n s t := by
  obtain ⟨c, hc, ht⟩ := h
  exact ⟨c, by omega, ht⟩

/-- The DC code has at most 8 bits of jump code and 24 extra bits. -/
theorem afterDcCode_advances (s : State) : Advances 32 s s.afterDcCode := by
  have hskip : Advances 8 s s.afterDcSkip := ⟨s.dcJumpAt.skip.val, by omega, afterDcSkip_pos s⟩
  have hextra : Advances 24 s.afterDcSkip s.afterDcCode := by
    rw [State.afterDcCode]
    split
    · exact ⟨0, by omega, (BitVec.add_zero _).symm⟩
    · exact ⟨s.dcJumpAt.extra.val, by omega, by simp⟩
  exact hskip.trans hextra

/-- At most 31 bits for each store, and at most 17 for the Terminal. -/
theorem entRun_advances {k : Int} {count : Nat} {s t : State} (h : EntRun k count s t) :
    Advances (31 * storesLeft s.rom k + 17) s t := by
  induction h with
  | stop hstep =>
    obtain ⟨len, rfl⟩ := eq_consume_of_stop hstep
    exact ⟨len.val, by omega, by simp⟩
  | store hstep _ ih =>
    obtain ⟨run, i, v, hnext, _⟩ := stored_cell hstep
    have hless := storesLeft_of_nextIndex hnext
    rw [(congrArg State.rom (stored_frame hstep) :)] at ih
    exact (Advances.trans (stored_pos hstep) ih).mono (by simp only; omega)

theorem storesLeft_63 (c : Cfg) : storesLeft c 63 ≤ 64 := by
  cases h : c.runOrder with
  | before => simp [storesLeft, h]
  | after => simp [storesLeft, h]

/-- An ENTDEC that completes followed its codes to the Terminal. -/
theorem entRun_of_entdec {s t : State} {p : Plane} (h : entdec p s = .ok t) : EntRun 63 0 (s.initCoef p) t := by
  obtain ⟨u, hu⟩ | ⟨code, start, _, herr⟩ := entRun_or_entErr 64 63 0 (s.initCoef p) (by omega)
  · cases (entdec_of_entRun hu).symm.trans h
    exact hu
  · obtain ⟨u, hu⟩ := entdec_of_entErr herr
    nomatch hu.symm.trans h

theorem plane_advances {p : Plane} {s t : State} (h : plane p s = .ok t) : Advances 2033 s t := by
  cases hfill : (dcdec p s).status.fill with
  | true =>
    cases (plane_of_fill hfill).symm.trans h
    have hflag : Advances 2 s.afterDcCode (fillPlane p (dcdec p s)) :=
      ⟨2, Nat.le_refl 2, (dcdec_pos p s).trans (if_pos hfill)⟩
    exact ((afterDcCode_advances s).trans hflag).mono (by omega)
  | false =>
    have hflag : Advances 0 s.afterDcCode (dcdec p s) :=
      ⟨0, Nat.le_refl 0, ((dcdec_pos p s).trans (if_neg (by rw [hfill]; nofun))).trans (BitVec.add_zero _).symm⟩
    rw [plane_of_coded hfill] at h
    obtain ⟨v, hv, hcol⟩ := bind_eq_ok_iff.1 h
    obtain ⟨u, hu, hrow⟩ := bind_eq_ok_iff.1 hv
    have hvpos : v.pos = u.pos := by
      have hframe := idctr_frame u
      rw [hrow] at hframe
      exact (congrArg State.pos hframe :)
    have htpos : t.pos = v.pos := by
      have hframe := idctc_frame p v
      rw [hcol] at hframe
      exact (congrArg State.pos hframe :)
    obtain ⟨c, hc, hpos⟩ := entRun_advances (entRun_of_entdec hu)
    have hcodes : Advances 2001 (dcdec p s) t := by
      have hstores := storesLeft_63 ((dcdec p s).initCoef p).rom
      exact ⟨c, by omega, (htpos.trans hvpos).trans hpos⟩
    exact ((afterDcCode_advances s).trans hflag).trans hcodes

/-- Settles O24: 32 bits of DC code, at most 64 codes of 31 bits, and a Terminal of 17. -/
theorem planeConsumesAtMost2033Bits : Obligations.PlaneConsumesAtMost2033Bits := by
  intro s t p _ h hok
  obtain ⟨u, hu, rfl⟩ := completed_of_noError h hok
  have hadvance : Advances 2033 s u := plane_advances hu
  exact hadvance

end Sys2Proof.Machine
end

section
/-! The write of a tile (45_block.md rules R179 to R181): the addresses of its pixels are apart, so each pixel's bytes are
those of its last and only store. -/

namespace Sys2Proof.Machine

open Sys2Proof.Spec

/-! ### One pixel -/

/-- `MemWrite` leaves the four bytes of its word, least significant first (20_memory.md rule R62). -/
theorem memWrite_read_same {s : State} (h : s.dst.wf = true) (a v : Word) (k : Fin 4) :
    (s.memWrite a v).dst.read (byteAddr a k) = v.extractLsb' (8 * k.val) 8 := by
  have hwf0 := storeByte_dst_wf a (v.extractLsb' 0 8) h
  have hwf1 := storeByte_dst_wf (a + 1) (v.extractLsb' 8 8) hwf0
  have hwf2 := storeByte_dst_wf (a + 2) (v.extractLsb' 16 8) hwf1
  have hzero : byteAddr a 0 = a.toNat := by simp [byteAddr]
  unfold State.memWrite
  match k with
  | 0 =>
    rw [storeByte_read_other _ (by rw [hzero]; bv_omega), storeByte_read_other _ (by rw [hzero]; bv_omega),
      storeByte_read_other _ (by rw [hzero]; bv_omega), hzero]
    exact storeByte_read_same a _ h
  | 1 =>
    change Memory.read _ (a + 1).toNat = _
    rw [storeByte_read_other _ (by bv_omega), storeByte_read_other _ (by bv_omega)]
    exact storeByte_read_same (a + 1) _ hwf0
  | 2 =>
    change Memory.read _ (a + 2).toNat = _
    rw [storeByte_read_other _ (by bv_omega)]
    exact storeByte_read_same (a + 2) _ hwf1
  | 3 => exact storeByte_read_same (a + 3) _ hwf2

/-- A pixel's number in the image, in raster order. -/
def State.pixelNumber (s : State) (i : Fin 64) : Nat := s.pixelY (i.val / 8) * s.imgW.toNat + s.pixelX (i.val % 8)

/-- Pixels inside the image with one number are one pixel: the number is row and column in base IMG_W. -/
theorem eq_of_pixelNumber_eq {s : State} {i j : Fin 64} (hi : s.pixelInside i = true) (hj : s.pixelInside j = true)
    (h : s.pixelNumber i = s.pixelNumber j) : i = j := by
  have hxi : s.pixelX (i.val % 8) < s.imgW.toNat := of_decide_eq_true (Bool.and_eq_true_iff.1 hi).1
  have hxj : s.pixelX (j.val % 8) < s.imgW.toNat := of_decide_eq_true (Bool.and_eq_true_iff.1 hj).1
  have hcol : s.pixelX (i.val % 8) = s.pixelX (j.val % 8) := by
    have hmod := congrArg (· % s.imgW.toNat) h
    simpa only [State.pixelNumber, Nat.mul_add_mod_self_right, Nat.mod_eq_of_lt hxi, Nat.mod_eq_of_lt hxj] using hmod
  have hrow : s.pixelY (i.val / 8) = s.pixelY (j.val / 8) := by
    rw [State.pixelNumber, State.pixelNumber, hcol] at h
    exact Nat.eq_of_mul_eq_mul_right (by omega) (Nat.add_right_cancel h)
  simp only [State.pixelX, State.pixelY] at hcol hrow
  omega

/-- The pixels of a tile span less than eight rows of the image. -/
theorem pixelNumber_bounds {s : State} {i : Fin 64} (hi : s.pixelInside i = true) :
    8 * s.blkY.toNat * s.imgW.toNat ≤ s.pixelNumber i ∧
      s.pixelNumber i < 8 * s.blkY.toNat * s.imgW.toNat + 8 * 65536 := by
  have hx : s.pixelX (i.val % 8) < s.imgW.toNat := of_decide_eq_true (Bool.and_eq_true_iff.1 hi).1
  have hw := s.imgW.isLt
  have hrows : i.val / 8 * s.imgW.toNat ≤ 7 * s.imgW.toNat := Nat.mul_le_mul_right _ (by omega)
  rw [State.pixelNumber, State.pixelY, Nat.add_mul]
  omega

/-- The bytes of the pixels inside the image have different addresses, also modulo 2^32 (45_block.md rule R180). -/
theorem eq_of_byteAddr_eq {s : State} {i j : Fin 64} (hi : s.pixelInside i = true) (hj : s.pixelInside j = true)
    {k k' : Fin 4} (h : byteAddr (s.pixelAddr i) k = byteAddr (s.pixelAddr j) k') : i = j := by
  have hboundi := pixelNumber_bounds hi
  have hboundj := pixelNumber_bounds hj
  refine eq_of_pixelNumber_eq hi hj ?_
  have haddr (l : Fin 64) : s.pixelAddr l = s.dstBase + BitVec.ofNat 32 (4 * s.pixelNumber l) := rfl
  rw [haddr, haddr] at h
  simp only [byteAddr, BitVec.toNat_add, BitVec.toNat_ofNat] at h
  omega

/-! ### The tile -/

/-- The stores of the tile's pixels inside the image, with the values `v`. -/
def storePixels (v : Vector Word 64) : List (Fin 64) → State → State
  | [], s => s
  | i :: rest, s => storePixels v rest (if s.pixelInside i then s.memWrite (s.pixelAddr i) v[i] else s)

/-- The model's pass is those stores when each pixel inside the image holds its value. -/
theorem writePixels_eq_ok {v : Vector Word 64} (l : List (Fin 64)) :
    ∀ {s : State}, (∀ i : Fin 64, s.pixelInside i = true → s.pix[i] = some v[i]) →
      writePixels l s = .ok (storePixels v l s) := by
  induction l with
  | nil => intro s _; rfl
  | cons i rest ih =>
    intro s h
    rw [writePixels, storePixels]
    split
    next hin =>
      rw [h i hin]
      exact ih fun j hj => by simpa using h j (by simpa using hj)
    next => exact ih h

/-- Every step of the pass is a store of a pixel inside the image, or nothing. -/
theorem storePixels_keeps {P : State → Prop} {v : Vector Word 64}
    (hstore : ∀ (s : State) (i : Fin 64), P s → s.pixelInside i = true → P (s.memWrite (s.pixelAddr i) v[i]))
    (l : List (Fin 64)) : ∀ {s : State}, P s → P (storePixels v l s) := by
  induction l with
  | nil => exact id
  | cons i rest ih =>
    intro s hs
    rw [storePixels]
    split
    next hin => exact ih (hstore s i hs hin)
    next => exact ih hs

/-- The address of a pixel depends on the image and the tile only (45_block.md rule R180). -/
theorem pixelAddr_congr {s t : State} (hw : t.imgW = s.imgW) (hb : t.dstBase = s.dstBase) (hx : t.blkX = s.blkX)
    (hy : t.blkY = s.blkY) (i : Fin 64) : t.pixelAddr i = s.pixelAddr i := by
  simp only [State.pixelAddr, State.pixelX, State.pixelY, hw, hb, hx, hy]

@[simp] theorem memWrite_pixelAddr (s : State) (a v : Word) (i : Fin 64) : (s.memWrite a v).pixelAddr i = s.pixelAddr i :=
  pixelAddr_congr (memWrite_imgW s a v) (memWrite_dstBase s a v) (memWrite_blkX s a v) (memWrite_blkY s a v) i

/-- A byte of no listed pixel stays. -/
theorem storePixels_read_other {v : Vector Word 64} {a : Nat} (l : List (Fin 64)) :
    ∀ {s : State}, (∀ i ∈ l, s.pixelInside i = true → ∀ k : Fin 4, a ≠ byteAddr (s.pixelAddr i) k) →
      (storePixels v l s).dst.read a = s.dst.read a := by
  induction l with
  | nil => intro s _; rfl
  | cons i rest ih =>
    intro s h
    rw [storePixels]
    split
    next hin =>
      rw [ih fun j hj hjin => by simpa using h j (List.mem_cons_of_mem i hj) (by simpa using hjin)]
      exact memWrite_read_other (h i List.mem_cons_self hin)
    next => exact ih fun j hj => h j (List.mem_cons_of_mem i hj)

/-- The bytes of a listed pixel inside the image are those of its value. -/
theorem storePixels_read {v : Vector Word 64} {i : Fin 64} (k : Fin 4) (l : List (Fin 64)) (hmem : i ∈ l) :
    ∀ {s : State}, s.dst.wf = true → s.pixelInside i = true →
      (storePixels v l s).dst.read (byteAddr (s.pixelAddr i) k) = v[i].extractLsb' (8 * k.val) 8 := by
  induction l with
  | nil => nomatch hmem
  | cons j rest ih =>
    intro s hwf hin
    rw [storePixels]
    by_cases hrest : i ∈ rest
    · split
      next hj =>
        rw [← memWrite_pixelAddr s (s.pixelAddr j) v[j] i]
        exact ih hrest (memWrite_dst_wf _ _ hwf) ((memWrite_pixelInside s _ _ i).trans hin)
      next => exact ih hrest hwf hin
    · obtain rfl : i = j := (List.mem_cons.1 hmem).resolve_right hrest
      rw [if_pos hin, storePixels_read_other rest]
      · exact memWrite_read_same hwf _ _ k
      · intro j hj hjin k' haddr
        rw [memWrite_pixelInside] at hjin
        rw [memWrite_pixelAddr] at haddr
        exact hrest (eq_of_byteAddr_eq hin hjin haddr ▸ hj)

/-- Only the destination space and the record of its stores differ. -/
def StoreFrame (s t : State) : Prop := t = { s with dst := t.dst, raced := t.raced }

theorem StoreFrame.trans {s t u : State} (hst : StoreFrame s t) (htu : StoreFrame t u) : StoreFrame s u :=
  Eq.trans htu (congrArg (fun v : State => { v with dst := u.dst, raced := u.raced }) hst)

theorem storeByte_storeFrame (s : State) (a : Word) (v : Byte) : StoreFrame s (s.storeByte a v) := rfl

theorem memWrite_storeFrame (s : State) (a v : Word) : StoreFrame s (s.memWrite a v) :=
  (((storeByte_storeFrame s _ _).trans (storeByte_storeFrame _ _ _)).trans (storeByte_storeFrame _ _ _)).trans
    (storeByte_storeFrame _ _ _)

theorem StoreFrame.tileFrame {s t : State} (h : StoreFrame s t) : TileFrame s t :=
  (congrArg (fun u : State => { u with blkX := t.blkX, blkY := t.blkY }) h :)

theorem storePixels_frame (v : Vector Word 64) (l : List (Fin 64)) (s : State) : StoreFrame s (storePixels v l s) :=
  storePixels_keeps (fun t i ht _ => ht.trans (memWrite_storeFrame t (t.pixelAddr i) v[i])) l rfl

/-- The tile after `s`'s, in raster order (45_block.md rule R181). -/
theorem advanceTile_blk (s : State) :
    (s.blkX.toNat + 1 = (s.imgW.toNat + 7) / 8 → s.advanceTile.blkX = 0 ∧ s.advanceTile.blkY = s.blkY + 1) ∧
    (s.blkX.toNat + 1 ≠ (s.imgW.toNat + 7) / 8 → s.advanceTile.blkX = s.blkX + 1 ∧ s.advanceTile.blkY = s.blkY) := by
  refine ⟨fun hlast => ?_, fun hnext => ?_⟩
  · rw [show s.advanceTile = { s with blkX := 0, blkY := s.blkY + 1 } from if_pos hlast]
    exact ⟨rfl, rfl⟩
  · rw [show s.advanceTile = { s with blkX := s.blkX + 1 } from if_neg hnext]
    exact ⟨rfl, rfl⟩

/-- What the write of a tile with the pixels `v` leaves in the destination and the tile registers
(45_block.md rules R179 to R181). -/
structure TileWritten (s : State) (v : Vector Word 64) (t : State) : Prop where
  bytes : ∀ i : Fin 64, s.pixelInside i = true → ∀ k : Fin 4,
    t.dst.read (byteAddr (s.pixelAddr i) k) = v[i].extractLsb' (8 * k.val) 8
  others : ∀ a : Nat, (∀ i : Fin 64, s.pixelInside i = true → ∀ k : Fin 4, a ≠ byteAddr (s.pixelAddr i) k) →
    t.dst.read a = s.dst.read a
  lastColumn : s.blkX.toNat + 1 = (s.imgW.toNat + 7) / 8 → t.blkX = 0 ∧ t.blkY = s.blkY + 1
  otherColumn : s.blkX.toNat + 1 ≠ (s.imgW.toNat + 7) / 8 → t.blkX = s.blkX + 1 ∧ t.blkY = s.blkY

theorem TileWritten.of_stores {s t : State} {v : Vector Word 64} (hframe : StoreFrame s t)
    (hbytes : ∀ i : Fin 64, s.pixelInside i = true → ∀ k : Fin 4,
      t.dst.read (byteAddr (s.pixelAddr i) k) = v[i].extractLsb' (8 * k.val) 8)
    (hothers : ∀ a : Nat, (∀ i : Fin 64, s.pixelInside i = true → ∀ k : Fin 4, a ≠ byteAddr (s.pixelAddr i) k) →
      t.dst.read a = s.dst.read a) : TileWritten s v t.advanceTile := by
  obtain ⟨hlast, hnext⟩ := advanceTile_blk t
  rw [(congrArg State.blkX hframe :), (congrArg State.blkY hframe :), (congrArg State.imgW hframe :)] at hlast hnext
  refine ⟨?_, ?_, hlast, hnext⟩
  · rwa [advanceTile_dst]
  · rwa [advanceTile_dst]

theorem storePixels_tileWritten {s : State} (hwf : s.dst.wf = true) (v : Vector Word 64) :
    TileWritten s v (storePixels v tilePixels s).advanceTile :=
  .of_stores (storePixels_frame v tilePixels s) (fun i hin k => storePixels_read k tilePixels (mem_tilePixels i) hwf hin)
    fun _ ha => storePixels_read_other tilePixels fun i _ => ha i

/-- The write of a tile whose pixels inside the image hold values completes. -/
theorem writeTile_of_pixels {s : State} {v : Vector Word 64}
    (h : ∀ i : Fin 64, s.pixelInside i = true → s.pix[i] = some v[i]) :
    ∃ t, writeTile s = .ok t ∧ TileFrame s t ∧ (s.dst.wf = true → TileWritten s v t) :=
  ⟨_, by rw [writeTile, writePixels_eq_ok tilePixels h, bind_ok],
    (storePixels_frame v tilePixels s).tileFrame.trans (advanceTile_frame _), fun hwf => storePixels_tileWritten hwf v⟩

/-- Settles O39: the write of the tile, completed. -/
theorem wrblkWritesTile : Obligations.WrblkWritesTile := by
  intro s v hwf htile hpix
  obtain ⟨t, ht, hframe, hwritten⟩ := writeTile_of_pixels hpix
  have hwrblk : wrblk s = .ok t := (withGeometry_of_tileInImage htile writeTile).trans ht
  obtain ⟨hbytes, hothers, hlast, hnext⟩ := hwritten hwf
  exact ⟨t.complete, congrArg (fun r : Res => r.finish noWrites) hwrblk, hbytes, hothers, hlast, hnext,
    congrArg State.complete hframe⟩

end Sys2Proof.Machine
end

section
/-! BLOCK and IMAGE (45_block.md rules R182 to R185): the planes in stream order, the conversion and the write of each block,
and the errors that stop them. -/

namespace Sys2Proof.Machine

open Sys2Proof.Spec

/-! ### One plane of a block -/

theorem plane_of_planeRun {p : Plane} {s w : State} (h : PlaneRun p s w) : plane p s = .ok w := by
  cases h with
  | fill hfill => exact plane_of_fill hfill
  | coded hfill hrun hrow hcol => rw [plane_of_entRun hfill hrun, hrow, bind_ok, hcol]

theorem plane_of_planeErr {p : Plane} {s : State} {code : ErrCode} {start : Word} (h : PlaneErr p s code start) :
    ∃ u, plane p s = .err code start u := by
  obtain ⟨hfill, herr⟩ := h
  obtain ⟨u, hu⟩ := entdec_of_entErr herr
  exact ⟨u, by rw [plane_of_coded hfill, hu]; rfl⟩

theorem planeErr_isData {p : Plane} {s : State} {code : ErrCode} {start : Word} (h : PlaneErr p s code start) :
    code.isData = true := isData_of_ent (entErr_code h.2)

theorem forgetPlane_of_plane {p : Plane} {s w : State} (h : plane p s = .ok w) : forgetPlane w = forgetPlane s := by
  have hframe := plane_forgetPlane p s
  rw [h] at hframe
  exact hframe

/-- Every sample of the plane holds a value. -/
def PlaneFilled (s : State) (q : Plane) : Prop := ∀ i : Fin 64, ∃ v, s.plane[q][i] = some v

theorem idctc_filled {p : Plane} {s w : State} (h : idctc p s = .ok w) : PlaneFilled w p := by
  unfold idctc at h
  split at h
  · nomatch h
  next cols _ =>
    cases h
    intro i
    rw [setPlane_plane_self, storeColumns, getElem_tab_fin]
    exact ⟨_, rfl⟩

/-- A decoded plane has a value in every sample (43_plane.md rule R146). -/
theorem plane_filled {p : Plane} {s w : State} (h : plane p s = .ok w) : PlaneFilled w p := by
  cases hfill : (dcdec p s).status.fill with
  | true =>
    cases (plane_of_fill hfill).symm.trans h
    exact fun i => ⟨_, fillPlane_getElem p (dcdec p s) i⟩
  | false =>
    rw [plane_of_coded hfill] at h
    obtain ⟨v, _, hcol⟩ := bind_eq_ok_iff.1 h
    exact idctc_filled hcol

theorem plane_keeps_filled {p q : Plane} {s w : State} (h : plane p s = .ok w) (hs : PlaneFilled s q) :
    PlaneFilled w q := by
  by_cases hq : q = p
  · exact hq ▸ plane_filled h
  · have hsame := (plane_other hq s).1
    rw [h] at hsame
    change w.plane[q] = s.plane[q] at hsame
    exact fun i => by rw [hsame]; exact hs i

/-! ### The planes of a block -/

/-- The planes of a block in stream order (45_block.md rule R182). -/
def blockPlanes (s : State) : Res := (((plane 0 s).bind (plane 1)).bind (plane 2)).bind alphaPlane

theorem blockBody_eq (s : State) : blockBody s = ((blockPlanes s).bind cconv).bind writeTile := rfl

theorem alphaPlane_of_on {s : State} (h : s.ctrl.alpha = true) : alphaPlane s = plane 3 s := if_pos h

theorem alphaPlane_of_off {s : State} (h : s.ctrl.alpha = false) : alphaPlane s = .ok s := if_neg (by rw [h]; nofun)

theorem alpha_of_forgetPlane {s t : State} (h : forgetPlane t = forgetPlane s) : t.ctrl.alpha = s.ctrl.alpha :=
  (congrArg (fun u : State => u.ctrl.alpha) h :)

theorem alphaPlane_forgetPlane (s : State) : forgetPlane (alphaPlane s).state = forgetPlane s := by
  unfold alphaPlane
  split
  · exact plane_forgetPlane 3 s
  · rfl

theorem blockPlanes_forgetPlane (s : State) : forgetPlane (blockPlanes s).state = forgetPlane s :=
  bind_state_of (P := fun u => forgetPlane u = forgetPlane s)
    (bind_state_of (P := fun u => forgetPlane u = forgetPlane s)
      (bind_state_of (P := fun u => forgetPlane u = forgetPlane s) (plane_forgetPlane 0 s)
        fun u _ hu => (plane_forgetPlane 1 u).trans hu)
      fun u _ hu => (plane_forgetPlane 2 u).trans hu)
    fun u _ hu => (alphaPlane_forgetPlane u).trans hu

theorem forgetPlane_of_blockPlanes {s d : State} (h : blockPlanes s = .ok d) : forgetPlane d = forgetPlane s := by
  have hframe := blockPlanes_forgetPlane s
  rw [h] at hframe
  exact hframe

theorem blockPlanes_of_planesRun {s d : State} (h : PlanesRun s d) : blockPlanes s = .ok d := by
  obtain ⟨a, b, c, ha, hb, hc, halpha⟩ := h
  have hpa := plane_of_planeRun ha
  have hpb := plane_of_planeRun hb
  have hpc := plane_of_planeRun hc
  have hctrl : c.ctrl.alpha = s.ctrl.alpha := alpha_of_forgetPlane
    (((forgetPlane_of_plane hpc).trans (forgetPlane_of_plane hpb)).trans (forgetPlane_of_plane hpa))
  rw [blockPlanes, hpa, bind_ok, hpb, bind_ok, hpc, bind_ok]
  obtain ⟨hon, hd⟩ | ⟨hoff, rfl⟩ := halpha
  · rw [alphaPlane_of_on (hctrl.trans hon), plane_of_planeRun hd]
  · rw [alphaPlane_of_off (hctrl.trans hoff)]

/-- The first plane with a code that raises stops the planes of the block. -/
theorem blockPlanes_of_planesErr {s : State} {code : ErrCode} {start : Word} (h : PlanesErr s code start) :
    code.isData = true ∧ ∃ u, blockPlanes s = .err code start u := by
  rw [blockPlanes]
  obtain h0 | ⟨a, ha, h1⟩ := h
  · obtain ⟨u, hu⟩ := plane_of_planeErr h0
    exact ⟨planeErr_isData h0, u, by rw [hu]; rfl⟩
  rw [plane_of_planeRun ha, bind_ok]
  obtain h1 | ⟨b, hb, h2⟩ := h1
  · obtain ⟨u, hu⟩ := plane_of_planeErr h1
    exact ⟨planeErr_isData h1, u, by rw [hu]; rfl⟩
  rw [plane_of_planeRun hb, bind_ok]
  obtain h2 | ⟨c, hc, hon, h3⟩ := h2
  · obtain ⟨u, hu⟩ := plane_of_planeErr h2
    exact ⟨planeErr_isData h2, u, by rw [hu]; rfl⟩
  have hctrl : c.ctrl.alpha = s.ctrl.alpha := alpha_of_forgetPlane
    (((forgetPlane_of_plane (plane_of_planeRun hc)).trans (forgetPlane_of_plane (plane_of_planeRun hb))).trans
      (forgetPlane_of_plane (plane_of_planeRun ha)))
  obtain ⟨u, hu⟩ := plane_of_planeErr h3
  exact ⟨planeErr_isData h3, u, by rw [plane_of_planeRun hc, bind_ok, alphaPlane_of_on (hctrl.trans hon), hu]⟩

/-- After the planes of a block every sample that CCONV reads holds a value. -/
theorem blockPlanes_filled {s d : State} (h : blockPlanes s = .ok d) {q : Plane} (hq : q ≠ 3 ∨ d.ctrl.alpha = true) :
    PlaneFilled d q := by
  obtain ⟨c, h, hd⟩ := bind_eq_ok_iff.1 h
  obtain ⟨b, h, hc⟩ := bind_eq_ok_iff.1 h
  obtain ⟨a, ha, hb⟩ := bind_eq_ok_iff.1 h
  have hcolours (q : Plane) (hq : q ≠ 3) : PlaneFilled c q := by
    match q with
    | 0 => exact plane_keeps_filled hc (plane_keeps_filled hb (plane_filled ha))
    | 1 => exact plane_keeps_filled hc (plane_filled hb)
    | 2 => exact plane_filled hc
    | 3 => exact absurd rfl hq
  unfold alphaPlane at hd
  split at hd
  · by_cases hcolour : q = 3
    · exact hcolour ▸ plane_filled hd
    · exact plane_keeps_filled hd (hcolours q hcolour)
  next hoff =>
    cases hd
    exact hcolours q (hq.resolve_right hoff)

/-! ### The conversion and the write of a block -/

/-- The samples of the planes, for the cells that hold a value. -/
def planeSamples (s : State) : Vector (Vector Word 64) 4 :=
  Vector.ofFn fun q => Vector.ofFn fun i => (s.plane[q][i]).getD 0

theorem planeSamples_of_filled {s : State} {q : Plane} (h : PlaneFilled s q) (i : Fin 64) :
    s.plane[q][i] = some (planeSamples s)[q][i] := by
  obtain ⟨v, hv⟩ := h i
  have hcell : (planeSamples s)[q][i] = (s.plane[q][i]).getD 0 := by simp [planeSamples]
  rw [hcell, hv, Option.getD_some]

/-- A block whose planes are filled is converted and written. -/
theorem convertAndWrite_of_filled {d : State} (h : ∀ q : Plane, q ≠ 3 ∨ d.ctrl.alpha = true → PlaneFilled d q) :
    ∃ (t : State) (y : Vector (Vector Word 64) 4), ((cconv d).bind writeTile) = .ok t ∧
      (∀ (q : Plane) (i : Fin 64), q ≠ 3 ∨ d.ctrl.alpha = true → d.plane[q][i] = some y[q][i]) ∧
      TileFrame { d with pix := (pixelWords d y).map some } t ∧
      (d.dst.wf = true → TileWritten { d with pix := (pixelWords d y).map some } (pixelWords d y) t) := by
  have hsamples : ∀ (q : Plane) (i : Fin 64), q ≠ 3 ∨ d.ctrl.alpha = true → d.plane[q][i] = some (planeSamples d)[q][i] :=
    fun q i hq => planeSamples_of_filled (h q hq) i
  obtain ⟨t, ht, hframe, hwritten⟩ := writeTile_of_pixels
    (s := { d with pix := (pixelWords d (planeSamples d)).map some }) (v := pixelWords d (planeSamples d))
    fun i _ => by simp
  exact ⟨t, planeSamples d, by rw [cconv_eq_ok hsamples, bind_ok]; exact ht, hsamples, hframe, hwritten⟩

theorem blockBody_of_planes {s d : State} (h : blockPlanes s = .ok d) : blockBody s = (cconv d).bind writeTile := by
  rw [blockBody_eq, h, bind_ok]

/-- A block whose planes are decoded ends in `finishBlock`. -/
theorem blockBody_of_planesRun {s d : State} (h : PlanesRun s d) : blockBody s = .ok (finishBlock d) := by
  have hplanes := blockPlanes_of_planesRun h
  obtain ⟨t, _, ht, _⟩ := convertAndWrite_of_filled fun q => blockPlanes_filled hplanes
  rw [blockBody_of_planes hplanes, finishBlock, ht]
  rfl

/-- The same destination, image and tile. -/
structure SameTile (s t : State) : Prop where
  dst : t.dst = s.dst
  imgW : t.imgW = s.imgW
  imgH : t.imgH = s.imgH
  dstBase : t.dstBase = s.dstBase
  blkX : t.blkX = s.blkX
  blkY : t.blkY = s.blkY

theorem SameTile.pixelInside {s t : State} (h : SameTile s t) (i : Fin 64) : t.pixelInside i = s.pixelInside i := by
  rw [State.pixelInside, State.pixelX, State.pixelY, h.imgW, h.imgH, h.blkX, h.blkY]
  rfl

theorem SameTile.tileWritten {s t u : State} {v : Vector Word 64} (h : SameTile s t) (ht : TileWritten t v u) :
    TileWritten s v u := by
  obtain ⟨hbytes, hothers, hlast, hnext⟩ := ht
  simp only [h.pixelInside, pixelAddr_congr h.imgW h.dstBase h.blkX h.blkY, h.dst, h.imgW, h.blkX, h.blkY]
    at hbytes hothers hlast hnext
  exact ⟨hbytes, hothers, hlast, hnext⟩

theorem sameTile_of_forgetPlane {s d : State} (h : forgetPlane d = forgetPlane s) (b : Cells 64) :
    SameTile s { d with pix := b } :=
  ⟨(congrArg State.dst h :), (congrArg State.imgW h :), (congrArg State.imgH h :), (congrArg State.dstBase h :),
    (congrArg State.blkX h :), (congrArg State.blkY h :)⟩

theorem pixelOf_congr {s t : State} (hc : t.ctrl = s.ctrl) (hr : t.rom = s.rom) {y0 y1 y2 y3 v : Word}
    (h : PixelOf t y0 y1 y2 y3 v) : PixelOf s y0 y1 y2 y3 v := by
  simpa only [PixelOf, hc, hr] using h

theorem exec_block_of_tileInImage {s : State} (h : TileInImage s) :
    exec .block s = (blockBody s).finish (blockWrites s) :=
  congrArg (fun r : Res => r.finish (blockWrites s)) (withGeometry_of_tileInImage h blockBody)

/-- Settles O41: the planes are decoded, and the tile of the state they left is the tile of the start. -/
theorem blockDecodesAndWrites : Obligations.BlockDecodesAndWrites := by
  intro s d hwf htile hrun
  have hplanes := blockPlanes_of_planesRun hrun
  have hframe := forgetPlane_of_blockPlanes hplanes
  have hctrl : d.ctrl = s.ctrl := (congrArg State.ctrl hframe :)
  have hrom : d.rom = s.rom := (congrArg State.rom hframe :)
  have hdst : d.dst = s.dst := (congrArg State.dst hframe :)
  obtain ⟨t, y, ht, hsamples, hrest, hwritten⟩ := convertAndWrite_of_filled fun q => blockPlanes_filled hplanes
  obtain ⟨hbytes, hothers, hlast, hnext⟩ := (sameTile_of_forgetPlane hframe _).tileWritten (hwritten (hdst ▸ hwf))
  have hexec : exec .block s = .next t.complete := by
    rw [exec_block_of_tileInImage htile, blockBody_of_planes hplanes, ht]
    rfl
  have hpix : t.pix = (pixelWords d y).map some := (congrArg State.pix hrest :)
  refine ⟨t.complete, pixelWords d y, y, hexec, (congrArg State.pos hrest :), (congrArg State.result hrest :),
    (congrArg State.dc hrest :), (congrArg State.plane hrest :), ?_, ?_, fun i => ⟨?_, ?_⟩, hbytes, hothers, hlast, hnext, ?_⟩
  · exact (congrArg (fun u : State => u.complete.status) hrest :)
  · rwa [← hctrl]
  · rw [complete_pix, hpix]
    simp
  · rw [pixelWords_getElem]
    exact pixelOf_congr hctrl hrom (pixelWord_pixelOf d _ _ _ _)
  · exact (congrArg (fun u : State => { u with pix := t.pix, status := t.complete.status }) hrest :)

/-! ### IMAGE -/

theorem blocks_of_blocksRun {n : Nat} {s t : State} (h : BlocksRun n s t) : blocks n s = .ok t := by
  induction h with
  | done => rfl
  | block hplanes _ ih => rw [blocks, blockBody_of_planesRun hplanes, bind_ok, ih]

theorem blocks_add (n m : Nat) (s : State) : blocks (n + m) s = (blocks n s).bind (blocks m) := by
  induction n generalizing s with
  | zero => rw [Nat.zero_add]; rfl
  | succ n ih =>
    rw [Nat.add_right_comm, blocks, blocks]
    cases h : blockBody s with
    | ok u => rw [bind_ok, bind_ok, ih]
    | err code info u => rfl
    | fault f u => rfl

theorem image_of_not_empty {s : State} (hw : s.imgW.toNat ≠ 0) (hh : s.imgH.toNat ≠ 0) :
    image s = blocks (s.nbx * s.nby) s.startImage := by
  rw [image, if_neg]
  rw [emptyImage_iff]
  omega

/-- Settles O42: the start state is that of the statement, and the blocks are the run. -/
theorem imageDecodesBlocks : Obligations.ImageDecodesBlocks := by
  intro s t hw hh hrun
  have himage : image s = .ok t := (image_of_not_empty hw hh).trans (blocks_of_blocksRun hrun)
  exact congrArg (fun r : Res => r.finish (imageWrites s)) himage

/-! ### Data errors -/

/-- The state in which a command with a data error ends records it and loses the buffers it could write
(60_exceptions.md rules R202 and R210). -/
theorem exec_of_dataError {i : Instr} {s u : State} {code : ErrCode} {start : Word} (hdata : code.isData = true)
    (h : commandWork i s = .err code start u) :
    exec i s = .next ((u.clobber (commandWrites i s)).raise code start) ∧
      Recorded s ((u.clobber (commandWrites i s)).raise code start) code start ∧ u.ctrl = s.ctrl := by
  have hdone := commandWork_done i s
  have hctrl := (commandWork_sameConstants i s).ctrl
  rw [h] at hdone hctrl
  refine ⟨?_, ⟨rfl, rfl, rfl, rfl, hdone⟩, hctrl⟩
  rw [exec_eq_finish, h]
  exact congrArg _ (takeError_of_isData hdata u start _)

theorem clobber_plane_none {w : Writes} {q : Plane} (h : w.plane q = true) (u : State) (i : Fin 64) :
    (u.clobber w).plane[q][i] = none := by
  have hplane : (u.clobber w).plane[q] = Vector.replicate 64 none := (getElem_tab_fin _ q).trans (if_pos h)
  rw [hplane]
  exact Vector.getElem_replicate i.isLt

theorem clobber_tmp_none {w : Writes} (h : w.tmp = true) (u : State) (i : Fin 72) : (u.clobber w).tmp[i] = none := by
  rw [show (u.clobber w).tmp = Vector.replicate 72 none from if_pos h]
  exact Vector.getElem_replicate i.isLt

theorem clobber_pix_none {w : Writes} (h : w.pix = true) (u : State) (i : Fin 64) : (u.clobber w).pix[i] = none := by
  rw [show (u.clobber w).pix = Vector.replicate 64 none from if_pos h]
  exact Vector.getElem_replicate i.isLt

theorem clobber_coef_none (w : Writes) (u : State) (i : Fin 64) : (u.clobber w).coef[i] = none :=
  Vector.getElem_replicate i.isLt

/-- What BLOCK and IMAGE could write holds no value after their data error. -/
theorem blockBuffersEmpty_of_clobber {s u : State} {w : Writes} (htmp : w.tmp = true) (hpix : w.pix = true)
    (hplane : w.plane = s.blockPlane) (hctrl : u.ctrl = s.ctrl) (code : ErrCode) (start : Word) :
    BlockBuffersEmpty ((u.clobber w).raise code start) := by
  refine ⟨clobber_coef_none w u, clobber_tmp_none htmp u, clobber_pix_none hpix u, fun p i hp => ?_⟩
  have halpha : p ≠ 3 ∨ s.ctrl.alpha = true := by rw [← hctrl]; exact hp
  exact clobber_plane_none (by rw [hplane]; simpa [State.blockPlane] using halpha) u i

theorem blockBody_of_planesErr {s : State} {code : ErrCode} {start : Word} (h : PlanesErr s code start) :
    code.isData = true ∧ ∃ u, blockBody s = .err code start u ∧ u.dst = s.dst := by
  obtain ⟨hdata, u, hu⟩ := blockPlanes_of_planesErr h
  have hframe := blockPlanes_forgetPlane s
  rw [hu] at hframe
  exact ⟨hdata, u, by rw [blockBody_eq, hu]; rfl, (congrArg State.dst hframe :)⟩

/-- Settles O43: the plane with the error stops the block, and the blocks before it have written. -/
theorem dataErrorAbortsBlock : Obligations.DataErrorAbortsBlock := by
  intro s code start
  refine ⟨fun p herr => ?_, fun htile herr => ?_, fun n d hn hrun herr => ?_⟩
  · obtain ⟨u, hu⟩ := plane_of_planeErr herr
    obtain ⟨hexec, hrecorded, _⟩ := exec_of_dataError (i := .plane p) (planeErr_isData herr) hu
    have hframe := plane_forgetPlane p s
    rw [hu] at hframe
    have hpix : u.pix = s.pix := (congrArg State.pix hframe :)
    exact ⟨_, hexec, hrecorded, (congrArg State.dst hframe :), (clobber_pix (w := planeWrites p) rfl u).trans hpix,
      fun i => ⟨clobber_coef_none (planeWrites p) u i, clobber_plane_none (w := planeWrites p) (beq_self_eq_true p) u i⟩,
      clobber_tmp_none (w := planeWrites p) rfl u⟩
  · obtain ⟨hdata, u, hu, hdst⟩ := blockBody_of_planesErr herr
    have hblock : commandWork .block s = .err code start u := (withGeometry_of_tileInImage htile blockBody).trans hu
    obtain ⟨hexec, hrecorded, hctrl⟩ := exec_of_dataError hdata hblock
    exact ⟨_, hexec, hrecorded, hdst, hctrl, blockBuffersEmpty_of_clobber rfl rfl rfl hctrl code start⟩
  · obtain ⟨hdata, u, hu, hdst⟩ := blockBody_of_planesErr herr
    obtain ⟨m, hm⟩ : ∃ m, s.nbx * s.nby = n + (m + 1) := Nat.exists_eq_add_of_lt hn
    have hsize : s.imgW.toNat ≠ 0 ∧ s.imgH.toNat ≠ 0 := by
      refine ⟨fun h => ?_, fun h => ?_⟩
      · simp [h] at hn
      · simp [h] at hn
    have himage : commandWork .image s = .err code start u := by
      change image s = _
      rw [image_of_not_empty hsize.1 hsize.2, hm, blocks_add,
        show blocks n s.startImage = .ok d from blocks_of_blocksRun hrun, bind_ok, blocks, hu]
      rfl
    obtain ⟨hexec, hrecorded, hctrl⟩ := exec_of_dataError hdata himage
    exact ⟨_, hexec, hrecorded, hdst, hctrl, blockBuffersEmpty_of_clobber rfl rfl rfl hctrl code start⟩

end Sys2Proof.Machine
end

section
/-! Two states that differ in the page and in buffers only (20_memory.md rule R58, 70_reset_and_hazards.md rule R231): the
bits that they read are the same, so whatever decodes the stream keeps them alike. -/

namespace Sys2Proof.Machine

open Sys2Proof.Spec

/-! ### The buffers and what is beside them -/

/-- The registers and buffers that an earlier session may have left behind (70_reset_and_hazards.md rule R231). -/
structure Buffers where
  result : Word
  errinfo : Word
  arg0 : Word
  coef : Cells 64
  tmp : Cells 72
  plane : Vector (Cells 64) 4
  pix : Cells 64

def State.buffers (s : State) : Buffers := ⟨s.result, s.errinfo, s.arg0, s.coef, s.tmp, s.plane, s.pix⟩

/-- The state without its page and those buffers. -/
def hideBuffers (s : State) : State :=
  { forgetPage s with
    result := 0, errinfo := 0, arg0 := 0, coef := Vector.replicate 64 none, tmp := Vector.replicate 72 none
    plane := Vector.replicate 4 (Vector.replicate 64 none), pix := Vector.replicate 64 none }

/-- The states differ in the page and the buffers only, each page is a copy of the window, and `view` sees no difference
between the buffers. -/
structure Twin {α : Type} (view : Buffers → α) (s t : State) : Prop where
  page : s.PageHolds
  page' : t.PageHolds
  core : hideBuffers s = hideBuffers t
  seen : view s.buffers = view t.buffers

/-- The views that a decode keeps: what it writes to RESULT, COEF and a plane does not depend on what is not seen. -/
structure DecodeView {α : Type} (view : Buffers → α) : Prop where
  result : ∀ (b c : Buffers) (v : Word), view b = view c → view { b with result := v } = view { c with result := v }
  coef : ∀ (b c : Buffers) (i : Fin 64) (v : Option Word), view b = view c →
    view { b with coef := b.coef.set i v } = view { c with coef := c.coef.set i v }

section
variable {α : Type} {view : Buffers → α} {s t : State}

theorem Twin.rom (h : Twin view s t) : s.rom = t.rom := (congrArg State.rom h.core :)
theorem Twin.pos (h : Twin view s t) : s.pos = t.pos := (congrArg State.pos h.core :)
theorem Twin.dc (h : Twin view s t) : s.dc = t.dc := (congrArg State.dc h.core :)
theorem Twin.ctrl (h : Twin view s t) : s.ctrl = t.ctrl := (congrArg State.ctrl h.core :)
theorem Twin.status (h : Twin view s t) : s.status = t.status := (congrArg State.status h.core :)
theorem Twin.winLen (h : Twin view s t) : s.winLen = t.winLen := (congrArg State.winLen h.core :)

/-! ### Reads of the stream -/

theorem afterRead_draws (s : State) (off : Word) :
    (s.afterRead off).draws = if s.raced.isEmpty then s.draws else s.draws + 1 := by
  unfold State.afterRead
  dsimp only
  rw [lookupPage_raced]
  split
  · exact lookupPage_draws s _
  · exact congrArg (· + 1) (lookupPage_draws s _)

theorem hideBuffers_afterRead (s : State) (off : Word) :
    hideBuffers (s.afterRead off) = { hideBuffers s with draws := if s.raced.isEmpty then s.draws else s.draws + 1 } := by
  rw [← afterRead_draws s off]
  exact (congrArg hideBuffers (afterRead_sameButPage s off) :)

theorem buffers_afterRead (s : State) (off : Word) : (s.afterRead off).buffers = s.buffers :=
  (congrArg State.buffers (afterRead_sameButPage s off) :)

theorem Twin.afterRead (h : Twin view s t) (off : Word) : Twin view (s.afterRead off) (t.afterRead off) where
  page := afterRead_pageHolds h.page off
  page' := afterRead_pageHolds h.page' off
  core := by
    rw [hideBuffers_afterRead, hideBuffers_afterRead]
    exact (congrArg (fun u : State => { u with draws := if u.raced.isEmpty then u.draws else u.draws + 1 }) h.core :)
  seen := by rw [buffers_afterRead, buffers_afterRead]; exact h.seen

/-- What a read returns when the page is a copy of the window, also in a session with changed source bytes. -/
def windowBits (s : State) (off : Word) (n : Nat) : Word :=
  extractBits (s.racedWord (wordOf off) (s.wordAt (wordOf off)))
    (s.racedWord (wordOf off + 1) (s.wordAt (wordOf off + 1))) (off.toNat % 32) n

theorem lookupPage_racedWord (s : State) (w v : Nat) (x : Word) : (s.lookupPage w).racedWord v x = s.racedWord v x := by
  rw [State.lookupPage]
  split
  · rfl
  · rfl

theorem readBits_eq_windowBits {s : State} (h : s.PageHolds) (off : Word) (n : Nat) :
    s.readBits off n = windowBits s off n := by
  have hword : ∀ v, v = wordOf off ∨ v = wordOf off + 1 →
      (s.lookupPage (wordOf off)).pageWord v = s.wordAt v := fun v hv => by
    rw [pageWord_of_hit (lookupPage_pageHolds h _) (lookupPage_hit s _) hv, lookupPage_wordAt]
  simp only [State.readBits, windowBits, hword _ (.inl rfl), hword _ (.inr rfl), lookupPage_racedWord]

theorem windowBits_hideBuffers (s : State) (off : Word) (n : Nat) : windowBits (hideBuffers s) off n = windowBits s off n :=
  rfl

/-- Both states read the same bits. -/
theorem Twin.readBits (h : Twin view s t) (off : Word) (n : Nat) : s.readBits off n = t.readBits off n := by
  rw [readBits_eq_windowBits h.page, readBits_eq_windowBits h.page', ← windowBits_hideBuffers, h.core,
    windowBits_hideBuffers]

theorem Twin.consume (h : Twin view s t) (c : Nat) : Twin view (s.consume c) (t.consume c) :=
  ⟨h.page, h.page', (congrArg (State.consume · c) h.core :), h.seen⟩

theorem Twin.setFill (h : Twin view s t) (b : Bool) : Twin view (s.setFill b) (t.setFill b) :=
  ⟨h.page, h.page', (congrArg (State.setFill · b) h.core :), h.seen⟩

theorem Twin.setResult (hv : DecodeView view) (h : Twin view s t) (x : Word) :
    Twin view { s with result := x } { t with result := x } :=
  ⟨h.page, h.page', h.core, hv.result _ _ x h.seen⟩

theorem Twin.setDc (h : Twin view s t) (p : Plane) (x : Word) : Twin view (s.setDc p x) (t.setDc p x) :=
  ⟨h.page, h.page', (congrArg (State.setDc · p x) h.core :), h.seen⟩

theorem Twin.setCoef (hv : DecodeView view) (h : Twin view s t) (i : Fin 64) (x : Word) :
    Twin view (s.setCoef i x) (t.setCoef i x) :=
  ⟨h.page, h.page', h.core, hv.coef _ _ i (some x) h.seen⟩

/-! ### DCDEC -/

theorem Twin.dcJumpAt (h : Twin view s t) : s.dcJumpAt = t.dcJumpAt := by
  rw [State.dcJumpAt, State.dcJumpAt, h.pos, h.rom, h.readBits]

theorem Twin.afterDcSkip (h : Twin view s t) : Twin view s.afterDcSkip t.afterDcSkip := by
  rw [State.afterDcSkip, State.afterDcSkip, h.pos, h.dcJumpAt]
  exact (h.afterRead _).consume _

theorem Twin.dcDeltaAt (h : Twin view s t) : s.dcDeltaAt = t.dcDeltaAt := by
  rw [State.dcDeltaAt, State.dcDeltaAt, h.dcJumpAt, h.afterDcSkip.pos, h.afterDcSkip.readBits]

theorem Twin.afterDcCode (h : Twin view s t) : Twin view s.afterDcCode t.afterDcCode := by
  rw [State.afterDcCode, State.afterDcCode, h.dcJumpAt]
  split
  · exact h.afterDcSkip
  · rw [h.afterDcSkip.pos]
    exact (h.afterDcSkip.afterRead _).consume _

theorem Twin.accumulateDc (hv : DecodeView view) (h : Twin view s t) (p : Plane) (delta : Int) :
    Twin view (s.accumulateDc p delta) (t.accumulateDc p delta) := by
  rw [State.accumulateDc, State.accumulateDc, State.dcOf, State.dcOf, h.dc]
  exact (h.setDc p _).setResult hv _

theorem Twin.testFill (h : Twin view s t) : Twin view s.testFill t.testFill := by
  have hflag : s.fillFlagAt = t.fillFlagAt := by rw [State.fillFlagAt, State.fillFlagAt, h.pos, h.readBits]
  rw [State.testFill, State.testFill, hflag, h.pos]
  split
  · exact ((h.afterRead _).setFill true).consume 2
  · exact (h.afterRead _).setFill false

theorem Twin.dcdec (hv : DecodeView view) (h : Twin view s t) (p : Plane) : Twin view (dcdec p s) (dcdec p t) := by
  rw [Machine.dcdec, Machine.dcdec, h.dcDeltaAt]
  exact (h.afterDcCode.accumulateDc hv p _).testFill

end

/-! ### The entropy decoder -/

/-- Two ends of an iteration are alike. -/
inductive EntStep.Alike (P : State → State → Prop) : EntStep → EntStep → Prop where
  | stop {s t : State} (h : P s t) : Alike P (.stop s) (.stop t)
  | stored {k : Int} {s t : State} (h : P s t) : Alike P (.stored k s) (.stored k t)
  | err {code : ErrCode} {start : Word} {s t : State} (h : P s t) : Alike P (.err code start s) (.err code start t)

/-- Two ends of a command are alike. -/
inductive Res.Alike (P : State → State → Prop) : Res → Res → Prop where
  | ok {s t : State} (h : P s t) : Alike P (.ok s) (.ok t)
  | err {code : ErrCode} {info : Word} {s t : State} (h : P s t) : Alike P (.err code info s) (.err code info t)
  | fault {f : Fault} {s t : State} (h : P s t) : Alike P (.fault f s) (.fault f t)

/-- Alike parts in sequence are alike. -/
theorem Res.Alike.bind {P : State → State → Prop} {r r' : Res} {f : State → Res} (h : r.Alike P r')
    (hf : ∀ s t, P s t → (f s).Alike P (f t)) : (r.bind f).Alike P (r'.bind f) := by
  cases h with
  | ok h => exact hf _ _ h
  | err h => exact .err h
  | fault h => exact .fault h

section
variable {α : Type} {view : Buffers → α} {s t : State}

theorem Twin.storeAc (hv : DecodeView view) (h : Twin view s t) (start : Word) (k : Int) (run : Nat) (val : Int) :
    (storeAc start k run val s).Alike (Twin view) (storeAc start k run val t) := by
  unfold Machine.storeAc
  rw [h.rom]
  split
  · exact .err h
  · exact .stored (h.setCoef hv _ _)

/-- An iteration reads the same code in both states and stores the same value. -/
theorem Twin.entStep (hv : DecodeView view) (h : Twin view s t) (k : Int) :
    (entStep k s).Alike (Twin view) (entStep k t) := by
  have hpeek : s.peek17 = t.peek17 := by rw [State.peek17, State.peek17, h.pos, h.readBits]
  have hread := h.afterRead t.pos
  unfold Machine.entStep
  dsimp only
  rw [hpeek, h.rom, h.pos]
  split
  · exact .err hread
  · split
    · exact .stop (hread.consume _)
    · exact (hread.consume _).storeAc hv _ _ _ _
    next len ex run _ =>
      have hcode := hread.consume len.val
      rw [hcode.pos, hcode.readBits]
      exact ((hcode.afterRead _).consume _).storeAc hv _ _ _ _

theorem entLoop_alike (hv : DecodeView view) (fuel : Nat) (k : Int) (count : Nat) {s t : State} (h : Twin view s t) :
    (entLoop fuel k count s).Alike (Twin view) (entLoop fuel k count t) := by
  induction fuel generalizing k count s t with
  | zero => rw [entLoop, entLoop, h.pos]; exact .err h
  | succ fuel ih =>
    have hstep := h.entStep hv k
    rw [entLoop, entLoop]
    generalize entStep k s = e, entStep k t = e' at hstep ⊢
    cases hstep with
    | stop h' => exact .ok (h'.setResult hv _)
    | stored h' => exact ih _ _ h'
    | err h' => exact .err h'

end

/-- ENTDEC initialises COEF, so a view of COEF need not see what it was. -/
theorem entdec_alike {α β : Type} {view : Buffers → α} {view' : Buffers → β} (hv : DecodeView view')
    (hinit : ∀ (b c : Buffers) (x : Cells 64), view b = view c → view' { b with coef := x } = view' { c with coef := x })
    {s t : State} (h : Twin view s t) (p : Plane) : (entdec p s).Alike (Twin view') (entdec p t) := by
  have hcoef : (s.initCoef p).coef = (t.initCoef p).coef := by
    rw [State.initCoef, State.initCoef, State.dcOf, State.dcOf, h.dc, h.rom]
  have hseen : view' (s.initCoef p).buffers = view' (t.initCoef p).buffers :=
    (hinit s.buffers t.buffers (s.initCoef p).coef h.seen).trans
      (congrArg (fun x => view' { t.buffers with coef := x }) hcoef)
  exact entLoop_alike hv 65 63 0 ⟨h.page, h.page', h.core, hseen⟩

/-! ### The write of a tile -/

section
variable {α : Type} {view : Buffers → α} {s t : State}

theorem Twin.sameTile (h : Twin view s t) : SameTile t s :=
  ⟨(congrArg State.dst h.core :), (congrArg State.imgW h.core :), (congrArg State.imgH h.core :),
    (congrArg State.dstBase h.core :), (congrArg State.blkX h.core :), (congrArg State.blkY h.core :)⟩

theorem Twin.storeByte (h : Twin view s t) (a : Word) (v : Byte) : Twin view (s.storeByte a v) (t.storeByte a v) :=
  ⟨h.page, h.page', (congrArg (State.storeByte · a v) h.core :), h.seen⟩

theorem Twin.memWrite (h : Twin view s t) (a v : Word) : Twin view (s.memWrite a v) (t.memWrite a v) :=
  (((h.storeByte _ _).storeByte _ _).storeByte _ _).storeByte _ _

/-- The pixels go to the same addresses. -/
theorem Twin.writePixels (l : List (Fin 64)) {s t : State} (h : Twin view s t) (hpix : s.pix = t.pix) :
    (writePixels l s).Alike (Twin view) (writePixels l t) := by
  induction l generalizing s t with
  | nil => exact .ok h
  | cons i rest ih =>
    have htile := h.sameTile
    rw [Machine.writePixels, Machine.writePixels, htile.pixelInside, hpix,
      pixelAddr_congr htile.imgW htile.dstBase htile.blkX htile.blkY]
    split
    · split
      · exact .fault h
      · exact ih (h.memWrite _ _) (by simpa using hpix)
    · exact ih h hpix

theorem Twin.setBlkX (h : Twin view s t) (x : BitVec 13) : Twin view { s with blkX := x } { t with blkX := x } :=
  ⟨h.page, h.page', (congrArg (fun u : State => { u with blkX := x }) h.core :), h.seen⟩

theorem Twin.setBlkY (h : Twin view s t) (y : BitVec 13) : Twin view { s with blkY := y } { t with blkY := y } :=
  ⟨h.page, h.page', (congrArg (fun u : State => { u with blkY := y }) h.core :), h.seen⟩

theorem Twin.advanceTile (h : Twin view s t) : Twin view s.advanceTile t.advanceTile := by
  have htile := h.sameTile
  have hlast : s.blkX.toNat + 1 = s.nbx ↔ t.blkX.toNat + 1 = t.nbx := by
    rw [State.nbx, State.nbx, htile.imgW, htile.blkX]
  unfold State.advanceTile
  by_cases hcol : t.blkX.toNat + 1 = t.nbx
  · rw [if_pos hcol, if_pos (hlast.2 hcol), htile.blkY]
    exact (h.setBlkX 0).setBlkY (t.blkY + 1)
  · rw [if_neg hcol, if_neg (mt hlast.1 hcol), htile.blkX]
    exact h.setBlkX (t.blkX + 1)

theorem Twin.writeTile (h : Twin view s t) (hpix : s.pix = t.pix) :
    (writeTile s).Alike (Twin view) (writeTile t) :=
  (Twin.writePixels tilePixels h hpix).bind fun _ _ hu => .ok hu.advanceTile

end

end Sys2Proof.Machine
end

section
/-! The page is invisible (20_memory.md rule R58, 41_bitreader.md rule R104): from states that differ in the page only, every
command answers alike. -/

namespace Sys2Proof.Machine

open Sys2Proof.Spec

/-! ### States that differ in the page only -/

/-- The view that sees every buffer. -/
def wholeView (b : Buffers) : Buffers := b

theorem wholeView_decodeView : DecodeView wholeView :=
  ⟨fun _ _ v h => congrArg (fun b : Buffers => { b with result := v }) h,
    fun _ _ i v h => congrArg (fun b : Buffers => { b with coef := b.coef.set i v }) h⟩

theorem forgetPage_of_twin {s t : State} (h : Twin wholeView s t) : forgetPage s = forgetPage t :=
  (congrArg₂ (fun (u : State) (b : Buffers) => { u with
    result := b.result, errinfo := b.errinfo, arg0 := b.arg0, coef := b.coef, tmp := b.tmp, plane := b.plane
    pix := b.pix }) h.core (h.seen : s.buffers = t.buffers) :)

theorem twin_of_forgetPage {s t : State} (hs : s.PageHolds) (ht : t.PageHolds) (h : forgetPage s = forgetPage t) :
    Twin wholeView s t :=
  ⟨hs, ht, (congrArg hideBuffers h :), (congrArg State.buffers h :)⟩

section
variable {s t : State}

theorem Twin.plane_eq (h : Twin wholeView s t) : s.plane = t.plane := (congrArg Buffers.plane h.seen :)
theorem Twin.coef_eq (h : Twin wholeView s t) : s.coef = t.coef := (congrArg Buffers.coef h.seen :)
theorem Twin.tmp_eq (h : Twin wholeView s t) : s.tmp = t.tmp := (congrArg Buffers.tmp h.seen :)
theorem Twin.pix_eq (h : Twin wholeView s t) : s.pix = t.pix := (congrArg Buffers.pix h.seen :)
theorem Twin.arg0_eq (h : Twin wholeView s t) : s.arg0 = t.arg0 := (congrArg Buffers.arg0 h.seen :)

/-! ### The units -/

theorem bread_alike (h : Twin wholeView s t) (n : Nat) : (bread n s).Alike (Twin wholeView) (bread n t) := by
  have hcmd : s.cmd = t.cmd := (congrArg State.cmd h.core :)
  have hpast (b : Nat) : s.passesEnd b = t.passesEnd b := by rw [State.passesEnd, State.passesEnd, h.winLen]
  unfold bread
  rw [h.arg0_eq, h.readBits, hpast, hcmd]
  split
  · have hu := (h.afterRead t.arg0).setResult wholeView_decodeView (t.readBits t.arg0 n)
    exact .ok (twin_of_forgetPage hu.page hu.page'
      (congrArg (State.notePastEnd · (t.passesEnd (t.arg0.toNat + n))) (forgetPage_of_twin hu) :))
  · exact .err h

theorem Twin.setPlane (h : Twin wholeView s t) (p : Plane) (b : Cells 64) :
    Twin wholeView (s.setPlane p b) (t.setPlane p b) :=
  twin_of_forgetPage h.page h.page' (congrArg (State.setPlane · p b) (forgetPage_of_twin h) :)

theorem fillPlane_twin (h : Twin wholeView s t) (p : Plane) : Twin wholeView (fillPlane p s) (fillPlane p t) := by
  rw [fillPlane, fillPlane, State.dcOf, State.dcOf, h.dc]
  exact h.setPlane p _

theorem Twin.setTmp (h : Twin wholeView s t) (b : Cells 72) : Twin wholeView { s with tmp := b } { t with tmp := b } :=
  twin_of_forgetPage h.page h.page' (congrArg (fun u : State => { u with tmp := b }) (forgetPage_of_twin h) :)

theorem Twin.setPix (h : Twin wholeView s t) (b : Cells 64) : Twin wholeView { s with pix := b } { t with pix := b } :=
  twin_of_forgetPage h.page h.page' (congrArg (fun u : State => { u with pix := b }) (forgetPage_of_twin h) :)

theorem idctr_of_unread {s : State} (h : cellValues s.coef = none) : idctr s = .fault .coefNoValue s := by
  rw [idctr, h]

theorem idctr_alike (h : Twin wholeView s t) : (idctr s).Alike (Twin wholeView) (idctr t) := by
  cases hcoef : cellValues t.coef with
  | none =>
    rw [idctr_of_unread hcoef, idctr_of_unread (s := s) (by rw [h.coef_eq, hcoef])]
    exact .fault h
  | some b =>
    have hrows : rowCells s b = rowCells t b := by rw [rowCells, rowCells, h.rom, h.tmp_eq]
    have ht := (cellValues_eq_some_iff t.coef b).1 hcoef
    rw [idctr_eq_ok ht, idctr_eq_ok (s := s) (b := b) (by rw [h.coef_eq]; exact ht), hrows]
    exact .ok (h.setTmp _)

theorem idctc_alike (h : Twin wholeView s t) (p : Plane) : (idctc p s).Alike (Twin wholeView) (idctc p t) := by
  unfold idctc
  rw [h.tmp_eq, h.rom]
  split
  · exact .fault h
  · exact .ok (h.setPlane p _)

theorem plane_alike (h : Twin wholeView s t) (p : Plane) : (plane p s).Alike (Twin wholeView) (plane p t) := by
  have hd := h.dcdec wholeView_decodeView p
  unfold plane
  dsimp only
  rw [hd.status]
  split
  · exact .ok (fillPlane_twin hd p)
  · have hent := entdec_alike (view := wholeView) wholeView_decodeView
      (fun _ _ x hb => congrArg (fun b : Buffers => { b with coef := x }) hb) hd p
    exact (hent.bind fun _ _ hu => idctr_alike hu).bind fun _ _ hu => idctc_alike hu p

theorem pixelWords_congr {s t : State} (hc : s.ctrl = t.ctrl) (hr : s.rom = t.rom) (y : Vector (Vector Word 64) 4) :
    pixelWords s y = pixelWords t y := by
  simp only [pixelWords, pixelWord, alphaByte, hc, hr]

theorem cconv_alike (h : Twin wholeView s t) : (cconv s).Alike (Twin wholeView) (cconv t) := by
  by_cases hfilled : ∀ q : Plane, q ≠ 3 ∨ t.ctrl.alpha = true → PlaneFilled t q
  · have ht : ∀ (q : Plane) (i : Fin 64), q ≠ 3 ∨ t.ctrl.alpha = true → t.plane[q][i] = some (planeSamples t)[q][i] :=
      fun q i hq => planeSamples_of_filled (hfilled q hq) i
    rw [cconv_eq_ok ht, cconv_eq_ok (s := s) (y := planeSamples t) (by rw [h.plane_eq, h.ctrl]; exact ht),
      pixelWords_congr h.ctrl h.rom]
    exact .ok (h.setPix _)
  · obtain ⟨q, hq, i, hi⟩ : ∃ q : Plane, (q ≠ 3 ∨ t.ctrl.alpha = true) ∧ ∃ i : Fin 64, t.plane[q][i] = none := by
      by_contra hnone
      refine hfilled fun q hq i => Option.ne_none_iff_exists'.1 fun hi => hnone ⟨q, hq, i, hi⟩
    rw [cconv_of_missing hq hi, cconv_of_missing (s := s) (q := q) (i := i) (by rwa [h.ctrl]) (by rwa [h.plane_eq])]
    exact .fault h

theorem Twin.emptyImage (h : Twin wholeView s t) : s.emptyImage = t.emptyImage := by
  rw [State.emptyImage, State.emptyImage, h.sameTile.imgW, h.sameTile.imgH]

theorem Twin.tiles (h : Twin wholeView s t) : s.nbx = t.nbx ∧ s.nby = t.nby := by
  rw [State.nbx, State.nby, h.sameTile.imgW, h.sameTile.imgH]
  exact ⟨rfl, rfl⟩

theorem Twin.tileOutside (h : Twin wholeView s t) : s.tileOutside = t.tileOutside := by
  rw [State.tileOutside, State.tileOutside, h.tiles.1, h.tiles.2, h.sameTile.blkX, h.sameTile.blkY]

theorem Twin.geomInfo (h : Twin wholeView s t) : s.geomInfo = t.geomInfo := by
  have htile := h.sameTile
  rw [State.geomInfo, State.geomInfo, h.emptyImage, htile.imgW, htile.imgH, htile.blkX, htile.blkY]

theorem withGeometry_alike {f : State → Res} (h : Twin wholeView s t) (hf : (f s).Alike (Twin wholeView) (f t)) :
    (withGeometry f s).Alike (Twin wholeView) (withGeometry f t) := by
  rw [withGeometry, withGeometry, h.emptyImage, h.tileOutside, h.geomInfo]
  split
  · exact .err h
  · exact hf

theorem writeTile_alike (h : Twin wholeView s t) : (writeTile s).Alike (Twin wholeView) (writeTile t) :=
  h.writeTile h.pix_eq

theorem alphaPlane_alike (h : Twin wholeView s t) : (alphaPlane s).Alike (Twin wholeView) (alphaPlane t) := by
  unfold alphaPlane
  rw [h.ctrl]
  split
  · exact plane_alike h 3
  · exact .ok h

theorem blockBody_alike (h : Twin wholeView s t) : (blockBody s).Alike (Twin wholeView) (blockBody t) :=
  (((((plane_alike h 0).bind fun _ _ hu => plane_alike hu 1).bind fun _ _ hu => plane_alike hu 2).bind
    fun _ _ hu => alphaPlane_alike hu).bind fun _ _ hu => cconv_alike hu).bind fun _ _ hu => writeTile_alike hu

theorem blocks_alike (n : Nat) {s t : State} (h : Twin wholeView s t) :
    (blocks n s).Alike (Twin wholeView) (blocks n t) := by
  induction n generalizing s t with
  | zero => exact .ok h
  | succ n ih => exact (blockBody_alike h).bind fun _ _ hu => ih hu

/-- An invalid page holds nothing. -/
theorem pageHolds_of_invalid {s : State} (h : s.pageValid = false) : s.PageHolds :=
  fun hv => absurd (h.symm.trans hv) Bool.false_ne_true

theorem startImage_twin (h : Twin wholeView s t) : Twin wholeView s.startImage t.startImage :=
  twin_of_forgetPage (pageHolds_of_invalid (startImage_pageValid s)) (pageHolds_of_invalid (startImage_pageValid t))
    (congrArg State.startImage (forgetPage_of_twin h) :)

theorem sessionReset_twin (h : Twin wholeView s t) : Twin wholeView s.sessionReset t.sessionReset :=
  twin_of_forgetPage (pageHolds_of_invalid rfl) (pageHolds_of_invalid rfl)
    (congrArg State.sessionReset (forgetPage_of_twin h) :)

theorem image_alike (h : Twin wholeView s t) : (image s).Alike (Twin wholeView) (image t) := by
  rw [image, image, h.emptyImage, h.geomInfo, h.tiles.1, h.tiles.2]
  split
  · exact .err h
  · exact blocks_alike _ (startImage_twin h)

/-! ### Commands -/

/-- The work of every command is alike. -/
theorem commandWork_alike (h : Twin wholeView s t) (i : Instr) :
    (commandWork i s).Alike (Twin wholeView) (commandWork i t) := by
  cases i with
  | nop => exact .ok h
  | srst => exact .ok (sessionReset_twin h)
  | bread n => exact bread_alike h n
  | dcdec p => exact .ok (h.dcdec wholeView_decodeView p)
  | fill p => exact .ok (fillPlane_twin h p)
  | entdec p =>
    exact entdec_alike (view := wholeView) wholeView_decodeView
      (fun _ _ x hb => congrArg (fun b : Buffers => { b with coef := x }) hb) h p
  | idctr => exact idctr_alike h
  | idctc p => exact idctc_alike h p
  | plane p => exact plane_alike h p
  | cconv => exact cconv_alike h
  | wrblk => exact withGeometry_alike h (writeTile_alike h)
  | block => exact withGeometry_alike h (blockBody_alike h)
  | image => exact image_alike h

theorem forgetPage_takeError {s t : State} (h : forgetPage s = forgetPage t) (code : ErrCode) (info : Word) (w : Writes) :
    forgetPage (s.takeError code info w) = forgetPage (t.takeError code info w) := by
  unfold State.takeError
  split
  · exact (congrArg (fun u : State => forgetPage ((u.clobber w).raise code info)) h :)
  · exact (congrArg (fun u : State => forgetPage (u.raise code info)) h :)

/-- Alike work ends alike: the free values of a data error are the same draws. -/
theorem Res.Alike.finish {r r' : Res} (h : r.Alike (Twin wholeView) r') (w : Writes) :
    SameOutcome (r.finish w) (r'.finish w) := by
  cases h with
  | ok h => exact (congrArg (fun u : State => forgetPage u.complete) (forgetPage_of_twin h) :)
  | err h => exact forgetPage_takeError (forgetPage_of_twin h) _ _ w
  | fault h => rfl

theorem commandWrites_congr (h : s.ctrl = t.ctrl) (i : Instr) : commandWrites i s = commandWrites i t := by
  have hplane : s.blockPlane = t.blockPlane := by funext p; rw [State.blockPlane, State.blockPlane, h]
  have hblock : blockWrites s = blockWrites t := by rw [blockWrites, blockWrites, hplane]
  unfold commandWrites
  split
  · rfl
  · exact hblock
  · rw [imageWrites, imageWrites, hblock]
  · rfl

end

/-- Settles O60: the work of the command is alike in the two states, and so is its end. -/
theorem pageStateIsInvisible : Obligations.PageStateIsInvisible := by
  intro i s s' hs hs' hpage
  have htwin := twin_of_forgetPage hs hs' hpage
  rw [exec_eq_finish, exec_eq_finish, commandWrites_congr htwin.ctrl i]
  exact (commandWork_alike htwin i).finish _

end Sys2Proof.Machine
end

section
/-! A decode does not depend on what an earlier session left (70_reset_and_hazards.md rule R231): under stride 9 every buffer
that IMAGE reads is one that it has written. -/

namespace Sys2Proof.Machine

open Sys2Proof.Spec

/-- The view that sees no buffer. -/
def blindView (_ : Buffers) : Unit := ()

/-- The view that sees COEF, as the entropy decoder leaves it. -/
def coefView (b : Buffers) : Cells 64 := b.coef

theorem blindView_decodeView : DecodeView blindView := ⟨fun _ _ _ _ => rfl, fun _ _ _ _ _ => rfl⟩

theorem coefView_decodeView : DecodeView coefView :=
  ⟨fun _ _ _ h => h, fun _ _ i v h => congrArg (fun b : Cells 64 => b.set i v) h⟩

theorem Res.Alike.of_ok {P : State → State → Prop} {s : State} {r : Res} (h : (Res.ok s).Alike P r) :
    ∃ t, r = .ok t ∧ P s t := by
  cases h with
  | ok h => exact ⟨_, rfl, h⟩

/-! ### One plane -/

/-- Under stride 9 a coded plane is the separable transform of its coefficients (44_transform.md rule R165 (a)). -/
theorem plane_of_nine {s u : State} {p : Plane} (hfill : (dcdec p s).status.fill = false)
    (hrun : EntRun 63 0 ((dcdec p s).initCoef p) u) (hs : u.rom.rowOutStride = .nine) {b : Vector Word 64}
    (hb : ∀ i : Fin 64, u.coef[i] = some b[i]) :
    plane p s =
      .ok (State.setPlane { u with tmp := rowCells u b } p (columnSamples u.rom (rowOutputs u.rom b))) := by
  rw [plane_of_entRun hfill hrun, idctr_eq_ok hb, bind_ok]
  exact idctc_eq_ok (s := { u with tmp := rowCells u b }) (rowCells_column hs b) p

section
variable {s t : State}

/-- No plane is seen. -/
theorem Twin.paint (h : Twin blindView s t) (p : Plane) (b c : Cells 64) :
    Twin blindView (s.setPlane p b) (t.setPlane p c) := ⟨h.page, h.page', h.core, rfl⟩

/-- TMP is not seen. -/
theorem Twin.leaveTmp (h : Twin blindView s t) (b c : Cells 72) :
    Twin blindView { s with tmp := b } { t with tmp := c } := ⟨h.page, h.page', h.core, rfl⟩

theorem fillPlane_blind (h : Twin blindView s t) (p : Plane) :
    Twin blindView (fillPlane p s) (fillPlane p t) ∧ (fillPlane p s).plane[p] = (fillPlane p t).plane[p] := by
  rw [fillPlane, fillPlane, setPlane_plane_self, setPlane_plane_self, State.dcOf, State.dcOf, h.dc]
  exact ⟨h.paint p _ _, rfl⟩

theorem codedPlane_blind {u u' : State} (h : Twin coefView u u') (p : Plane) (b : Vector Word 64) :
    Twin blindView (State.setPlane { u with tmp := rowCells u b } p (columnSamples u.rom (rowOutputs u.rom b)))
        (State.setPlane { u' with tmp := rowCells u' b } p (columnSamples u'.rom (rowOutputs u'.rom b))) ∧
      (State.setPlane { u with tmp := rowCells u b } p (columnSamples u.rom (rowOutputs u.rom b))).plane[p] =
        (State.setPlane { u' with tmp := rowCells u' b } p (columnSamples u'.rom (rowOutputs u'.rom b))).plane[p] := by
  have hblind : Twin blindView u u' := ⟨h.page, h.page', h.core, rfl⟩
  refine ⟨(hblind.leaveTmp (rowCells u b) (rowCells u' b)).paint p _ _, ?_⟩
  rw [setPlane_plane_self, setPlane_plane_self, h.rom]

/-- A plane that is decoded in one state is decoded in its twin, to the same samples. -/
theorem plane_blind (h : Twin blindView s t) (hs : s.rom.rowOutStride = .nine) {p : Plane} {w : State}
    (hw : plane p s = .ok w) : ∃ w', plane p t = .ok w' ∧ Twin blindView w w' ∧ w.plane[p] = w'.plane[p] := by
  have hd := h.dcdec blindView_decodeView p
  cases hfill : (dcdec p s).status.fill with
  | true =>
    have hfill' : (dcdec p t).status.fill = true := by rw [← hd.status, hfill]
    obtain rfl := Res.ok.inj ((plane_of_fill hfill).symm.trans hw)
    exact ⟨_, plane_of_fill hfill', fillPlane_blind hd p⟩
  | false =>
    have hfill' : (dcdec p t).status.fill = false := by rw [← hd.status, hfill]
    obtain ⟨v, hrows, _⟩ := bind_eq_ok_iff.1 ((plane_of_coded hfill).symm.trans hw)
    obtain ⟨u, hu, _⟩ := bind_eq_ok_iff.1 hrows
    have hent := entdec_alike (view := blindView) coefView_decodeView (fun _ _ _ _ => rfl) hd p
    rw [hu] at hent
    obtain ⟨u', hu', htwin⟩ := hent.of_ok
    have hrun := entRun_of_entdec hu
    obtain ⟨⟨b, hb⟩, _, _, hrom⟩ := codedPlane_decoded hrun
    have hcoef : u.coef = u'.coef := htwin.seen
    have hb' : ∀ i : Fin 64, u'.coef[i] = some b[i] := by rw [← hcoef]; exact hb
    have hnine : u.rom.rowOutStride = .nine := by rw [hrom, hs]
    have hnine' : u'.rom.rowOutStride = .nine := by rw [← htwin.rom, hnine]
    obtain rfl := Res.ok.inj ((plane_of_nine hfill hrun hnine hb).symm.trans hw)
    exact ⟨_, plane_of_nine hfill' (entRun_of_entdec hu') hnine' hb', codedPlane_blind htwin p b⟩

theorem plane_keeps_same {p q : Plane} {s t w w' : State} (hw : plane p s = .ok w) (hw' : plane p t = .ok w')
    (hp : w.plane[p] = w'.plane[p]) (hq : s.plane[q] = t.plane[q]) : w.plane[q] = w'.plane[q] := by
  by_cases hpq : q = p
  · rw [hpq]
    exact hp
  · have hs := (plane_other hpq s).1
    have ht := (plane_other hpq t).1
    rw [hw] at hs
    rw [hw'] at ht
    exact (hs.trans hq).trans ht.symm

theorem rom_of_plane {p : Plane} {s w : State} (h : plane p s = .ok w) : w.rom = s.rom :=
  rom_of_forgetPlane (forgetPlane_of_plane h)

/-! ### One block -/

/-- The planes of a block, and the samples that CCONV reads. -/
theorem blockPlanes_blind (h : Twin blindView s t) (hs : s.rom.rowOutStride = .nine) {d : State}
    (hd : blockPlanes s = .ok d) : ∃ d', blockPlanes t = .ok d' ∧ Twin blindView d d' ∧
      ∀ q : Plane, q ≠ 3 ∨ d.ctrl.alpha = true → d.plane[q] = d'.plane[q] := by
  obtain ⟨c, hd, halpha⟩ := bind_eq_ok_iff.1 hd
  obtain ⟨b, hd, hc⟩ := bind_eq_ok_iff.1 hd
  obtain ⟨a, ha, hb⟩ := bind_eq_ok_iff.1 hd
  obtain ⟨a', ha', htwin, hsame0⟩ := plane_blind h hs ha
  have hs : a.rom.rowOutStride = .nine := by rw [rom_of_plane ha, hs]
  obtain ⟨b', hb', htwin, hsame1⟩ := plane_blind htwin hs hb
  have hs : b.rom.rowOutStride = .nine := by rw [rom_of_plane hb, hs]
  obtain ⟨c', hc', htwin, hsame2⟩ := plane_blind htwin hs hc
  have hs : c.rom.rowOutStride = .nine := by rw [rom_of_plane hc, hs]
  have hcolours (q : Plane) (hq : q ≠ 3) : c.plane[q] = c'.plane[q] := by
    match q with
    | 0 => exact plane_keeps_same hc hc' hsame2 (plane_keeps_same hb hb' hsame1 hsame0)
    | 1 => exact plane_keeps_same hc hc' hsame2 hsame1
    | 2 => exact hsame2
    | 3 => exact absurd rfl hq
  have hrun (r : Res) (hr : alphaPlane c' = r) : blockPlanes t = r := by
    rw [blockPlanes, ha', bind_ok, hb', bind_ok, hc', bind_ok, hr]
  cases hctrl : c.ctrl.alpha with
  | true =>
    rw [alphaPlane_of_on hctrl] at halpha
    obtain ⟨d', hd', htwin', hsame3⟩ := plane_blind htwin hs halpha
    refine ⟨d', hrun _ ((alphaPlane_of_on (htwin.ctrl ▸ hctrl)).trans hd'), htwin', fun q _ => ?_⟩
    by_cases hq : q = 3
    · rw [hq]
      exact hsame3
    · exact plane_keeps_same halpha hd' hsame3 (hcolours q hq)
  | false =>
    cases (alphaPlane_of_off hctrl).symm.trans halpha
    refine ⟨c', hrun _ (alphaPlane_of_off (htwin.ctrl ▸ hctrl)), htwin, fun q hq => hcolours q (hq.resolve_right ?_)⟩
    rw [hctrl]
    nofun

/-- A block that ends in one state ends in its twin. -/
theorem blockBody_blind (h : Twin blindView s t) (hs : s.rom.rowOutStride = .nine) {u : State}
    (hu : blockBody s = .ok u) : ∃ u', blockBody t = .ok u' ∧ Twin blindView u u' := by
  rw [blockBody_eq] at hu
  obtain ⟨e, he, htile⟩ := bind_eq_ok_iff.1 hu
  obtain ⟨d, hd, hconv⟩ := bind_eq_ok_iff.1 he
  obtain ⟨d', hd', htwin, hsame⟩ := blockPlanes_blind h hs hd
  have hy : ∀ (q : Plane) (i : Fin 64), q ≠ 3 ∨ d.ctrl.alpha = true → d.plane[q][i] = some (planeSamples d)[q][i] :=
    fun q i hq => planeSamples_of_filled (blockPlanes_filled hd hq) i
  have hy' : ∀ (q : Plane) (i : Fin 64), q ≠ 3 ∨ d'.ctrl.alpha = true → d'.plane[q][i] = some (planeSamples d)[q][i] := by
    intro q i hq
    rw [← htwin.ctrl] at hq
    rw [← hsame q hq]
    exact hy q i hq
  cases (cconv_eq_ok hy).symm.trans hconv
  have hwrite := Twin.writeTile (s := { d with pix := (pixelWords d (planeSamples d)).map some })
    (t := { d' with pix := (pixelWords d (planeSamples d)).map some }) (view := blindView)
    ⟨htwin.page, htwin.page', htwin.core, rfl⟩ rfl
  rw [htile] at hwrite
  obtain ⟨u', hu', hutwin⟩ := hwrite.of_ok
  refine ⟨u', ?_, hutwin⟩
  rw [blockBody_eq, hd', bind_ok, cconv_eq_ok hy', bind_ok, ← pixelWords_congr htwin.ctrl htwin.rom]
  exact hu'

theorem rom_of_blockBody {s u : State} (h : blockBody s = .ok u) : u.rom = s.rom := by
  have hrom := blockBody_rom s
  rw [h] at hrom
  exact hrom

theorem blocks_blind (n : Nat) {s t : State} (h : Twin blindView s t) (hs : s.rom.rowOutStride = .nine) {u : State}
    (hu : blocks n s = .ok u) : ∃ u', blocks n t = .ok u' ∧ Twin blindView u u' := by
  induction n generalizing s t with
  | zero =>
    cases hu
    exact ⟨t, rfl, h⟩
  | succ n ih =>
    obtain ⟨v, hv, hrest⟩ := bind_eq_ok_iff.1 hu
    obtain ⟨v', hv', htwin⟩ := blockBody_blind h hs hv
    obtain ⟨u', hu', hutwin⟩ := ih htwin (by rw [rom_of_blockBody hv, hs]) hrest
    exact ⟨u', by rw [blocks, hv', bind_ok, hu'], hutwin⟩

end

/-! ### IMAGE -/

/-- Settles O45: the start of IMAGE makes the two states twins that see no buffer, and the blocks keep them so. -/
theorem imageForgetsEarlierSession : Obligations.ImageForgetsEarlierSession := by
  intro s s' t hs _ hs' hexec hok
  obtain ⟨u, hu, rfl⟩ := completed_of_noError hexec hok
  have hw : s'.imgW = s.imgW := (congrArg State.imgW hs' :)
  have hh : s'.imgH = s.imgH := (congrArg State.imgH hs' :)
  have hstart : Twin blindView s.startImage s'.startImage :=
    ⟨pageHolds_of_invalid (startImage_pageValid s), pageHolds_of_invalid (startImage_pageValid s'),
      (congrArg (fun v : State => hideBuffers v.startImage) hs' :).symm, rfl⟩
  have hsize : s.imgW.toNat ≠ 0 ∧ s.imgH.toNat ≠ 0 := by
    have hfull : ¬ s.emptyImage = true := fun hempty => by
      have himage : image s = .err .imgGeom s.geomInfo s := if_pos hempty
      nomatch himage.symm.trans hu
    rw [emptyImage_iff] at hfull
    omega
  have hblocks : blocks (s.nbx * s.nby) s.startImage = .ok u := (image_of_not_empty hsize.1 hsize.2).symm.trans hu
  obtain ⟨u', hu', htwin⟩ := blocks_blind _ hstart hs hblocks
  have himage : image s' = .ok u' := by
    rw [image_of_not_empty (by rw [hw]; exact hsize.1) (by rw [hh]; exact hsize.2), State.nbx, State.nby, hw, hh]
    exact hu'
  refine ⟨u'.complete, congrArg (fun r : Res => r.finish (imageWrites s')) himage, ?_, ?_, ?_, ?_⟩
  · exact htwin.sameTile.dst.symm
  · exact htwin.pos.symm
  · exact htwin.dc.symm
  · rw [complete_status, complete_status, htwin.status]

end Sys2Proof.Machine
end
